-- ==== Sys2Proof/Word.lean ====
section
/-! DEFINITION. The block's value types (00_scope.md R10): u8, u16 and u32. The spec uses no signed value. -/

namespace Sys2Proof

/-- u8: one wire byte, one register byte (R10). -/
abbrev Byte := BitVec 8

/-- u16: a coin amount or an analog value (R10, R34, R87). -/
abbrev U16 := BitVec 16

/-- u32: a coin counter (R10, R31). -/
abbrev U32 := BitVec 32

end Sys2Proof
end

