-- ==== Sys2Proof/Config.lean ====
section
/-! DEFINITION. What an implementation fixes: the constants of 00_scope.md R7, the open parameters of R8, a board's
configuration record (10_state.md R24, R25), and the values the spec leaves free. -/

namespace Sys2Proof

/-! ## Fixed constants (R7) -/

/-- `SYNC`: the first byte of every frame. -/
def SYNC : Byte := 0xE0
/-- `MARK`: the escape prefix. -/
def MARK : Byte := 0xD0
/-- `ADDR_HOST`: the node address of the host. -/
def ADDR_HOST : Byte := 0x00
/-- `ADDR_BCAST`: the broadcast node address. -/
def ADDR_BCAST : Byte := 0xFF
/-- `ADDR_UNASSIGNED`: the id of a board with no address. -/
def ADDR_UNASSIGNED : Byte := 0xFE
/-- `DEV_ADDR_MIN` and `DEV_ADDR_MAX`: the addresses a board may hold. -/
def DEV_ADDR_MIN : Byte := 0x01
def DEV_ADDR_MAX : Byte := 0xFD
/-- `MAX_LEN`: the largest legal length byte. -/
def MAX_LEN : Nat := 254
/-- The largest payload of a reply, one less than `MAX_LEN` for the status byte (41_interpreter.md R145). -/
def MAX_RESP : Nat := 253
/-- `MAX_BOARDS`: the most iterations of one Enumerate. -/
def MAX_BOARDS : Nat := 15
/-- `MAX_CONSEC_ERR`: the consecutive enumeration errors that abort. -/
def MAX_CONSEC_ERR : Nat := 3
/-- `ENUM_FAIL_OFFSET`: added to the count to signal an enumeration failure. -/
def ENUM_FAIL_OFFSET : Byte := 0x21
/-- `MIN_REPLY_BYTES`: the bytes that must be available before the host decodes a reply. -/
def MIN_REPLY_BYTES : Nat := 5
/-- `RESET_ARG`: the literal byte that follows the RESET code. -/
def RESET_ARG : Byte := 0xD9
/-- `DEFAULT_BAUD`: the default line rate. No rule's result depends on it. -/
def DEFAULT_BAUD : Nat := 115200
/-- The report byte Normal, and the status byte Normal, that the source gives (30_encoding.md R89, R90). -/
def REPORT_NORMAL : Byte := 0x01
def STATUS_NORMAL : Byte := 0x01

/-! ## Open parameters (R8) -/

/-- The parameter `CMD_CODE`: one code byte per mnemonic (30_encoding.md R92). -/
structure CodeTable where
  ioident : Byte
  cmdrev : Byte
  jvsrev : Byte
  comver : Byte
  featchk : Byte
  readswitch : Byte
  readcoin : Byte
  dataretry : Byte
  coindecrease : Byte
  genericout1 : Byte
  coinincrease : Byte
  reset : Byte
  setaddr : Byte
deriving DecidableEq, Repr

/-- The default `CMD_CODE` table (R92). Only RESET's code is the source's. PRESUMED (log entry 13). -/
def CodeTable.standard : CodeTable where
  ioident := 0x10
  cmdrev := 0x11
  jvsrev := 0x12
  comver := 0x13
  featchk := 0x14
  readswitch := 0x20
  readcoin := 0x21
  dataretry := 0x2F
  coindecrease := 0x30
  genericout1 := 0x32
  coinincrease := 0x35
  reset := 0xF0
  setaddr := 0xF1

/-- The 13 codes in the order of R92. -/
def CodeTable.toList (t : CodeTable) : List Byte :=
  [t.ioident, t.cmdrev, t.jvsrev, t.comver, t.featchk, t.readswitch, t.readcoin, t.dataretry,
   t.coindecrease, t.genericout1, t.coinincrease, t.reset, t.setaddr]

/-- The report bytes that R90 says a model takes as a parameter. Normal is fixed (`REPORT_NORMAL`). -/
structure ReportCodes where
  parameterError : Byte
  dataError : Byte
  /-- The block never emits it (R90). -/
  busy : Byte
deriving DecidableEq, Repr

/-- The default report table (R90). PRESUMED (log entry 14). -/
def ReportCodes.standard : ReportCodes := ⟨0x02, 0x03, 0x04⟩

/-- The parameter `SENSE_POLARITY`: the electrical level of "asserted". -/
inductive SensePolarity where
  | activeHigh | activeLow
deriving DecidableEq, Repr

/-- The parameters of R8 that belong to no single board. `pollBudget` and `settleDelay` are read by no rule: the
model has no time, and R8 says that they affect no rule's result. -/
structure Params where
  codes : CodeTable
  reports : ReportCodes
  analogReadCode : Byte
  sensePolarity : SensePolarity
  pollBudget : Nat
  settleDelay : Nat
deriving DecidableEq, Repr

/-- The parameters of `State.reset`: the spec's defaults, and for the last four a DESIGN CHOICE or PRESUMED value
(log entries 15 and 16). -/
def Params.standard : Params where
  codes := .standard
  reports := .standard
  analogReadCode := 0x22
  sensePolarity := .activeHigh
  pollBudget := 0
  settleDelay := 0

/-! ## Roles (10_state.md R49, 60_exceptions.md R225) -/

inductive Role where
  | host | device
deriving DecidableEq, Repr

/-- `sense_mode` (10_state.md R36); `off` is the spec's `None`, "no sense line wired". -/
inductive SenseMode where
  | off | carrierDetect | dataSetReady
deriving DecidableEq, Repr

/-! ## A board's configuration (10_state.md R24, R25) -/

/-- The feature types of R25. -/
inductive FeatureType where
  | end_ | switch | coin | analog | rotary | keycode | screen | misc
  | card | medal | generalOutput | analogOutput | character | backup
deriving DecidableEq, Repr

/-- A capability record: a type and exactly three parameter bytes (R25). -/
structure Feature where
  featureType : FeatureType
  p1 : Byte
  p2 : Byte
  p3 : Byte
deriving DecidableEq, Repr

/-- Whether a buffer is configured, and its size (R24). -/
inductive BufCfg where
  | unconfigured
  | configured (n : Nat)
deriving DecidableEq, Repr

/-- The number of elements the buffer has; an unconfigured buffer does not exist and has none (R30 to R34). -/
def BufCfg.size : BufCfg → Nat
  | .unconfigured => 0
  | .configured n => n

/-- `DevConfig`: the immutable configuration of a board (R24). -/
structure DevConfig where
  identity : List Byte
  cmdVersion : Byte
  jvsVersion : Byte
  commVersion : Byte
  features : List Feature
  switchCfg : BufCfg
  coinCfg : BufCfg
  outputCfg : BufCfg
  analogCfg : BufCfg
  senseWired : Bool
deriving DecidableEq, Repr

/-- The default device configuration CFG-A (95_test_vectors.md section 0). DESIGN CHOICE as the board of
`State.reset` (log entry 2). -/
def DevConfig.default : DevConfig where
  identity := [0x53, 0x4A, 0x56, 0x53]
  cmdVersion := 0x13
  jvsVersion := 0x30
  commVersion := 0x10
  features := [⟨.switch, 2, 2, 0⟩, ⟨.coin, 2, 0, 0⟩, ⟨.generalOutput, 16, 0, 0⟩]
  switchCfg := .configured 4
  coinCfg := .configured 2
  outputCfg := .configured 2
  analogCfg := .unconfigured
  senseWired := false

/-! ## Free values -/

/-- The bytes the host receives when two or more boards answer one frame: "`B` is unspecified" (60_exceptions.md
R228, 93_implementation_defined.md I8). A free value, applied to `State.freeCount` (log entry 6). -/
opaque Config.collisionBytes : Nat → List Byte

/-- The address of the `ChecksumMismatch` a host raises for a reply with status ChecksumError: the address the board parsed,
which the reply does not tell (60_exceptions.md R210, R213, 42_link_manager.md R185). A free value, applied to
`State.freeCount` (log entry 32). -/
opaque Config.mismatchAddress : Nat → Byte

/-- `BCD(v)` for `v > 99`, which 00_scope.md R13 does not define. A free value (log entry 7). -/
opaque Config.bcdUndefined : Nat → Byte

end Sys2Proof
end

