-- ==== Sys2Proof/Syntax.lean ====
section
/-! DEFINITION. The instruction set: the 13 commands of spec/opcode_table.json (30_encoding.md R86, R92).
Operands are what the cursor's `take(n)` gave (10_state.md R22): `none` is a `take` that failed because the payload
ended (41_interpreter.md R144), so every form a command can have in a payload is a term. DEDUCED (log entry 5). -/

namespace Sys2Proof

inductive Instr where
  /-- IOIDENT (R152), format Z. -/
  | ioident
  /-- CMDREV (R153), format Z. -/
  | cmdrev
  /-- JVSREV (R154), format Z. -/
  | jvsrev
  /-- COMVER (R155), format Z. -/
  | comver
  /-- FEATCHK (R156), format Z. -/
  | featchk
  /-- READSWITCH (R157), format BB: players, bytes per player. -/
  | readswitch (args : Option (Byte × Byte))
  /-- READCOIN (R158), format B: slot count. -/
  | readcoin (count : Option Byte)
  /-- DATARETRY (R162), format Z. -/
  | dataretry
  /-- COINDECREASE (R160), format BW: slot, counted from 1, and amount. -/
  | coindecrease (args : Option (Byte × U16))
  /-- GENERICOUT1 (R161), format V: the data bytes; their number is the count byte. `none` when the count byte or a
  data byte is missing. -/
  | genericout1 (data : Option (List Byte))
  /-- COININCREASE (R159), format BW: slot, counted from 1, and amount. -/
  | coinincrease (args : Option (Byte × U16))
  /-- RESET (R150), format K: the byte that follows the code. Only 0xD9 makes it a reset. -/
  | reset (literal : Option Byte)
  /-- SETADDR (R151), format B: the new address. -/
  | setaddr (address : Option Byte)
deriving DecidableEq, Repr

end Sys2Proof
end

