-- ==== Sys2Proof/WellFormed.lean ====
section
/-! DEFINITION. Which terms the spec admits: an instruction whose encoding is complete (30_encoding.md R86), a
`CMD_CODE` table (R92) and a board's configuration (10_state.md R24, R25). -/

namespace Sys2Proof

/-- An instruction the encoding tables give bytes for: every argument present, RESET's literal 0xD9 (R96), a
GENERICOUT1 count that fits its count byte (R86). -/
def Instr.wf : Instr → Bool
  | .ioident => true
  | .cmdrev => true
  | .jvsrev => true
  | .comver => true
  | .featchk => true
  | .readswitch args => args.isSome
  | .readcoin count => count.isSome
  | .dataretry => true
  | .coindecrease args => args.isSome
  | .genericout1 data => data.any (fun d => d.length ≤ 255)
  | .coinincrease args => args.isSome
  | .reset literal => literal == some RESET_ARG
  | .setaddr address => address.isSome

/-- "The codes must be 13 distinct bytes. None may lie in 0x60..0x7F" (R92); RESET is 0xF0
(92_eei_decisions.md D1). -/
def CodeTable.wf (t : CodeTable) : Bool :=
  decide t.toList.Nodup && t.toList.all (fun c => decide (c.toNat < 0x60 ∨ 0x7F < c.toNat)) &&
    t.reset == 0xF0

/-- Both nibbles of a BCD byte are decimal digits (00_scope.md R13). -/
def bcdByteOk (b : Byte) : Bool := decide (b.toNat / 16 ≤ 9) && decide (b.toNat % 16 ≤ 9)

/-- A feature that can be constructed: not of type End (R25), every parameter with a BCD form (R24). -/
def Feature.wf (g : Feature) : Bool :=
  g.featureType != .end_ && decide (g.p1.toNat ≤ 99) && decide (g.p2.toNat ≤ 99) &&
    decide (g.p3.toNat ≤ 99)

/-- The conditions of R24 on a board's configuration. -/
def DevConfig.wf (c : DevConfig) : Bool :=
  c.identity.all (fun b => decide (0x20 ≤ b.toNat) && decide (b.toNat ≤ 0x7E)) &&
    bcdByteOk c.cmdVersion && bcdByteOk c.jvsVersion && bcdByteOk c.commVersion &&
    c.features.all Feature.wf

end Sys2Proof
end

