-- ==== Sys2Proof/Decode.lean ====
section
/-! DEFINITION. The command decoder, total on any bytes and rejecting by name, and after it the encoder
(30_encoding.md R85 to R87, R92, R95; 41_interpreter.md R143). -/

namespace Sys2Proof

/-- Why bytes hold no instruction. -/
inductive Reject where
  /-- The payload has no byte left: there is no command to read (R143). -/
  | endOfPayload
  /-- The code byte is none of the 13 codes (R95); the interpreter runs R163 on it. -/
  | unrecognised (code : Byte)
deriving DecidableEq, Repr

/-! ## The cursor's `take(n)` (10_state.md R22): the argument bytes, or nothing when the payload ends first -/

def take1 : List Byte → Option Byte
  | a :: _ => some a
  | [] => none

def take2 : List Byte → Option (Byte × Byte)
  | a :: b :: _ => some (a, b)
  | _ => none

/-- `amount = (h << 8) | l`, the high byte first (R87). -/
def amountOf (h l : Byte) : U16 := (h.setWidth 16 <<< 8) ||| l.setWidth 16

/-- The high and the low byte of an amount, as they stand on the wire (R87). -/
def amountHi (a : U16) : Byte := (a >>> 8).setWidth 8
def amountLo (a : U16) : Byte := a.setWidth 8

/-- Format BW: a byte and a 16-bit amount. -/
def takeSlotAmount : List Byte → Option (Byte × U16)
  | s :: h :: l :: _ => some (s, amountOf h l)
  | _ => none

/-- Format V: a count byte `n` and `n` data bytes. -/
def takeCounted : List Byte → Option (List Byte)
  | n :: rest => if n.toNat ≤ rest.length then some (rest.take n.toNat) else none
  | [] => none

/-- The command that starts at the first byte, under the code table `t` (R92). -/
def decode (t : CodeTable) : List Byte → Except Reject Instr
  | [] => .error .endOfPayload
  | c :: args =>
    if c = t.ioident then .ok .ioident
    else if c = t.cmdrev then .ok .cmdrev
    else if c = t.jvsrev then .ok .jvsrev
    else if c = t.comver then .ok .comver
    else if c = t.featchk then .ok .featchk
    else if c = t.readswitch then .ok (.readswitch (take2 args))
    else if c = t.readcoin then .ok (.readcoin (take1 args))
    else if c = t.dataretry then .ok .dataretry
    else if c = t.coindecrease then .ok (.coindecrease (takeSlotAmount args))
    else if c = t.genericout1 then .ok (.genericout1 (takeCounted args))
    else if c = t.coinincrease then .ok (.coinincrease (takeSlotAmount args))
    else if c = t.reset then .ok (.reset (take1 args))
    else if c = t.setaddr then .ok (.setaddr (take1 args))
    else .error (.unrecognised c)

/-- The argument bytes of an operand that is one byte, or none when it is missing. -/
def bytes1 (a : Option Byte) : List Byte := a.toList

def bytes2 : Option (Byte × Byte) → List Byte
  | some (a, b) => [a, b]
  | none => []

def bytesSlotAmount : Option (Byte × U16) → List Byte
  | some (s, a) => [s, amountHi a, amountLo a]
  | none => []

def bytesCounted : Option (List Byte) → List Byte
  | some d => BitVec.ofNat 8 d.length :: d
  | none => []

/-- The bytes of an instruction under the code table `t` (R86, R92). -/
def encodeWith (t : CodeTable) : Instr → List Byte
  | .ioident => [t.ioident]
  | .cmdrev => [t.cmdrev]
  | .jvsrev => [t.jvsrev]
  | .comver => [t.comver]
  | .featchk => [t.featchk]
  | .readswitch args => t.readswitch :: bytes2 args
  | .readcoin count => t.readcoin :: bytes1 count
  | .dataretry => [t.dataretry]
  | .coindecrease args => t.coindecrease :: bytesSlotAmount args
  | .genericout1 data => t.genericout1 :: bytesCounted data
  | .coinincrease args => t.coinincrease :: bytesSlotAmount args
  | .reset literal => t.reset :: bytes1 literal
  | .setaddr address => t.setaddr :: bytes1 address

/-- The encoder under the default table. -/
def encode (i : Instr) : List Byte := encodeWith .standard i

/-- How many payload bytes an instruction takes: its code byte and the argument bytes it has. -/
def Instr.size (i : Instr) : Nat := (encode i).length

/-- The first `n` bytes of a number, its least significant byte first. -/
def wordBytes : Nat → Nat → List Byte
  | 0, _ => []
  | n + 1, w => BitVec.ofNat 8 w :: wordBytes n (w / 256)

/-- The bytes of an instruction given as a number whose bits from `nbits` up are 0: the bytes it gives, three more for
operands, and as many as its second byte can ask for as a count (format V), up to the longest instruction a payload can
hold (254 bytes, R81). The bytes beyond those it gives are 0. -/
def tableWordBytes (nbits w : Nat) : List Byte :=
  let word := w % 2 ^ nbits
  wordBytes (min MAX_LEN (nbits / 8 + 3 + word / 256 % 256)) word

/-- The instruction the decoder reads from a number, under the default table. -/
def decodeTableWord (nbits w : Nat) : Option Instr :=
  match decode .standard (tableWordBytes nbits w) with
  | .ok i => some i
  | .error _ => none

end Sys2Proof
end

