-- ==== Sys2Proof/Machine/State.lean ====
section
/-! DEFINITION. The state of the bus as plain data: every record and register of 10_state.md, the host operation in
progress, the transport of 60_exceptions.md R228, and the outside world's inputs and oracle answers (R223, R224). -/

namespace Sys2Proof.Machine

/-! ## Why a step can stop -/

/-- The faults that stop the machine. There are none: the block's one fault, Misconfiguration, is the sticky flag
`Device.misconfigFault`, and the board goes on (60_exceptions.md R216, 00_scope.md R14). -/
inductive Fault
deriving DecidableEq, Repr

/-- The inputs the spec, or this model of it, gives no meaning (00_scope.md R14, 60_exceptions.md R221). Each is safe: the model stops
where it claims nothing. -/
inductive Refusal where
  /-- Raised by exec for an instruction with no meaning yet. Safe. -/
  | notModelled (mnemonic : String)
  /-- Encode of a frame whose length byte would exceed 254 (40_codec.md R113). Raised by an Exchange of such a frame. Safe. -/
  | oversize
  /-- A call of the interpreter on the host instance (41_interpreter.md R147). Safe. -/
  | interpretInHostRole
  /-- A host operation called on a board (60_exceptions.md R225). Safe. -/
  | hostOpInDeviceRole
  /-- An Exchange of a frame that carries a status (42_link_manager.md R182). Safe. -/
  | frameHasStatus
  /-- A second host operation while one runs (R199). Safe. -/
  | operationRunning
  /-- Open of a link that is open (R198). Safe. -/
  | linkAlreadyOpen
  /-- An input-polling write without the device lock (20_memory.md R70). Safe. -/
  | unsynchronisedWrite
  /-- A DevConfig that breaks 10_state.md R24, at admission. Safe. -/
  | illFormedConfig
  /-- A command run while no frame is interpreted: the working registers exist only while one frame is being
  interpreted (10_state.md R20, R21). Raised by every command; no run from reset reaches it. Safe. -/
  | noFrame
  /-- An input or a frame names a board that is not on the chain (60_exceptions.md R228). Safe. -/
  | noBoard
  /-- An input-polling write outside the buffer it names (20_memory.md R68). Safe. -/
  | pollOutOfRange
  /-- A call of the interpreter on a board with a frame that Decode does not accept: a status, a length byte over 254, or a
  checksum that is not the frame's (10_state.md R23, 40_codec.md R122). Safe. -/
  | unverifiedFrame
  /-- The resend path with no frame sent before (42_link_manager.md R185). No run from reset reaches it. Safe. -/
  | nothingToResend
deriving DecidableEq, Repr

/-! ## Records -/

/-- A Frame (10_state.md R23). -/
structure Frame where
  nodeAddress : Byte
  statusCode : Option Byte
  payload : List Byte
  checksum : Byte
deriving DecidableEq, Repr

/-- The frame status codes (30_encoding.md R89). -/
inductive Status where
  | normal | unknownCommand | checksumError | overflow
deriving DecidableEq, Repr

/-- The coin conditions (10_state.md R32). -/
inductive CoinCondition where
  | normal | jam | noCounter | busy
deriving DecidableEq, Repr

/-- The reasons of a FramingError (60_exceptions.md R211). -/
inductive FramingReason where
  | badSync | rawSync | badLength | trailing | malformedReply
deriving DecidableEq, Repr

/-- The host's record of one board (10_state.md R26). -/
structure BoardInfo where
  nodeId : Byte
  identity : List Byte
  commandVersion : Byte
  jvsVersion : Byte
  commVersion : Byte
  features : List Feature
deriving DecidableEq, Repr

/-! ## The Receiver (10_state.md R44) -/

inductive RxPhase where
  | idle | addr | len | status | payload | sum
deriving DecidableEq, Repr

structure Receiver where
  phase : RxPhase
  esc : Bool
  addr : Byte
  len : Byte
  status : Option Byte
  payload : List Byte
  sum : Byte
  /-- True in a host, false in a board (40_codec.md R117). -/
  expectStatus : Bool
deriving DecidableEq, Repr

/-- The Receiver at power-up. `addr` and `len` are unspecified: DESIGN CHOICE 0 (log entry 8). -/
def Receiver.powerUp (expectStatus : Bool) : Receiver where
  phase := .idle
  esc := false
  addr := 0
  len := 0
  status := none
  payload := []
  sum := 0
  expectStatus := expectStatus

/-! ## A board -/

/-- One device instance: its configuration, its DeviceState (10_state.md R27 to R37) and its Receiver. -/
structure Device where
  cfg : DevConfig
  nodeId : Byte
  senseOut : Bool
  systemSwitches : Byte
  switches : List Byte
  coinSlots : List U32
  coinCondition : List CoinCondition
  outputSlots : List Byte
  analog : List U16
  lastSent : Option (List Byte)
  misconfigFault : Bool
  rx : Receiver
deriving DecidableEq, Repr

/-- A board at power-up (70_reset_and_hazards.md R241): the DeviceReset state, no misconfiguration, the Receiver in its
reset state. -/
def Device.powerUp (cfg : DevConfig) : Device where
  cfg := cfg
  nodeId := ADDR_UNASSIGNED
  senseOut := false
  systemSwitches := 0
  switches := List.replicate cfg.switchCfg.size 0
  coinSlots := List.replicate cfg.coinCfg.size 0
  coinCondition := List.replicate cfg.coinCfg.size .normal
  outputSlots := List.replicate cfg.outputCfg.size 0
  analog := List.replicate cfg.analogCfg.size 0
  lastSent := none
  misconfigFault := false
  rx := .powerUp false

/-- The interpreter's working registers for one frame (10_state.md R21), the frame's payload `P` (R22), and the place on
the chain of the board that interprets it. While they exist the board's lock is held (20_memory.md R70). -/
structure Walk where
  dev : Nat
  payload : List Byte
  pos : Nat
  resp : List Byte
  fstatus : Status
  stop : Bool
  suppress : Bool
  resend : Bool
deriving DecidableEq, Repr

/-- The working registers at the start of a frame (41_interpreter.md R143). -/
def Walk.start (dev : Nat) (payload : List Byte) : Walk where
  dev := dev
  payload := payload
  pos := 0
  resp := []
  fstatus := .normal
  stop := false
  suppress := false
  resend := false

/-! ## The host -/

/-- The errors a host operation returns to its caller (60_exceptions.md R210). -/
inductive HostError where
  | framing (reason : FramingReason)
  /-- The second checksum failure in a row, with the address as parsed (42_link_manager.md R185, 60_exceptions.md R213): for a
  failure the host finds, the address of the bad reply; for one a board reports, a free value. DESIGN CHOICE (log entry 32). -/
  | checksumMismatch (nodeAddress : Byte)
  | timeout
  | noBytes
  | overflow
  | openError
  | writeError
  | closed
  | enumeration (sentinel : Byte)
deriving DecidableEq, Repr

/-- What a host operation returns to its caller: a result or an error (00_scope.md R14). -/
inductive HostResult where
  /-- Open, Close or Reset ended. -/
  | done
  /-- Exchange: `Reply(r)` (42_link_manager.md R184). -/
  | reply (f : Frame)
  /-- Exchange: `Resent` (R185). -/
  | resent
  /-- Enumerate or Connect: a count, or Enumerate's failure sentinel (R187, R190). -/
  | count (n : Byte)
  /-- Query: the board's record (R195). -/
  | board (b : BoardInfo)
  /-- A sender with invalid parameters (R197). -/
  | noOp
  /-- An error. -/
  | error (e : HostError)
deriving DecidableEq, Repr

/-- The convenience senders (42_link_manager.md R197). The operands of `WriteAnalog` are an open parameter: the caller
gives the payload (log entry 15). -/
inductive Sender where
  | readSwitches (id players bytesPer : Byte)
  | readCoins (id count : Byte)
  | increaseCoin (id slot : Byte) (amount : U16)
  | decreaseCoin (id slot : Byte) (amount : U16)
  | writeOutputs (id : Byte) (data : List Byte)
  | readAnalog (id count : Byte)
  | writeAnalog (id : Byte) (payload : List Byte)
deriving DecidableEq, Repr

/-- The operations a caller invokes on the host (42_link_manager.md). -/
inductive HostOp where
  | open_ (port : String) (baud : Nat) (senseMode : SenseMode)
  | close
  | reset
  | exchange (f : Frame)
  | exchangeRetry (f : Frame)
  | enumerate
  | query (node : Byte)
  | connect
  | send (sender : Sender)
deriving DecidableEq, Repr

/-- An operation that awaits the result of the one it called (R186, R187, R192 to R196). -/
inductive Task where
  /-- ExchangeRetry, its first Exchange running. -/
  | retry (f : Frame)
  /-- Enumerate, the Exchange of iteration `iter` running, after `err` consecutive errors (10_state.md R43). -/
  | enumerate (iter err : Nat)
  /-- Query, its identity request running (R192). -/
  | queryIdent (node : Byte)
  /-- Query, its version request running (R193). -/
  | queryInfo (node : Byte) (identity : List Byte)
  /-- Connect, its Reset running (R196). -/
  | connectReset
  /-- Connect, its Enumerate running. -/
  | connectEnum
  /-- Connect, its Query of board `node` of `total` running. -/
  | connectQuery (node total : Byte)
deriving DecidableEq, Repr

/-- Where the host stands inside an operation. -/
inductive HostPhase where
  /-- No operation runs. -/
  | idle
  /-- Reset, between its two sends (R181). -/
  | settle
  /-- Reset, after its second send, until the boards have taken it (60_exceptions.md R229). -/
  | resetDrain
  /-- Exchange, waiting for the reply (R183). -/
  | waiting
  /-- Exchange, after the resend, until the boards have taken it (R185, R229). -/
  | resentDrain
deriving DecidableEq, Repr

/-- The host instance: its LinkSession (10_state.md R36, R38 to R42), its Receiver (R44) and the operation in progress. -/
structure HostEngine where
  senseMode : SenseMode
  assignedCount : Byte
  lastSent : Option Frame
  /-- `directory`, with strictly rising node ids (R40). -/
  directory : List (Byte × BoardInfo)
  mismatchPending : Bool
  linkOpen : Bool
  rx : Receiver
  phase : HostPhase
  tasks : List Task
  /-- What the last ended operation returned. The model's own field (log entry 21). -/
  result : Option HostResult
deriving DecidableEq, Repr

/-- The host at power-up (70_reset_and_hazards.md R242). -/
def HostEngine.powerUp : HostEngine where
  senseMode := .off
  assignedCount := 0
  lastSent := none
  directory := []
  mismatchPending := false
  linkOpen := false
  rx := .powerUp true
  phase := .idle
  tasks := []
  result := none

/-! ## The outside world -/

/-- An instance on the bus: the host, or a board counted from the host outward, from 0. -/
inductive Agent where
  | host
  | device (i : Nat)
deriving DecidableEq, Repr

/-- `ROLE` (10_state.md R49): fixed by where the instance stands. -/
def Agent.role : Agent → Role
  | .host => .host
  | .device _ => .device

/-- One atomic write of the input-polling task (60_exceptions.md R223). -/
inductive PollWrite where
  | switches (index : Nat) (data : List Byte)
  | systemSwitches (value : Byte)
  | coinSlot (index : Nat) (value : U32)
  | coinCondition (index : Nat) (value : CoinCondition)
  | analog (index : Nat) (value : U16)
deriving DecidableEq, Repr

/-- The outside world's inputs (60_exceptions.md R223). DESIGN CHOICE: they stand in State as a list, and the first two
say when the agents run (log entry 9). -/
inductive Input where
  /-- The agents make one step before the next input. -/
  | tick
  /-- The agents run until nothing is left to do before the next input. -/
  | drain
  /-- A caller invokes a host operation on an instance. -/
  | call (agent : Agent) (op : HostOp)
  /-- A caller invokes Interpret on an instance (41_interpreter.md R143, R147). -/
  | interpret (agent : Agent) (f : Frame)
  /-- A byte arrives at a board's Receiver. -/
  | byte (dev : Nat) (b : Byte)
  /-- The address-loss event at a board. -/
  | addressLoss (dev : Nat)
  /-- A write of the input-polling task at a board, with or without the board's lock. -/
  | poll (dev : Nat) (locked : Bool) (write : PollWrite)
  /-- A board powers up with a configuration: a board of the chain, or the next one at its far end. -/
  | powerUp (dev : Nat) (cfg : DevConfig)
deriving DecidableEq, Repr

/-- What the transport does with one Send (60_exceptions.md R219, R226). -/
inductive SendChoice where
  | ok
  | writeError
  /-- Board `j` receives the `j`-th sequence in place of the bytes sent. -/
  | altered (received : List (List Byte))
deriving DecidableEq, Repr

/-- What becomes of the replies to one host transaction (60_exceptions.md R224). -/
inductive WaitChoice where
  /-- They arrive within the budget. -/
  | deliver
  /-- They arrive after the next Send. -/
  | late
  /-- They never arrive, or too late and before the next Send, where the host drops them. -/
  | lost
  /-- The host receives these bytes in their place. -/
  | altered (received : List Byte)
deriving DecidableEq, Repr

/-- The transport's answers not yet used, one list a kind. Where a list is empty the transport succeeds and replies
arrive in time (R224; log entry 10). -/
structure Oracle where
  sends : List SendChoice
  waits : List WaitChoice
  /-- Whether each transport `open` succeeds. -/
  opens : List Bool
deriving DecidableEq, Repr

/-! ## The bus -/

structure State where
  /-- The open parameters (00_scope.md R8). -/
  params : Params
  host : HostEngine
  /-- The chain d_1 .. d_k; the first is the board next to the host (60_exceptions.md R228). -/
  devices : List Device
  /-- The frame being interpreted, if any. -/
  walk : Option Walk
  /-- Wire bytes sent and not yet taken by a board's Receiver, in order, with the board's place. -/
  line : List (Nat × Byte)
  /-- The replies sent since the host last sent or read, in order. -/
  replies : List (List Byte)
  /-- Late reply bytes that reach the host after its next Send; Close and Open keep them, DESIGN CHOICE (log entry 35). -/
  inFlight : List Byte
  inputs : List Input
  oracle : Oracle
  /-- The counter the free values are applied to (log entry 6). -/
  freeCount : Nat
deriving DecidableEq, Repr

/-- The bus at power-up (70_reset_and_hazards.md R241, R242): the host with its link closed and one unaddressed board
(DESIGN CHOICE, log entries 1 and 2). -/
def State.reset : State where
  params := .standard
  host := .powerUp
  devices := [.powerUp .default]
  walk := none
  line := []
  replies := []
  inFlight := []
  inputs := []
  oracle := ⟨[], [], []⟩
  freeCount := 0

end Sys2Proof.Machine
end

