-- ==== Sys2Proof/Machine/Codec.lean ====
section
/-! DEFINITION. The frame codec: Checksum, Escape, Encode, Unescape, Decode (30_encoding.md R80 to R84, 40_codec.md R110 to
R117). Pure functions, no state. -/

namespace Sys2Proof.Machine

/-- `Checksum(s) = sum(s) mod 256` (R110). -/
def checksumOf (s : List Byte) : Byte := BitVec.ofNat 8 (s.map BitVec.toNat).sum

/-- The wire form of one byte at wire index 1 or higher (R83, R111). -/
def escape (b : Byte) : List Byte := if b = SYNC ∨ b = MARK then [MARK, b - 1] else [b]

/-- The length byte as an integer: the payload bytes and the status byte, when present (R81). -/
def Frame.lengthByte (f : Frame) : Nat := f.payload.length + f.statusCode.toList.length

/-- The bytes the checksum covers: node address, length, status when present, payload (R110). -/
def Frame.body (f : Frame) : List Byte :=
  f.nodeAddress :: BitVec.ofNat 8 f.lengthByte :: (f.statusCode.toList ++ f.payload)

/-- A frame that Decode accepts in a board's direction: no status, a legal length byte, the checksum of its fields
(10_state.md R23, R115). -/
def Frame.verified (f : Frame) : Bool :=
  f.statusCode.isNone && decide (f.lengthByte ≤ MAX_LEN) && f.checksum == checksumOf f.body

/-- A frame with the checksum R110 gives it. -/
def Frame.make (nodeAddress : Byte) (statusCode : Option Byte) (payload : List Byte) : Frame :=
  { nodeAddress := nodeAddress, statusCode := statusCode, payload := payload,
    checksum := checksumOf (Frame.body ⟨nodeAddress, statusCode, payload, 0⟩) }

/-- `Encode(f)`: the wire bytes, or nothing where R113 refuses with `Oversize` (R112). The `checksum` field is ignored:
it "is always recomputed on encode". -/
def encodeFrame (f : Frame) : Option (List Byte) :=
  if f.lengthByte > MAX_LEN then none
  else some (SYNC :: (f.body ++ [checksumOf f.body]).flatMap escape)

/-- The errors of Decode (R115). -/
inductive DecodeError where
  | framing (reason : FramingReason)
  | truncated
  | checksumMismatch (nodeAddress : Byte)
deriving DecidableEq, Repr

/-- `Unescape` of the bytes after the SYNC (R114). `esc` says that the byte before was an unconsumed MARK. -/
def unescape (esc : Bool) : List Byte → Except DecodeError (List Byte)
  | [] => if esc then .error .truncated else .ok []
  | b :: rest =>
    if b = SYNC then .error (.framing .rawSync)
    else if esc then
      match unescape false rest with
      | .ok u => .ok ((b + 1) :: u)
      | .error e => .error e
    else if b = MARK then unescape true rest
    else
      match unescape false rest with
      | .ok u => .ok (b :: u)
      | .error e => .error e

/-- The checks of R115 on the unescaped bytes after the SYNC, in the order of R116. -/
def parseFrame (expectStatus : Bool) : List Byte → Except DecodeError Frame
  | addr :: len :: rest =>
    if len.toNat > MAX_LEN then .error (.framing .badLength)
    else if len.toNat < expectStatus.toNat then .error (.framing .badLength)
    else if rest.length < len.toNat + 1 then .error .truncated
    else if rest.length > len.toNat + 1 then .error (.framing .trailing)
    else if checksumOf (addr :: len :: rest.take len.toNat) ≠ rest.getD len.toNat 0 then
      .error (.checksumMismatch addr)
    else
      .ok { nodeAddress := addr
            statusCode := if expectStatus then rest.head? else none
            payload := (rest.take len.toNat).drop expectStatus.toNat
            checksum := rest.getD len.toNat 0 }
  | _ => .error .truncated

/-- `Decode(w, expect_status)` (R115). -/
def decodeFrame (w : List Byte) (expectStatus : Bool) : Except DecodeError Frame :=
  match w with
  | [] => .error .truncated
  | b :: rest =>
    if b ≠ SYNC then .error (.framing .badSync)
    else
      match unescape false rest with
      | .error e => .error e
      | .ok u => parseFrame expectStatus u

end Sys2Proof.Machine
end

