-- ==== Sys2Proof/Machine/Flags.lean ====
section
/-! DEFINITION. The flag-like state of a frame's interpretation (10_state.md R45): the frame status and its codes (30_encoding.md
R89), and the flags that end a walk. -/

namespace Sys2Proof.Machine

/-- `code(fstatus)` (R89). -/
def Status.code : Status → Byte
  | .normal => 0x01
  | .unknownCommand => 0x02
  | .checksumError => 0x03
  | .overflow => 0x04

/-- The walk stops with no reply (41_interpreter.md R150, R151, R162). -/
def Walk.quiet (w : Walk) : Walk := { w with suppress := true, stop := true }

/-- The response would not fit (R145). -/
def Walk.overflow (w : Walk) : Walk := { w with fstatus := .overflow, stop := true }

/-- An unrecognised code (R163). -/
def Walk.unknown (w : Walk) : Walk := { w with fstatus := .unknownCommand, stop := true }

/-- `Short()`: the argument bytes run past the payload; report DataError and stop (R144). -/
def Walk.short (reports : ReportCodes) (w : Walk) : Walk :=
  if w.resp.length + 1 > MAX_RESP then w.overflow
  else { w with resp := w.resp ++ [reports.dataError], stop := true }

/-- The walk goes on to the next command: `pos` or `stop` decide (R143). -/
def Walk.running (w : Walk) : Bool := decide (w.pos < w.payload.length) && !w.stop

/-- A reply is warranted (R146). -/
def Walk.warranted (w : Walk) : Bool := !(w.resp == [] && w.fstatus == .normal)

end Sys2Proof.Machine
end

