-- ==== Sys2Proof/Machine/Operands.lean ====
section
/-! DEFINITION. How operands and response bytes are built: BCD (00_scope.md R13), feature codes and limits (30_encoding.md R91,
41_interpreter.md R148), the coin slot word (30_encoding.md R93), buffer reads and writes (00_scope.md R12). -/

namespace Sys2Proof.Machine

/-- `BCD(v)`, defined for `v <= 99` (R13); above that a free value (log entry 7). -/
def bcd (v : Nat) : Byte :=
  if v ≤ 99 then BitVec.ofNat 8 (((v / 10) <<< 4) ||| (v % 10)) else Config.bcdUndefined v

/-- `unBCD(b)`, defined only when both nibbles are at most 9 (R13). -/
def unBcd (b : Byte) : Option Nat :=
  if bcdByteOk b then some (10 * (b.toNat / 16) + b.toNat % 16) else none

/-- The ordinals of R91. PRESUMED but for End (log entry 14). -/
def featureOrdinal : FeatureType → Nat
  | .end_ => 0
  | .switch => 1
  | .coin => 2
  | .analog => 3
  | .rotary => 4
  | .keycode => 5
  | .screen => 6
  | .misc => 7
  | .card => 10
  | .medal => 11
  | .generalOutput => 12
  | .analogOutput => 13
  | .character => 14
  | .backup => 15

/-- The wire byte of a feature type: `BCD(ordinal)` (R91). -/
def featureCode (t : FeatureType) : Byte := bcd (featureOrdinal t)

/-- The feature types that may stand in a feature list, all but End. -/
def realFeatureTypes : List FeatureType :=
  [.switch, .coin, .analog, .rotary, .keycode, .screen, .misc, .card, .medal, .generalOutput, .analogOutput,
   .character, .backup]

/-- The feature type whose wire byte is `t`, if any; End is not among them (42_link_manager.md R194). -/
def featureOfCode (t : Byte) : Option FeatureType := realFeatureTypes.find? (fun f => featureCode f == t)

/-- One feature on the wire: type and parameters, BCD-encoded (R94). -/
def featureBytes (g : Feature) : List Byte :=
  [featureCode g.featureType, bcd g.p1.toNat, bcd g.p2.toNat, bcd g.p3.toNat]

/-- The feature list on the wire, closed by one End byte (R94). -/
def featureListBytes (fs : List Feature) : List Byte := fs.flatMap featureBytes ++ [0x00]

/-- The first declared feature of a type (R148). -/
def firstFeature (c : DevConfig) (t : FeatureType) : Option Feature :=
  c.features.find? (fun g => g.featureType == t)

/-- `Limit(T, 1)`: parameter 1 of the first feature of the type, or 0 (R148). -/
def limit1 (c : DevConfig) (t : FeatureType) : Nat :=
  match firstFeature c t with
  | some g => g.p1.toNat
  | none => 0

/-- `Limit(T, 2)`. -/
def limit2 (c : DevConfig) (t : FeatureType) : Nat :=
  match firstFeature c t with
  | some g => g.p2.toNat
  | none => 0

/-- `ceil(Limit(GeneralOutput, 1) / 8)`: the output bytes the declared bit-width needs (R161). -/
def outputByteLimit (c : DevConfig) : Nat := (limit1 c .generalOutput + 7) / 8

/-- The condition codes of R93. PRESUMED but for Normal (log entry 14). -/
def conditionCode : CoinCondition → Byte
  | .normal => 0
  | .jam => 1
  | .noCounter => 2
  | .busy => 3

/-- The READCOIN slot word, high byte first (R93). -/
def coinWord (cond : CoinCondition) (counter : U32) : List Byte :=
  let v := counter &&& 0x3FFF
  [(conditionCode cond <<< 6) ||| (v >>> 8).setWidth 8, v.setWidth 8]

/-- The slot words of the first `n` slots, in order (41_interpreter.md R158). -/
def coinWords (d : Device) (n : Nat) : List Byte :=
  ((d.coinCondition.zip d.coinSlots).take n).flatMap (fun p => coinWord p.1 p.2)

/-- A counter increased by an amount, saturating at 0xFFFFFFFF (R159). -/
def coinIncrease (counter : U32) (amount : U16) : U32 :=
  BitVec.ofNat 32 (min (counter.toNat + amount.toNat) 0xFFFFFFFF)

/-- A counter decreased by an amount, clamped at 0 (R160). -/
def coinDecrease (counter : U32) (amount : U16) : U32 :=
  if amount.toNat ≤ counter.toNat then counter - amount.setWidth 32 else 0

/-- Wire slot `s` is internal index `s - 1` (20_memory.md R64). -/
def slotIndex (s : Byte) : Nat := s.toNat - 1

/-- `MemRead(buf, i, n)`, for `i + n <= size(buf)` (00_scope.md R12). Every caller checks the bound first. -/
def memRead (buf : List Byte) (i n : Nat) : List Byte := (buf.drop i).take n

/-- `MemWrite(buf, i, n, v)` with `n` the length of `v`, for `i + n <= size(buf)` (00_scope.md R12). Every caller checks
the bound first. -/
def memWrite (buf : List Byte) (i : Nat) (v : List Byte) : List Byte :=
  buf.take i ++ v ++ buf.drop (i + v.length)

/-- The switch bytes of a READSWITCH: player by player, `b` bytes each, at index `b * p` (20_memory.md R63). -/
def switchBytes (buf : List Byte) (players bytesPer : Nat) : List Byte :=
  (List.range players).flatMap (fun p => memRead buf (bytesPer * p) bytesPer)

end Sys2Proof.Machine
end

