-- ==== Sys2Proof/Machine/Ops.lean ====
section
/-! DEFINITION. The shared operations: the helper procedures of 41_interpreter.md section 2, DeviceReset, the sense lines
and Send over the bus. Aborting a frame for Misconfiguration (`abortFrame`) is the block's one exception-like operation;
nothing returns from it (60_exceptions.md R231). -/

namespace Sys2Proof.Machine

/-! ## The chain and its sense lines -/

/-- The electrical level of a sense output (00_scope.md R8, `SENSE_POLARITY`). -/
def senseLevel (p : SensePolarity) (asserted : Bool) : Bool :=
  match p with
  | .activeHigh => asserted
  | .activeLow => !asserted

/-- What an input reads from a level, under the same polarity. -/
def senseRead (p : SensePolarity) (level : Bool) : Bool :=
  match p with
  | .activeHigh => level
  | .activeLow => !level

/-- `downstream_pending(d_i)`: the next board down the chain is present and unaddressed (60_exceptions.md R230). -/
def downstreamPending (devices : List Device) (i : Nat) : Bool :=
  match devices[i + 1]? with
  | some d => !d.senseOut
  | none => false

/-- `host_sense`: the nearest board is present and unaddressed (R230). -/
def nearestPending (devices : List Device) : Bool :=
  match devices[0]? with
  | some d => !d.senseOut
  | none => false

/-- `SenseIn()` of board `i` (R227). -/
def State.senseIn (s : State) (i : Nat) : Bool :=
  senseRead s.params.sensePolarity (senseLevel s.params.sensePolarity (downstreamPending s.devices i))

/-- `HostSense()` (R227). -/
def State.hostSense (s : State) : Bool :=
  senseRead s.params.sensePolarity (senseLevel s.params.sensePolarity (nearestPending s.devices))

/-! ## DeviceReset -/

/-- `DeviceReset()` (70_reset_and_hazards.md R240). The configuration, the buffer sizes, `misconfigFault` and the Receiver
are not changed. -/
def deviceReset (d : Device) : Device :=
  { d with
    nodeId := ADDR_UNASSIGNED
    senseOut := false
    systemSwitches := 0
    switches := List.replicate d.switches.length 0
    coinSlots := List.replicate d.coinSlots.length 0
    coinCondition := List.replicate d.coinCondition.length .normal
    outputSlots := List.replicate d.outputSlots.length 0
    analog := List.replicate d.analog.length 0
    lastSent := none }

/-! ## Running one command -/

/-- What a command reads besides the working registers and its board: the parameters, and `SenseIn()`. -/
structure CmdEnv where
  params : Params
  senseIn : Bool
deriving DecidableEq, Repr

/-- The bus with the working registers `w` and the interpreting board `d` written back. -/
def State.putWalk (s : State) (w : Walk) (d : Device) : State :=
  { s with walk := some w, devices := s.devices.set w.dev d }

/-- `Commit(r, n, E)`: append the response, move the cursor past the command, apply the effect (`d'` is the board after
it), unless the response does not fit (41_interpreter.md R145). -/
def commit (r : List Byte) (n : Nat) (w : Walk) (d d' : Device) : Walk × Device :=
  if w.resp.length + r.length > MAX_RESP then (w.overflow, d)
  else ({ w with resp := w.resp ++ r, pos := w.pos + 1 + n }, d')

/-- `Abort()`: end the frame for Misconfiguration (R149). The fault flag is set, no reply is sent, nothing is rolled
back. -/
def abortFrame (w : Walk) (d : Device) : Walk × Device := (w.quiet, { d with misconfigFault := true })

/-- Run a command's body on the working registers and the interpreting board (R143). Without a frame there are no working
registers (10_state.md R20), and without the board no state to act on. -/
def runCommand (s : State) (body : CmdEnv → Walk → Device → Walk × Device) :
    Host.Outcome State Fault Refusal :=
  match s.walk with
  | none => .refused .noFrame
  | some w =>
    match s.devices[w.dev]? with
    | none => .refused .noBoard
    | some d =>
      let r := body ⟨s.params, s.senseIn w.dev⟩ w d
      .next (s.putWalk r.1 r.2)

/-! ## Send over the bus (60_exceptions.md R226, R228) -/

/-- What each board other than the sender receives: `received[j]` where the oracle changed it, else the bytes sent. -/
def deliveries (boards : Nat) (sender : Agent) (w : List Byte) (received : List (List Byte)) :
    List (Nat × Byte) :=
  (List.range boards).flatMap fun j =>
    if sender = .device j then [] else ((received[j]?).getD w).map (fun b => (j, b))

/-- `Send(w)`: the transport takes the bytes and every other board will receive them in order, or it fails with WriteError
and nothing is sent. The Bool says that it succeeded. The spec says that nothing is sent of a board's failed Send only
(60_exceptions.md R219, 92_eei_decisions.md D53); of the host's it is DESIGN CHOICE (log entry 34). -/
def transmit (sender : Agent) (w : List Byte) (s : State) : Bool × State :=
  match s.oracle.sends with
  | [] => (true, { s with line := s.line ++ deliveries s.devices.length sender w [] })
  | c :: rest =>
    let s := { s with oracle := { s.oracle with sends := rest } }
    match c with
    | .ok => (true, { s with line := s.line ++ deliveries s.devices.length sender w [] })
    | .writeError => (false, s)
    | .altered rs => (true, { s with line := s.line ++ deliveries s.devices.length sender w rs })

/-- A board's `Send(w)`: the host's transport receives the bytes too (R228). -/
def deviceSend (i : Nat) (w : List Byte) (s : State) : Bool × State :=
  match transmit (.device i) w s with
  | (true, s') => (true, { s' with replies := s'.replies ++ [w] })
  | (false, s') => (false, s')

/-- The bus with board `i` changed by `f`. -/
def State.modifyDevice (s : State) (i : Nat) (f : Device → Device) : State :=
  { s with devices := s.devices.modify i f }

/-- Send a reply frame to the host and keep it as `dev_last_sent`; a failed write keeps nothing
(41_interpreter.md R141, R146, 60_exceptions.md R219). -/
def sendReply (i : Nat) (f : Frame) (s : State) : Host.Outcome State Fault Refusal :=
  match encodeFrame f with
  | none => .refused .oversize
  | some w =>
    match deviceSend i w s with
    | (true, s') => .next (s'.modifyDevice i (fun d => { d with lastSent := some w }))
    | (false, s') => .next s'

/-- `Finish()`: the reply, if one is warranted, after the walk (R146). The working registers end here (10_state.md R21). -/
def finishFrame (w : Walk) (s : State) : Host.Outcome State Fault Refusal :=
  let s := { s with walk := none }
  if w.resend then
    match s.devices[w.dev]? with
    | none => .refused .noBoard
    | some d =>
      match d.lastSent with
      | none => .next s
      | some bytes => .next (deviceSend w.dev bytes s).2
  else if w.suppress then .next s
  else if w.warranted then sendReply w.dev (Frame.make ADDR_HOST (some w.fstatus.code) w.resp) s
  else .next s

end Sys2Proof.Machine
end

