-- ==== Sys2Proof/Machine/Receiver.lean ====
section
/-! DEFINITION. The Receiver: the byte-serial form of Decode (40_codec.md R118 to R123). -/

namespace Sys2Proof.Machine

/-- What a Receiver emits to its engine. -/
inductive RxEvent where
  | frame (f : Frame)
  | checksumMismatch (addr : Byte)
  | framingError (reason : FramingReason)
deriving DecidableEq, Repr

/-- The Receiver reset state (70_reset_and_hazards.md R243). `addr` and `len` are not named there and stay. -/
def Receiver.reset (r : Receiver) : Receiver :=
  { r with phase := .idle, esc := false, payload := [], status := none, sum := 0 }

/-- A SYNC byte starts a new frame in any phase (R119). -/
def Receiver.startFrame (r : Receiver) : Receiver × Option RxEvent :=
  ({ r with phase := .addr, esc := false, sum := 0, payload := [], status := none },
   if r.phase = .idle then none else some (.framingError .rawSync))

/-- The field value `v` stored by phase (R121, R122). In `idle` no rule stores a value. -/
def Receiver.store (r : Receiver) (v : Byte) : Receiver × Option RxEvent :=
  match r.phase with
  | .idle => (r, none)
  | .addr => ({ r with addr := v, sum := v, phase := .len }, none)
  | .len =>
    if v.toNat > MAX_LEN ∨ v.toNat < r.expectStatus.toNat then
      ({ r with phase := .idle }, some (.framingError .badLength))
    else
      ({ r with len := v, sum := r.sum + v,
                phase := if r.expectStatus then .status else if v.toNat > 0 then .payload else .sum }, none)
  | .status =>
    ({ r with status := some v, sum := r.sum + v,
              phase := if r.len.toNat > 1 then .payload else .sum }, none)
  | .payload =>
    ({ r with payload := r.payload ++ [v], sum := r.sum + v,
              phase := if r.payload.length + 1 = r.len.toNat - r.expectStatus.toNat then .sum else .payload },
     none)
  | .sum =>
    ({ r with phase := .idle },
     some (if v = r.sum then .frame ⟨r.addr, r.status, r.payload, v⟩ else .checksumMismatch r.addr))

/-- One Receiver step: one wire byte (R118 to R122). -/
def Receiver.step (r : Receiver) (b : Byte) : Receiver × Option RxEvent :=
  if b = SYNC then r.startFrame
  else if r.phase = .idle then (r, none)
  else if r.esc then { r with esc := false }.store (b + 1)
  else if b = MARK then ({ r with esc := true }, none)
  else r.store b

/-- Feed bytes, one per step, until the first event; the bytes after it are discarded (42_link_manager.md R183). -/
def Receiver.feed (r : Receiver) : List Byte → Receiver × Option RxEvent
  | [] => (r, none)
  | b :: rest =>
    match r.step b with
    | (r', some e) => (r', some e)
    | (r', none) => r'.feed rest

end Sys2Proof.Machine
end

