-- ==== Sys2Proof/Machine/Link.lean ====
section
/-! DEFINITION. The host's Link Manager: Open, Close, Reset, Exchange, ExchangeRetry, Enumerate, Query, Connect and the senders
(42_link_manager.md). An operation that calls another leaves itself on `HostEngine.tasks`; `resume` gives it the result. -/

namespace Sys2Proof.Machine

/-! ## The frames the host builds (R180, R181, R187, R192, R193, R197) -/

def resetFrame (c : CodeTable) : Frame := Frame.make ADDR_BCAST none [c.reset, RESET_ARG]

def setaddrFrame (c : CodeTable) (a : Byte) : Frame := Frame.make ADDR_BCAST none [c.setaddr, a]

def identFrame (c : CodeTable) (n : Byte) : Frame := Frame.make n none [c.ioident]

def infoFrame (c : CodeTable) (n : Byte) : Frame :=
  Frame.make n none [c.cmdrev, c.jvsrev, c.comver, c.featchk]

/-- An `id` a sender may address (92_eei_decisions.md D52). -/
def senderIdOk (id : Byte) : Bool :=
  decide (DEV_ADDR_MIN.toNat ≤ id.toNat) && decide (id.toNat ≤ DEV_ADDR_MAX.toNat)

/-- The one frame a sender builds, or nothing when its parameters are invalid (R197). The payload of `writeAnalog` is the
caller's: its operands are an open parameter (log entry 15). -/
def senderFrame (p : Params) : Sender → Option Frame
  | .readSwitches id pl b =>
    if senderIdOk id ∧ pl.toNat > 0 ∧ b.toNat > 0 then some (Frame.make id none [p.codes.readswitch, pl, b])
    else none
  | .readCoins id n =>
    if senderIdOk id ∧ n.toNat > 0 then some (Frame.make id none [p.codes.readcoin, n]) else none
  | .increaseCoin id slot a =>
    if senderIdOk id ∧ slot.toNat > 0 ∧ a.toNat > 0 then
      some (Frame.make id none [p.codes.coinincrease, slot, amountHi a, amountLo a])
    else none
  | .decreaseCoin id slot a =>
    if senderIdOk id ∧ slot.toNat > 0 ∧ a.toNat > 0 then
      some (Frame.make id none [p.codes.coindecrease, slot, amountHi a, amountLo a])
    else none
  | .writeOutputs id d =>
    if senderIdOk id ∧ 0 < d.length ∧ d.length ≤ 252 then
      some (Frame.make id none (p.codes.genericout1 :: BitVec.ofNat 8 d.length :: d))
    else none
  | .readAnalog id n =>
    if senderIdOk id ∧ n.toNat > 0 then some (Frame.make id none [p.analogReadCode, n]) else none
  | .writeAnalog id payload =>
    if senderIdOk id ∧ 0 < payload.length ∧ payload.length ≤ MAX_LEN then some (Frame.make id none payload)
    else none

/-! ## Returning, and starting an Exchange -/

/-- The operation the caller invoked ends with `r`. -/
def hostReturn (r : HostResult) (s : State) : State :=
  { s with host := { s.host with phase := .idle, tasks := [], result := some r } }

/-- Exchange, first step: encode, drop stale input, send, keep the frame, wait (R182). The checks are in the order of
60_exceptions.md R222: a refusal, Closed, WriteError. A WriteError clears `mismatch_pending`, as every end of an Exchange but
Closed does (10_state.md R41, 92_eei_decisions.md D33). -/
def startExchange (f : Frame) (tasks : List Task) (s : State) : Host.Outcome State Fault Refusal :=
  if f.statusCode.isSome then .refused .frameHasStatus
  else
    match encodeFrame f with
    | none => .refused .oversize
    | some w =>
      if s.host.linkOpen then
        match transmit .host w { s with host := { s.host with rx := s.host.rx.reset }, replies := [] } with
        | (true, s') =>
          .next { s' with host := { s'.host with lastSent := some f, phase := .waiting, tasks := tasks } }
        | (false, s') =>
          .next (hostReturn (.error .writeError) { s' with host := { s'.host with mismatchPending := false } })
      else .next (hostReturn (.error .closed) s)

/-- ExchangeRetry, its first Exchange (R186). -/
def startRetry (f : Frame) (tasks : List Task) (s : State) : Host.Outcome State Fault Refusal :=
  startExchange f (.retry f :: tasks) s

/-- The candidate address of Enumerate: `assigned_count + 1` (R187). -/
def candidate (s : State) : Byte := s.host.assignedCount + 1

/-- Enumerate's Exchange of one iteration (R187). -/
def startIteration (iter err : Nat) (tasks : List Task) (s : State) : Host.Outcome State Fault Refusal :=
  startExchange (setaddrFrame s.params.codes (candidate s)) (.enumerate iter err :: tasks) s

/-- Whether Enumerate returns before iteration `iter`: the loop is over, or the sense signal is de-asserted (R187), or 15
addresses are given, so that `assigned_count` stays in 0..15 (R189, 10_state.md R38). The last is DEDUCED (log entry 17). -/
def enumerateStops (iter : Nat) (s : State) : Bool :=
  decide (iter > MAX_BOARDS) || decide (s.host.assignedCount.toNat ≥ MAX_BOARDS) ||
    (s.host.senseMode != .off && decide (iter ≥ 2) && !s.hostSense)

/-- Enumerate, as the caller invokes it (R187). -/
def startEnumerate (s : State) : Host.Outcome State Fault Refusal :=
  if enumerateStops 1 s then .next (hostReturn (.count s.host.assignedCount) s) else startIteration 1 0 [] s

/-- Query, its identity request (R192). -/
def startQuery (n : Byte) (tasks : List Task) (s : State) : Host.Outcome State Fault Refusal :=
  startRetry (identFrame s.params.codes n) (.queryIdent n :: tasks) s

/-! ## Reading replies -/

/-- `Success(r)` (R188). -/
def replySuccess (r : Frame) : Bool :=
  r.statusCode == some STATUS_NORMAL && r.payload.head? == some REPORT_NORMAL

/-- The identity in a reply: up to the first 0x00, or to the end (R192). -/
def replyIdentity (payload : List Byte) : List Byte := (payload.drop 1).takeWhile (fun b => b != 0x00)

/-- The feature list, up to the mandatory End byte; parameters kept raw (R194). Nothing when it is malformed. -/
def parseFeatures : List Byte → Option (List Feature)
  | [] => none
  | t :: rest =>
    if t = 0x00 then some []
    else
      match rest with
      | p1 :: p2 :: p3 :: more =>
        match featureOfCode t, parseFeatures more with
        | some ft, some fs => some (⟨ft, p1, p2, p3⟩ :: fs)
        | _, _ => none
      | _ => none

/-- The board's record from its identity and the reply to the version request (R193 to R195). -/
def parseInfo (node : Byte) (identity : List Byte) (r : Frame) : Option BoardInfo :=
  match r.payload with
  | r0 :: cmd :: r2 :: jvs :: r4 :: comm :: r6 :: rest =>
    if r.statusCode = some STATUS_NORMAL ∧ r0 = REPORT_NORMAL ∧ r2 = REPORT_NORMAL ∧ r4 = REPORT_NORMAL ∧
        r6 = REPORT_NORMAL then
      match parseFeatures rest with
      | some fs => some ⟨node, identity, cmd, jvs, comm, fs⟩
      | none => none
    else none
  | _ => none

/-- `ls.directory[n] <- b` (R195), keeping the node ids strictly rising. -/
def directoryInsert (n : Byte) (b : BoardInfo) : List (Byte × BoardInfo) → List (Byte × BoardInfo)
  | [] => [(n, b)]
  | (m, c) :: rest =>
    if n.toNat < m.toNat then (n, b) :: (m, c) :: rest
    else if n = m then (n, b) :: rest
    else (m, c) :: directoryInsert n b rest

/-- `ls.directory[n]`. -/
def directoryGet (n : Byte) (dir : List (Byte × BoardInfo)) : Option BoardInfo :=
  (dir.find? (fun e => e.1 == n)).map Prod.snd

/-! ## Giving a result to the operation that waits for it -/

/-- Outcomes of Exchange that Enumerate catches and counts as a failed iteration (R187). -/
def enumerateCatches : HostResult → Bool
  | .reply _ => true
  | .resent => true
  | .error .timeout => true
  | .error .noBytes => true
  | .error (.framing _) => true
  | .error (.checksumMismatch _) => true
  | .error .overflow => true
  | _ => false

/-- An outcome of Exchange that completes an iteration of Enumerate (R187, R188). -/
def enumerateSucceeds : HostResult → Bool
  | .reply f => replySuccess f
  | _ => false

/-- The innermost operation of `tasks` gets the result `r`; with none left, the caller does. -/
def resume : List Task → HostResult → State → Host.Outcome State Fault Refusal
  | [], r, s => .next (hostReturn r s)
  | .retry f :: ts, r, s =>
    -- R186
    if r = .resent then startExchange f ts s else resume ts r s
  | .enumerate iter err :: ts, r, s =>
    -- R187, R190
    if enumerateSucceeds r then
      let s := { s with host := { s.host with assignedCount := candidate s } }
      if s.host.senseMode = .off then resume ts (.count s.host.assignedCount) s
      else if enumerateStops (iter + 1) s then resume ts (.count s.host.assignedCount) s
      else startIteration (iter + 1) 0 ts s
    else if enumerateCatches r then
      if err + 1 = MAX_CONSEC_ERR then resume ts (.count (s.host.assignedCount + ENUM_FAIL_OFFSET)) s
      else if enumerateStops (iter + 1) s then resume ts (.count s.host.assignedCount) s
      else startIteration (iter + 1) (err + 1) ts s
    else resume ts r s
  | .queryIdent n :: ts, r, s =>
    -- R192
    match r with
    | .reply f =>
      if replySuccess f then
        startRetry (infoFrame s.params.codes n) (.queryInfo n (replyIdentity f.payload) :: ts) s
      else resume ts (.error (.framing .malformedReply)) s
    | .error e => resume ts (.error e) s
    | _ => resume ts (.error (.framing .malformedReply)) s
  | .queryInfo n identity :: ts, r, s =>
    -- R193 to R195
    match r with
    | .reply f =>
      match parseInfo n identity f with
      | some b =>
        resume ts (.board b)
          { s with host := { s.host with directory := directoryInsert n b s.host.directory } }
      | none => resume ts (.error (.framing .malformedReply)) s
    | .error e => resume ts (.error e) s
    | _ => resume ts (.error (.framing .malformedReply)) s
  | .connectReset :: ts, r, s =>
    -- R196; Reset has set the count to 0
    match r with
    | .done => startIteration 1 0 (.connectEnum :: ts) s
    | _ => resume ts r s
  | .connectEnum :: ts, r, s =>
    match r with
    | .count c =>
      if c.toNat ≥ ENUM_FAIL_OFFSET.toNat then resume ts (.error (.enumeration c)) s
      else if c = 0 then resume ts (.count 0) s
      else startQuery 1 (.connectQuery 1 c :: ts) s
    | _ => resume ts r s
  | .connectQuery n total :: ts, r, s =>
    match r with
    | .board _ =>
      if n.toNat < total.toNat then startQuery (n + 1) (.connectQuery (n + 1) total :: ts) s
      else resume ts (.count total) s
    | _ => resume ts r s

/-! ## Reset -/

/-- Reset's first send (R181). -/
def startReset (tasks : List Task) (s : State) : Host.Outcome State Fault Refusal :=
  match encodeFrame (resetFrame s.params.codes) with
  | none => .refused .oversize
  | some w =>
    match transmit .host w s with
    | (true, s') => .next { s' with host := { s'.host with phase := .settle, tasks := tasks } }
    | (false, s') => .next (hostReturn (.error .writeError) s')

/-- Reset's second send, after the settle delay (R181). -/
def secondReset (s : State) : Host.Outcome State Fault Refusal :=
  match encodeFrame (resetFrame s.params.codes) with
  | none => .refused .oversize
  | some w =>
    match transmit .host w s with
    | (true, s') => .next { s' with host := { s'.host with phase := .resetDrain } }
    | (false, s') => .next (hostReturn (.error .writeError) s')

/-- What Reset clears in the session once both sends are done (R181). -/
def clearSession (s : State) : State :=
  { s with host := { s.host with assignedCount := 0, directory := [], lastSent := none, mismatchPending := false } }

/-- Reset clears the session and returns (R181). -/
def finishReset (s : State) : Host.Outcome State Fault Refusal := resume s.host.tasks .done (clearSession s)

/-! ## Exchange: wait and classify -/

/-- The bytes of the replies sent since the host last sent or read (60_exceptions.md R228): none, one reply, or a collision,
whose bytes are a free value (log entry 6). Replies are counted, not boards, and replies to different frames count together:
two replies of one board are a collision too. DESIGN CHOICE (log entry 33). -/
def composeReplies (s : State) : List Byte × State :=
  match s.replies with
  | [] => ([], s)
  | [r] => (r, { s with replies := [] })
  | _ => (Config.collisionBytes s.freeCount, { s with replies := [], freeCount := s.freeCount + 1 })

/-- The bytes `B` the transport has received once the bounded wait is over (R183, 60_exceptions.md R224). A late reply of
an earlier transaction comes before the replies to this one (log entry 11). Where a Close ends the wait that late bytes would
have landed in, no wait takes them here: they stay on their way until the next wait that ends. DESIGN CHOICE (log
entry 35). -/
def receiveReplies (s : State) : List Byte × State :=
  match composeReplies s with
  | (now, s) =>
    match s.oracle.waits with
    | [] => (s.inFlight ++ now, { s with inFlight := [] })
    | c :: rest =>
      let s := { s with oracle := { s.oracle with waits := rest } }
      match c with
      | .deliver => (s.inFlight ++ now, { s with inFlight := [] })
      | .late => (s.inFlight, { s with inFlight := now })
      | .lost => (s.inFlight, { s with inFlight := [] })
      | .altered b => (b, { s with inFlight := [] })

/-- An Exchange outcome that clears `mismatch_pending` (R183, R184). -/
def endExchange (r : HostResult) (s : State) : Host.Outcome State Fault Refusal :=
  resume s.host.tasks r { s with host := { s.host with mismatchPending := false } }

/-- The second checksum failure in a row is raised, with the address as parsed (R185, 60_exceptions.md R213). `none`: a board
reports the failure, and its reply does not tell the address it parsed, a free value. DESIGN CHOICE (log entry 32). -/
def raiseMismatch (address : Option Byte) (s : State) : Host.Outcome State Fault Refusal :=
  match address with
  | some a => endExchange (.error (.checksumMismatch a)) s
  | none =>
    endExchange (.error (.checksumMismatch (Config.mismatchAddress s.freeCount))) { s with freeCount := s.freeCount + 1 }

/-- The resend path, for a checksum failure on either side (R185), of a frame with this address where the host parsed it. A
failed write leaves `mismatch_pending` clear. -/
def resendPath (address : Option Byte) (s : State) : Host.Outcome State Fault Refusal :=
  if s.host.mismatchPending then raiseMismatch address s
  else
    match s.host.lastSent with
    | none => .refused .nothingToResend
    | some f =>
      match encodeFrame f with
      | none => .refused .oversize
      | some w =>
        match transmit .host w s with
        | (true, s') => .next { s' with host := { s'.host with mismatchPending := true, phase := .resentDrain } }
        | (false, s') => .next (hostReturn (.error .writeError) s')

/-- Exchange, third step: classify the Receiver event (R184). -/
def classify (e : RxEvent) (s : State) : Host.Outcome State Fault Refusal :=
  match e with
  | .frame r =>
    if r.statusCode = some (Status.code .checksumError) then resendPath none s
    else if r.statusCode = some (Status.code .overflow) then endExchange (.error .overflow) s
    else endExchange (.reply r) s
  | .checksumMismatch a => resendPath (some a) s
  | .framingError reason => endExchange (.error (.framing reason)) s

/-- Exchange, second step, on the bytes `B` (R183). -/
def hostReceive (b : List Byte) (s : State) : Host.Outcome State Fault Refusal :=
  if b.length = 0 then endExchange (.error .noBytes) s
  else if b.length < MIN_REPLY_BYTES then endExchange (.error .timeout) s
  else
    match s.host.rx.feed b with
    | (rx, none) => endExchange (.error .timeout) { s with host := { s.host with rx := rx } }
    | (rx, some e) => classify e { s with host := { s.host with rx := rx } }

/-- The end of the Exchange wait. -/
def endWait (s : State) : Host.Outcome State Fault Refusal :=
  match receiveReplies s with
  | (b, s') => hostReceive b s'

/-- The end of a resend's transaction: its replies are dropped and Exchange returns `Resent` (R185,
60_exceptions.md R229). -/
def endResent (s : State) : Host.Outcome State Fault Refusal :=
  match receiveReplies s with
  | (_, s') => resume s'.host.tasks .resent s'

/-! ## Link lifetime (R198) -/

/-- Open: the transport's `open` succeeds, and the session gets its initial values, or raises OpenError. Late reply bytes
still on their way from before it (`inFlight`) stay: they count as bytes that arrive after the next Exchange's Send
(70_reset_and_hazards.md R249), which its start does not drop (R243, R255). DESIGN CHOICE (log entry 35). -/
def openLink (senseMode : SenseMode) (s : State) : Host.Outcome State Fault Refusal :=
  if s.host.linkOpen then .refused .linkAlreadyOpen
  else
    let opened := s.oracle.opens.head?.getD true
    let s := { s with oracle := { s.oracle with opens := s.oracle.opens.tail } }
    if opened then
      .next (hostReturn .done
        { s with host := { s.host with senseMode := senseMode, linkOpen := true, assignedCount := 0,
                                       lastSent := none, mismatchPending := false, directory := [] } })
    else .next (hostReturn (.error .openError) s)

/-- Close: at any point; an operation in progress ends with Closed (70_reset_and_hazards.md R255). Late reply bytes still on
their way (`inFlight`) when it ends a wait stay on their way. DESIGN CHOICE (log entry 35). -/
def closeLink (s : State) : Host.Outcome State Fault Refusal :=
  let r := if s.host.phase = .idle then HostResult.done else .error .closed
  .next (hostReturn r { s with host := { s.host with linkOpen := false } })

/-- A second operation while one runs is refused (R199). -/
def whenIdle (s : State) (r : Host.Outcome State Fault Refusal) : Host.Outcome State Fault Refusal :=
  if s.host.phase = .idle then r else .refused .operationRunning

/-- An operation on a closed link raises Closed and changes nothing (R198, 60_exceptions.md R220). -/
def onLink (s : State) (r : Host.Outcome State Fault Refusal) : Host.Outcome State Fault Refusal :=
  if s.host.linkOpen then r else .next (hostReturn (.error .closed) s)

/-- A sender: one frame through ExchangeRetry, or a no-op (R197). -/
def startSender (sender : Sender) (s : State) : Host.Outcome State Fault Refusal :=
  match senderFrame s.params sender with
  | none => .next (hostReturn .noOp s)
  | some f => startRetry f [] s

/-- A caller invokes a host operation (R198, R199). Only Close is allowed while another runs. -/
def hostCall (op : HostOp) (s : State) : Host.Outcome State Fault Refusal :=
  match op with
  | .close => closeLink s
  | .open_ _ _ senseMode => whenIdle s (openLink senseMode s)
  | .exchange f => whenIdle s (startExchange f [] s)
  | .exchangeRetry f => whenIdle s (startRetry f [] s)
  | .reset => whenIdle s (onLink s (startReset [] s))
  | .enumerate => whenIdle s (onLink s (startEnumerate s))
  | .query n => whenIdle s (onLink s (startQuery n [] s))
  | .connect => whenIdle s (onLink s (startReset [.connectReset] s))
  | .send sender => whenIdle s (onLink s (startSender sender s))

end Sys2Proof.Machine
end

