-- ==== Sys2Proof/Machine/Bus.lean ====
section
/-! DEFINITION. The bus between frames: byte delivery to the boards, the host's progress, and the outside world's inputs
(60_exceptions.md R223, R228, R229). -/

namespace Sys2Proof.Machine

/-! ## A board's reception (41_interpreter.md R140 to R142) -/

/-- The address filter (R140). -/
def accepts (d : Device) (f : Frame) : Bool := f.nodeAddress == d.nodeId || f.nodeAddress == ADDR_BCAST

/-- What a Receiver event does at board `i` (R140 to R142). -/
def deviceEvent (i : Nat) (d : Device) (e : RxEvent) (s : State) : Host.Outcome State Fault Refusal :=
  match e with
  | .frame f => if accepts d f then .next { s with walk := some (Walk.start i f.payload) } else .next s
  | .checksumMismatch a =>
    if a = d.nodeId then sendReply i (Frame.make ADDR_HOST (some (Status.code .checksumError)) []) s
    else .next s
  | .framingError _ => .next s

/-- A byte arrives at board `i`: one Receiver step, and its event. -/
def deviceByte (i : Nat) (b : Byte) (s : State) : Host.Outcome State Fault Refusal :=
  match s.devices[i]? with
  | none => .refused .noBoard
  | some d =>
    let s := { s with devices := s.devices.set i { d with rx := (d.rx.step b).1 } }
    match (d.rx.step b).2 with
    | none => .next s
    | some e => deviceEvent i d e s

/-! ## The agents' own steps -/

/-- Nothing is left to do: no frame, no byte on the line, no host operation. -/
def State.quiescent (s : State) : Bool := s.walk.isNone && s.line.isEmpty && s.host.phase == .idle

/-- One step of the agents: the next byte on the line, else the host's operation (R229). An idle bus stays as it is. -/
def agentStep (s : State) : Host.Outcome State Fault Refusal :=
  match s.line with
  | (i, b) :: rest => deviceByte i b { s with line := rest }
  | [] =>
    match s.host.phase with
    | .idle => .next s
    | .settle => secondReset s
    | .resetDrain => finishReset s
    | .waiting => endWait s
    | .resentDrain => endResent s

/-! ## Inputs (R223) -/

/-- One write of the input-polling task (10_state.md R29 to R34), or nothing where it lies outside the buffer. -/
def pollDevice (d : Device) : PollWrite → Option Device
  | .switches i data =>
    if i + data.length ≤ d.switches.length then some { d with switches := memWrite d.switches i data } else none
  | .systemSwitches v => some { d with systemSwitches := v }
  | .coinSlot i v =>
    if i < d.coinSlots.length then some { d with coinSlots := d.coinSlots.set i v } else none
  | .coinCondition i c =>
    if i < d.coinCondition.length then some { d with coinCondition := d.coinCondition.set i c } else none
  | .analog i v => if i < d.analog.length then some { d with analog := d.analog.set i v } else none

/-- A poll write at board `i`; without the lock it has no meaning (20_memory.md R70). -/
def pollInput (i : Nat) (locked : Bool) (write : PollWrite) (s : State) : Host.Outcome State Fault Refusal :=
  if locked then
    match s.devices[i]? with
    | none => .refused .noBoard
    | some d =>
      match pollDevice d write with
      | none => .refused .pollOutOfRange
      | some d' => .next { s with devices := s.devices.set i d' }
  else .refused .unsynchronisedWrite

/-- A caller invokes Interpret on an instance (41_interpreter.md R143, R147). On a board the call stands for the Receiver's
Frame event: only a verified frame passes (10_state.md R23, 40_codec.md R122), and through the address filter (R140).
DESIGN CHOICE (log entry 27). -/
def interpretCall (agent : Agent) (f : Frame) (s : State) : Host.Outcome State Fault Refusal :=
  match agent with
  | .host => .refused .interpretInHostRole
  | .device i =>
    match s.devices[i]? with
    | none => .refused .noBoard
    | some d => if f.verified then deviceEvent i d (.frame f) s else .refused .unverifiedFrame

/-- A board powers up: admission of its configuration, then the power-up state (70_reset_and_hazards.md R241,
10_state.md R24). -/
def powerUpInput (i : Nat) (cfg : DevConfig) (s : State) : Host.Outcome State Fault Refusal :=
  if cfg.wf then
    if i < s.devices.length then .next { s with devices := s.devices.set i (.powerUp cfg) }
    else if i = s.devices.length then .next { s with devices := s.devices ++ [.powerUp cfg] }
    else .refused .noBoard
  else .refused .illFormedConfig

/-- The address-loss event at board `i` (R223). -/
def addressLossInput (i : Nat) (s : State) : Host.Outcome State Fault Refusal :=
  match s.devices[i]? with
  | none => .refused .noBoard
  | some d => .next { s with devices := s.devices.set i (deviceReset d) }

/-- Take one input; `s` is the bus without it. -/
def takeInput (i : Input) (s : State) : Host.Outcome State Fault Refusal :=
  match i with
  | .tick => agentStep s
  | .drain => if s.quiescent then .next s else agentStep { s with inputs := .drain :: s.inputs }
  | .call .host op => hostCall op s
  | .call (.device _) _ => .refused .hostOpInDeviceRole
  | .interpret agent f => interpretCall agent f s
  | .byte dev b => deviceByte dev b s
  | .addressLoss dev => addressLossInput dev s
  | .poll dev locked write => pollInput dev locked write s
  | .powerUp dev cfg => powerUpInput dev cfg s

/-- One step while no frame is interpreted: the next input, else the agents' own progress. -/
def busStep (s : State) : Host.Outcome State Fault Refusal :=
  match s.inputs with
  | [] => agentStep s
  | i :: rest => takeInput i { s with inputs := rest }

end Sys2Proof.Machine
end

