-- ==== Sys2Proof/Machine/Control.lean ====
section
/-! DEFINITION. The control commands: RESET, SETADDR, DATARETRY (41_interpreter.md R150, R151, R162). -/

namespace Sys2Proof.Machine

/-- RESET: with the literal 0xD9, reset the board; without it, no effect. No reply either way, and the walk stops
(R150). -/
def execReset (literal : Option Byte) (s : State) : Host.Outcome State Fault Refusal :=
  runCommand s fun _ w d => (w.quiet, if literal = some RESET_ARG then deviceReset d else d)

/-- SETADDR: ignored by an addressed board, deferred while the downstream board waits, else claim the address (R151). -/
def execSetaddr (address : Option Byte) (s : State) : Host.Outcome State Fault Refusal :=
  runCommand s fun e w d =>
    match address with
    | none => (w.short e.params.reports, d)
    | some a =>
      if d.nodeId ≠ ADDR_UNASSIGNED then (w.quiet, d)
      else if d.cfg.senseWired ∧ e.senseIn then (w.quiet, d)
      else if a.toNat < DEV_ADDR_MIN.toNat ∨ a.toNat > DEV_ADDR_MAX.toNat then
        commit [e.params.reports.dataError] 1 w d d
      else commit [REPORT_NORMAL] 1 w d { d with nodeId := a, senseOut := true }

/-- DATARETRY: the reply is the last frame this board sent, sent again, or nothing when it sent none (R162). -/
def execDataretry (s : State) : Host.Outcome State Fault Refusal :=
  runCommand s fun _ w d =>
    match d.lastSent with
    | none => (w.quiet, d)
    | some _ => ({ w with stop := true, resend := true }, d)

end Sys2Proof.Machine
end

