-- ==== Sys2Proof/Machine/Identify.lean ====
section
/-! DEFINITION. The identification commands: IOIDENT, CMDREV, JVSREV, COMVER, FEATCHK (41_interpreter.md R152 to R156). -/

namespace Sys2Proof.Machine

/-- IOIDENT: Normal and the null-terminated identity (R152). -/
def execIoident (s : State) : Host.Outcome State Fault Refusal :=
  runCommand s fun _ w d => commit (REPORT_NORMAL :: d.cfg.identity ++ [0x00]) 0 w d d

/-- CMDREV: Normal and the command-format version, sent as configured (R153). -/
def execCmdrev (s : State) : Host.Outcome State Fault Refusal :=
  runCommand s fun _ w d => commit [REPORT_NORMAL, d.cfg.cmdVersion] 0 w d d

/-- JVSREV: Normal and the JVS version (R154). -/
def execJvsrev (s : State) : Host.Outcome State Fault Refusal :=
  runCommand s fun _ w d => commit [REPORT_NORMAL, d.cfg.jvsVersion] 0 w d d

/-- COMVER: Normal and the communication version (R155). -/
def execComver (s : State) : Host.Outcome State Fault Refusal :=
  runCommand s fun _ w d => commit [REPORT_NORMAL, d.cfg.commVersion] 0 w d d

/-- FEATCHK: Normal, the features in order, each BCD-encoded, and End (R156). -/
def execFeatchk (s : State) : Host.Outcome State Fault Refusal :=
  runCommand s fun _ w d => commit (REPORT_NORMAL :: featureListBytes d.cfg.features) 0 w d d

end Sys2Proof.Machine
end

