-- ==== Sys2Proof/Machine/Output.lean ====
section
/-! DEFINITION. The output command GENERICOUT1 (41_interpreter.md R161). -/

namespace Sys2Proof.Machine

/-- GENERICOUT1: copy the data bytes to the start of the output buffer (R161, 20_memory.md R65). On ParameterError the
data bytes are skipped. -/
def execGenericout1 (data : Option (List Byte)) (s : State) : Host.Outcome State Fault Refusal :=
  runCommand s fun e w d =>
    match data with
    | none => (w.short e.params.reports, d)
    | some bytes =>
      match d.cfg.outputCfg with
      | .unconfigured => abortFrame w d
      | .configured _ =>
        if bytes.length > outputByteLimit d.cfg then
          commit [e.params.reports.parameterError] (1 + bytes.length) w d d
        else if bytes.length > d.outputSlots.length then abortFrame w d
        else
          commit [REPORT_NORMAL] (1 + bytes.length) w d
            { d with outputSlots := memWrite d.outputSlots 0 bytes }

end Sys2Proof.Machine
end

