-- ==== Sys2Proof/Machine/SwitchCoin.lean ====
section
/-! DEFINITION. The switch and coin commands: READSWITCH, READCOIN, COININCREASE, COINDECREASE (41_interpreter.md R157 to
R160). Each checks in the order of R149: bytes present, buffer configured, limits, buffer large enough. -/

namespace Sys2Proof.Machine

/-- READSWITCH: Normal, the test/tilt byte, then the players' switch bytes (R157). -/
def execReadswitch (args : Option (Byte × Byte)) (s : State) : Host.Outcome State Fault Refusal :=
  runCommand s fun e w d =>
    match args with
    | none => (w.short e.params.reports, d)
    | some (pl, b) =>
      match d.cfg.switchCfg with
      | .unconfigured => abortFrame w d
      | .configured _ =>
        if pl.toNat > limit1 d.cfg .switch ∨ b.toNat > limit2 d.cfg .switch then
          commit [e.params.reports.parameterError] 2 w d d
        else if pl.toNat * b.toNat > d.switches.length then abortFrame w d
        else
          commit (REPORT_NORMAL :: d.systemSwitches :: switchBytes d.switches pl.toNat b.toNat) 2 w d d

/-- READCOIN: Normal, then each slot's word (R158). -/
def execReadcoin (count : Option Byte) (s : State) : Host.Outcome State Fault Refusal :=
  runCommand s fun e w d =>
    match count with
    | none => (w.short e.params.reports, d)
    | some n =>
      match d.cfg.coinCfg with
      | .unconfigured => abortFrame w d
      | .configured _ =>
        if n.toNat > limit1 d.cfg .coin then commit [e.params.reports.parameterError] 1 w d d
        else if n.toNat > d.coinSlots.length then abortFrame w d
        else commit (REPORT_NORMAL :: coinWords d n.toNat) 1 w d d

/-- The shared form of COININCREASE and COINDECREASE: a checked read-modify-write of one counter (R159, R160). -/
def updateCoin (change : U32 → U16 → U32) (args : Option (Byte × U16)) (e : CmdEnv) (w : Walk) (d : Device) :
    Walk × Device :=
  match args with
  | none => (w.short e.params.reports, d)
  | some (slot, amount) =>
    match d.cfg.coinCfg with
    | .unconfigured => abortFrame w d
    | .configured _ =>
      if slot.toNat < 1 ∨ slot.toNat > limit1 d.cfg .coin then
        commit [e.params.reports.parameterError] 3 w d d
      else if slot.toNat > d.coinSlots.length then abortFrame w d
      else
        commit [REPORT_NORMAL] 3 w d
          { d with coinSlots := d.coinSlots.modify (slotIndex slot) (fun v => change v amount) }

/-- COININCREASE: add to a counter, saturating (R159). -/
def execCoinincrease (args : Option (Byte × U16)) (s : State) : Host.Outcome State Fault Refusal :=
  runCommand s (updateCoin coinIncrease args)

/-- COINDECREASE: subtract from a counter, clamped at 0 (R160). -/
def execCoindecrease (args : Option (Byte × U16)) (s : State) : Host.Outcome State Fault Refusal :=
  runCommand s (updateCoin coinDecrease args)

end Sys2Proof.Machine
end

