-- ==== Sys2Proof/Machine/Dispatch.lean ====
section
/-! DEFINITION. One arm per command: the rule R143 runs for a recognised code. -/

namespace Sys2Proof.Machine

def exec (i : Instr) (s : State) : Host.Outcome State Fault Refusal :=
  match i with
  | .ioident => Sys2Proof.Machine.execIoident s
  | .cmdrev => Sys2Proof.Machine.execCmdrev s
  | .jvsrev => Sys2Proof.Machine.execJvsrev s
  | .comver => Sys2Proof.Machine.execComver s
  | .featchk => Sys2Proof.Machine.execFeatchk s
  | .readswitch args => Sys2Proof.Machine.execReadswitch args s
  | .readcoin count => Sys2Proof.Machine.execReadcoin count s
  | .dataretry => Sys2Proof.Machine.execDataretry s
  | .coindecrease args => Sys2Proof.Machine.execCoindecrease args s
  | .genericout1 data => Sys2Proof.Machine.execGenericout1 data s
  | .coinincrease args => Sys2Proof.Machine.execCoinincrease args s
  | .reset literal => Sys2Proof.Machine.execReset literal s
  | .setaddr address => Sys2Proof.Machine.execSetaddr address s

end Sys2Proof.Machine
end

