-- ==== Sys2Proof/Machine/Walk.lean ====
section
/-! DEFINITION. The walk over one frame's commands (41_interpreter.md R143): fetch at the cursor, run, finish. -/

namespace Sys2Proof.Machine

/-- The command at the cursor (10_state.md R22). -/
def fetch (w : Walk) (s : State) : Except Reject Instr := decode s.params.codes (w.payload.drop w.pos)

/-- An unrecognised code (R163). -/
def unrecognised (w : Walk) (s : State) : Host.Outcome State Fault Refusal :=
  .next { s with walk := some w.unknown }

/-- One step of the walk: the command at the cursor, or `Finish()` (R143). -/
def walkStep (w : Walk) (s : State) : Host.Outcome State Fault Refusal :=
  if w.running then
    match fetch w s with
    | .ok i => exec i s
    | .error _ => unrecognised w s
  else finishFrame w s

/-- The payload that holds exactly the instruction of a table word: its bytes, up to the longest a payload can hold, cut
after the instruction. -/
def tablePayload (codes : CodeTable) (nbits w : Nat) : List Byte :=
  match decode codes (tableWordBytes nbits w) with
  | .ok i => (tableWordBytes nbits w).take i.size
  | .error _ => (tableWordBytes nbits w).take 1

/-- A bus whose next step runs the instruction of a table word: a board interprets a frame with that one command. It is the
board that is interpreting, if one is, else the one next to the host (log entry 12). -/
def loadTableWord (s : State) (nbits w : Nat) : State :=
  let dev := match s.walk with
    | some v => v.dev
    | none => 0
  { s with walk := some (Walk.start dev (tablePayload s.params.codes nbits w)) }

end Sys2Proof.Machine
end

