-- ==== Sys2Proof/Machine/Step.lean ====
section
/-! DEFINITION. One step of the bus. While a frame is interpreted its board's lock is held and nothing else moves
(20_memory.md R70, 60_exceptions.md R223), so a whole frame is one atomic action seen from outside. -/

namespace Sys2Proof.Machine

/-- One step: a command of the frame being interpreted, or its Finish; else the bus. -/
def step (s : State) : Host.Outcome State Fault Refusal :=
  match s.walk with
  | some w => walkStep w s
  | none => busStep s

/-- The bus with a table word's instruction as the payload a board is about to interpret. -/
def State.withFetchWord (s : State) (nbits w : Nat) : State := loadTableWord s nbits w

end Sys2Proof.Machine
end

