-- ==== Sys2Proof/Safety.lean ====
section
/-! DEFINITION. What counts as a safe bus, in the terms the statements use: a board, a walk, a host and a bus in legal form,
and the words the statements share. -/

namespace Sys2Proof.Machine

/-! ## Wire form -/

/-- A sent frame: SYNC first and nowhere else (40_codec.md R126), at most 515 bytes (20_memory.md R76). -/
structure WireForm (w : List Byte) : Prop where
  head : w.head? = some SYNC
  unique : SYNC ∉ w.tail
  bound : w.length ≤ 515

/-! ## The Receiver -/

/-- The field bytes of the frame in progress that the running checksum covers (40_codec.md R121). -/
def Receiver.covered (r : Receiver) : List Byte :=
  match r.phase with
  | .idle => []
  | .addr => []
  | .len => [r.addr]
  | .status => [r.addr, r.len]
  | .payload => r.addr :: r.len :: (r.status.toList ++ r.payload)
  | .sum => r.addr :: r.len :: (r.status.toList ++ r.payload)

/-- A Receiver in legal form: the escape flag only inside a frame, the fields stored so far and no more, the running
checksum of what is stored (10_state.md R44, 40_codec.md R121). -/
structure Receiver.Wf (r : Receiver) (expectStatus : Bool) : Prop where
  role : r.expectStatus = expectStatus
  idleEsc : r.phase = .idle → r.esc = false
  bound : r.payload.length ≤ MAX_LEN
  early : r.phase = .addr ∨ r.phase = .len ∨ r.phase = .status → r.payload = [] ∧ r.status = none
  length : r.phase = .status ∨ r.phase = .payload ∨ r.phase = .sum →
    r.len.toNat ≤ MAX_LEN ∧ expectStatus.toNat ≤ r.len.toNat
  inStatus : r.phase = .status → expectStatus = true
  stored : r.phase = .payload ∨ r.phase = .sum → r.status.isSome = expectStatus
  inPayload : r.phase = .payload → r.payload.length + expectStatus.toNat < r.len.toNat
  inSum : r.phase = .sum → r.payload.length + expectStatus.toNat = r.len.toNat
  checksum : r.phase ≠ .idle → r.sum = checksumOf r.covered

/-! ## A board -/

/-- A board in legal form: an admitted configuration (10_state.md R24), buffers of the configured sizes (R30 to R34), an id
that is a board's or unassigned (R27), the sense output asserted exactly when addressed (R28), a last frame in wire form
(R35), a Receiver that expects no status (R44). -/
structure Device.Wf (d : Device) : Prop where
  cfg : d.cfg.wf = true
  switches : d.switches.length = d.cfg.switchCfg.size
  coinSlots : d.coinSlots.length = d.cfg.coinCfg.size
  coinCondition : d.coinCondition.length = d.cfg.coinCfg.size
  outputSlots : d.outputSlots.length = d.cfg.outputCfg.size
  analog : d.analog.length = d.cfg.analogCfg.size
  notHost : d.nodeId ≠ ADDR_HOST
  notBroadcast : d.nodeId ≠ ADDR_BCAST
  sense : d.senseOut = (d.nodeId != ADDR_UNASSIGNED)
  lastSent : ∀ w, d.lastSent = some w → WireForm w
  rx : d.rx.Wf false

/-! ## A walk -/

/-- Working registers in legal form, on a chain of `boards` boards (10_state.md R21, R22). -/
structure Walk.Wf (w : Walk) (boards : Nat) : Prop where
  dev : w.dev < boards
  payload : w.payload.length ≤ MAX_LEN
  pos : w.pos ≤ w.payload.length
  resp : w.resp.length ≤ MAX_RESP
  fstatus : w.fstatus ≠ .checksumError
  stopped : w.suppress = true ∨ w.resend = true ∨ w.fstatus ≠ .normal → w.stop = true

/-! ## The host -/

/-- The stacks of operations that a Query builds, alone or inside Connect (42_link_manager.md R192, R193, R196). -/
def QueryTasks : List Task → Prop
  | [] => True
  | [.queryIdent _] => True
  | [.queryInfo _ _] => True
  | [.queryIdent n, .connectQuery m total] =>
    n = m ∧ 1 ≤ m.toNat ∧ m.toNat ≤ total.toNat ∧ total.toNat ≤ MAX_BOARDS
  | [.queryInfo n _, .connectQuery m total] =>
    n = m ∧ 1 ≤ m.toNat ∧ m.toNat ≤ total.toNat ∧ total.toNat ≤ MAX_BOARDS
  | _ => False

/-- The stacks of operations that can wait for an Exchange (R186, R187, R192, R196), after `assigned` addresses were given:
Enumerate, alone or inside Connect, within its bounds and with an address left to give (R189, 10_state.md R43). -/
def LegalTasks (assigned : Byte) : List Task → Prop
  | .enumerate iter err :: ts =>
    1 ≤ iter ∧ iter ≤ MAX_BOARDS ∧ err < MAX_CONSEC_ERR ∧ assigned.toNat < MAX_BOARDS ∧ (ts = [] ∨ ts = [.connectEnum])
  | .retry f :: ts => f.statusCode = none ∧ QueryTasks ts
  | ts => QueryTasks ts

/-- A host in legal form: a count of at most 15 (10_state.md R38, 42_link_manager.md R189), a directory with rising ids
(R40), and the operation in progress, if any, at a place it can stand. -/
structure HostEngine.Wf (h : HostEngine) : Prop where
  rx : h.rx.Wf true
  count : h.assignedCount.toNat ≤ MAX_BOARDS
  directory : (h.directory.map (fun e => e.1.toNat)).Pairwise (· < ·)
  records : ∀ e ∈ h.directory, e.2.nodeId = e.1
  lastSent : ∀ f, h.lastSent = some f → f.statusCode = none ∧ f.payload.length ≤ MAX_LEN
  idle : h.phase = .idle → h.tasks = []
  busy : h.phase ≠ .idle → h.linkOpen = true
  sent : h.phase = .waiting ∨ h.phase = .resentDrain → h.lastSent.isSome = true
  pending : h.mismatchPending = true → h.lastSent.isSome = true
  resetting : h.phase = .settle ∨ h.phase = .resetDrain → h.tasks = [] ∨ h.tasks = [.connectReset]
  exchanging : h.phase = .waiting ∨ h.phase = .resentDrain → LegalTasks h.assignedCount h.tasks

/-! ## The bus -/

/-- A bus in legal form. -/
structure State.Inv (s : State) : Prop where
  codes : s.params.codes.wf = true
  host : s.host.Wf
  devices : ∀ d ∈ s.devices, d.Wf
  walk : ∀ w, s.walk = some w → w.Wf s.devices.length
  line : ∀ e ∈ s.line, e.1 < s.devices.length
  replies : ∀ r ∈ s.replies, WireForm r

/-! ## Words the statements share -/

/-- Board `d` interprets a frame with the working registers `w`. -/
structure Interpreting (s : State) (w : Walk) (d : Device) : Prop where
  walk : s.walk = some w
  board : s.devices[w.dev]? = some d

/-- No misconfiguration occurred on any board (60_exceptions.md R216). -/
def State.wellConfigured (s : State) : Prop := ∀ d ∈ s.devices, d.misconfigFault = false

/-- The wire bytes on the line that board `j` has still to receive, in order (60_exceptions.md R228). -/
def bytesFor (line : List (Nat × Byte)) (j : Nat) : List Byte := (line.filter (fun e => e.1 == j)).map Prod.snd

/-- Nothing but the host's operation moves next: no frame is interpreted, no input waits, no byte is on the line. -/
structure State.OnlyHost (s : State) : Prop where
  walk : s.walk = none
  inputs : s.inputs = []
  line : s.line = []

/-- The next step takes the input `i`. -/
structure State.Takes (s : State) (i : Input) (rest : List Input) : Prop where
  walk : s.walk = none
  inputs : s.inputs = i :: rest

/-- The next step gives the byte `b` to board `j`'s Receiver, and `u` is the bus without that byte: the head of the line, with
no input or after a schedule mark (log entry 9), or a byte that arrives from outside (60_exceptions.md R223). -/
inductive State.Hears (s : State) (j : Nat) (b : Byte) : State → Prop
  | line (l : List (Nat × Byte)) : s.walk = none → s.inputs = [] → s.line = (j, b) :: l →
    s.Hears j b { s with line := l }
  | tick (rest : List Input) (l : List (Nat × Byte)) : s.Takes .tick rest → s.line = (j, b) :: l →
    s.Hears j b { s with inputs := rest, line := l }
  | drain (rest : List Input) (l : List (Nat × Byte)) : s.Takes .drain rest → s.line = (j, b) :: l →
    s.Hears j b { s with line := l }
  | byte (rest : List Input) : s.Takes (.byte j b) rest → s.Hears j b { s with inputs := rest }

/-- A frame of exactly these bytes, `b` the field bytes from the address to the last payload byte (30_encoding.md R80,
R83). -/
def wireOf (b : List Byte) : List Byte := SYNC :: (b ++ [checksumOf b]).flatMap escape

/-- The host has sent the frame `f` to every board and waits for the reply: `t` is `s` after the first step of Exchange, for
the operations `ts` (42_link_manager.md R182). -/
structure Exchanging (s t : State) (f : Frame) (ts : List Task) : Prop where
  next : t = { s with
    line := t.line
    replies := []
    host := { s.host with
      rx := { s.host.rx with phase := .idle, esc := false, payload := [], status := none, sum := 0 }
      lastSent := some f
      phase := .waiting
      tasks := ts } }
  sent : ∀ j, j < s.devices.length → bytesFor t.line j = bytesFor s.line j ++
    wireOf (f.nodeAddress :: BitVec.ofNat 8 f.payload.length :: f.payload)

/-- The reply bytes on the wire when the host's wait ends, and the free-value counter after them (60_exceptions.md R228): no
reply, one, or a collision of more, whose bytes are free (log entries 6 and 33). -/
inductive Replied (s : State) : List Byte → Nat → Prop
  | silence : s.replies = [] → Replied s [] s.freeCount
  | one (b : List Byte) : s.replies = [b] → Replied s b s.freeCount
  | collision : 2 ≤ s.replies.length → Replied s (Config.collisionBytes s.freeCount) (s.freeCount + 1)

/-- What the oracle makes of one wait: from the late bytes `before` and the reply bytes `now`, the bytes the
host receives and the bytes still to come (60_exceptions.md R224, R226; log entries 10 and 11). -/
inductive Arrives (before now : List Byte) : Option WaitChoice → List Byte → List Byte → Prop
  | byDefault : Arrives before now none (before ++ now) []
  | deliver : Arrives before now (some .deliver) (before ++ now) []
  | late : Arrives before now (some .late) before now
  | lost : Arrives before now (some .lost) before []
  | altered (b : List Byte) : Arrives before now (some (.altered b)) b []

/-- The host's wait ends (42_link_manager.md R183): it has received `b`, and the bus is then `t`. -/
def WaitEnds (s : State) (b : List Byte) (t : State) : Prop :=
  ∃ now n later, Replied s now n ∧ Arrives s.inFlight now s.oracle.waits.head? b later ∧
    t = { s with replies := [], inFlight := later, freeCount := n,
                 oracle := { s.oracle with waits := s.oracle.waits.tail } }

/-- `k` steps, where every one of them answers a next state. -/
def stepsTo : Nat → State → Option State
  | 0, s => some s
  | k + 1, s =>
    match step s with
    | .next s' => stepsTo k s'
    | _ => none

/-- Feed bytes to a Receiver, one per step, and list every event it emits, in order. -/
def Receiver.run (r : Receiver) : List Byte → Receiver × List RxEvent
  | [] => (r, [])
  | b :: rest => (((r.step b).1.run rest).1, (r.step b).2.toList ++ ((r.step b).1.run rest).2)

end Sys2Proof.Machine
end

