-- ==== Sys2Proof/Certificates/Slice0/Obligations.lean ====
section
/-! DEFINITION. The statements for the provers. Each says what the machine does in terms of its states; `OBLIGATIONS.json` names
the rules it rests on. Where a statement takes an oracle list to be empty, the transport succeeds or the replies arrive in time
(log entry 10); where it takes the code table to be `.standard`, the codes but RESET's are the spec's defaults (log entry 13). -/

open Sys2Proof Sys2Proof.Machine

/-! ## The command stream (30_encoding.md R85 to R96, 10_state.md R22) -/

/-- R85, R86, R87, R92: under every admitted code table, a well-formed command followed by any bytes decodes to itself. -/
def Obligations.DecodeOfEncode : Prop :=
  ∀ (t : CodeTable) (i : Instr) (rest : List Byte), t.wf = true → i.wf = true →
    decode t (encodeWith t i ++ rest) = .ok i

/-- R22, R86: whatever the decoder answers, the payload starts with exactly that command's bytes. -/
def Obligations.DecodeReadsItsOwnBytes : Prop :=
  ∀ (t : CodeTable) (bs : List Byte) (i : Instr), decode t bs = .ok i → ∃ rest, bs = encodeWith t i ++ rest

/-- R95: a code byte that is none of the 13, or lies in the manufacturer range, is unrecognised, whatever follows. -/
def Obligations.OtherCodesUnrecognised : Prop :=
  ∀ (t : CodeTable) (c : Byte) (args : List Byte), t.wf = true →
    (c ∉ t.toList ∨ (0x60 ≤ c.toNat ∧ c.toNat ≤ 0x7F)) → decode t (c :: args) = .error (.unrecognised c)

/-- R86, R92: one written word of each format decodes to its command, under the default table, whose codes but RESET's are
PRESUMED (log entry 13). -/
def Obligations.WrittenWordsDecode : Prop :=
  decode .standard [0x10] = .ok .ioident ∧
  decode .standard [0x20, 0x02, 0x03] = .ok (.readswitch (some (2, 3))) ∧
  decode .standard [0x35, 0x01, 0x02, 0x03] = .ok (.coinincrease (some (1, 0x0203))) ∧
  decode .standard [0x32, 0x02, 0xE0, 0xD0] = .ok (.genericout1 (some [0xE0, 0xD0])) ∧
  decode .standard [0xF0, 0xD9] = .ok (.reset (some 0xD9)) ∧
  decode .standard [0xF1, 0x05] = .ok (.setaddr (some 5))

/-! ## A step runs the command at the cursor (41_interpreter.md R143) -/

/-- R143: while a frame is interpreted and the walk has not stopped, a step is the command the bytes at the cursor decode to. -/
def Obligations.StepRunsDecodedInstruction : Prop :=
  ∀ (s : State) (w : Walk) (i : Instr), s.walk = some w → w.stop = false →
    decode s.params.codes (w.payload.drop w.pos) = .ok i → step s = exec i s

/-- R163: at an unrecognised code the frame status becomes UnknownCommand and the walk stops; nothing else changes. Where it is
the first code, the reply is `E0 00 01 02 03`. -/
def Obligations.StepAtUnrecognisedCode : Prop :=
  ∀ (s : State) (w : Walk) (c : Byte) (args : List Byte), s.params.codes.wf = true → s.walk = some w →
    w.stop = false → w.payload.drop w.pos = c :: args → c ∉ s.params.codes.toList →
      step s = .next { s with walk := some { w with fstatus := .unknownCommand, stop := true } } ∧
      (w = Walk.start w.dev (c :: args) → w.dev < s.devices.length → s.oracle.sends = [] →
        ∃ t, stepsTo 2 s = some t ∧ t.walk = none ∧ t.replies = s.replies ++ [[0xE0, 0x00, 0x01, 0x02, 0x03]])

/-! ## The identification commands (41_interpreter.md R152 to R156) -/

/-- R152, R145: IOIDENT reports Normal, the identity and a zero byte, or overflows. -/
def Obligations.IoidentReportsIdentity : Prop :=
  ∀ (s : State) (w : Walk) (d : Device), Interpreting s w d →
    (w.resp.length + (d.cfg.identity.length + 2) ≤ 253 →
      exec .ioident s = .next (s.putWalk
        { w with resp := w.resp ++ 0x01 :: (d.cfg.identity ++ [0x00]), pos := w.pos + 1 } d)) ∧
    (253 < w.resp.length + (d.cfg.identity.length + 2) →
      exec .ioident s = .next (s.putWalk { w with fstatus := .overflow, stop := true } d))

/-- R153 to R155, R145: each version command reports Normal and its byte as configured, or overflows. -/
def Obligations.VersionCommandsReport : Prop :=
  ∀ (s : State) (w : Walk) (d : Device), Interpreting s w d → ∀ (i : Instr) (v : Byte),
    (i = .cmdrev ∧ v = d.cfg.cmdVersion) ∨ (i = .jvsrev ∧ v = d.cfg.jvsVersion) ∨
      (i = .comver ∧ v = d.cfg.commVersion) →
    (w.resp.length + 2 ≤ 253 →
      exec i s = .next (s.putWalk { w with resp := w.resp ++ [0x01, v], pos := w.pos + 1 } d)) ∧
    (253 < w.resp.length + 2 →
      exec i s = .next (s.putWalk { w with fstatus := .overflow, stop := true } d))

/-- R156, R94, R13, R145: FEATCHK reports Normal, four BCD bytes a feature in order, and End, or overflows. -/
def Obligations.FeatchkReportsFeatures : Prop :=
  ∀ (s : State) (w : Walk) (d : Device), Interpreting s w d → d.cfg.wf = true →
    ∃ r : List Byte, r.length = 4 * d.cfg.features.length + 2 ∧ r[0]? = some 0x01 ∧
      r[4 * d.cfg.features.length + 1]? = some 0x00 ∧
      (∀ k g, d.cfg.features[k]? = some g →
        r[4 * k + 1]? = some (BitVec.ofNat 8 (16 * (featureOrdinal g.featureType / 10) +
          featureOrdinal g.featureType % 10)) ∧
        r[4 * k + 2]? = some (BitVec.ofNat 8 (16 * (g.p1.toNat / 10) + g.p1.toNat % 10)) ∧
        r[4 * k + 3]? = some (BitVec.ofNat 8 (16 * (g.p2.toNat / 10) + g.p2.toNat % 10)) ∧
        r[4 * k + 4]? = some (BitVec.ofNat 8 (16 * (g.p3.toNat / 10) + g.p3.toNat % 10))) ∧
      (w.resp.length + r.length ≤ 253 →
        exec .featchk s = .next (s.putWalk { w with resp := w.resp ++ r, pos := w.pos + 1 } d)) ∧
      (253 < w.resp.length + r.length →
        exec .featchk s = .next (s.putWalk { w with fstatus := .overflow, stop := true } d))

/-! ## The switch, coin and output commands (41_interpreter.md R157 to R161) -/

/-- R157, R63, R145: READSWITCH within the limits reports Normal, the test byte and the first players × bytes switch
bytes, or overflows; the board is unchanged. -/
def Obligations.ReadswitchReports : Prop :=
  ∀ (s : State) (w : Walk) (d : Device) (pl b : Byte) (n : Nat), Interpreting s w d →
    d.cfg.switchCfg = .configured n → pl.toNat ≤ limit1 d.cfg .switch → b.toNat ≤ limit2 d.cfg .switch →
    pl.toNat * b.toNat ≤ d.switches.length →
    (w.resp.length + (pl.toNat * b.toNat + 2) ≤ 253 →
      exec (.readswitch (some (pl, b))) s = .next (s.putWalk
        { w with resp := w.resp ++ 0x01 :: d.systemSwitches :: d.switches.take (pl.toNat * b.toNat),
                 pos := w.pos + 3 } d)) ∧
    (253 < w.resp.length + (pl.toNat * b.toNat + 2) →
      exec (.readswitch (some (pl, b))) s = .next (s.putWalk { w with fstatus := .overflow, stop := true } d))

/-- R158, R93, R145: READCOIN within the limit reports Normal and, slot by slot, the condition in the top two bits and the
counter modulo 16384, high byte first, or overflows; the board is unchanged. -/
def Obligations.ReadcoinReports : Prop :=
  ∀ (s : State) (w : Walk) (d : Device) (count : Byte) (n : Nat), Interpreting s w d → d.Wf →
    d.cfg.coinCfg = .configured n → count.toNat ≤ limit1 d.cfg .coin → count.toNat ≤ d.coinSlots.length →
    ∃ r : List Byte, r.length = 2 * count.toNat + 1 ∧ r[0]? = some 0x01 ∧
      (∀ k c v, k < count.toNat → d.coinCondition[k]? = some c → d.coinSlots[k]? = some v →
        r[2 * k + 1]? = some (BitVec.ofNat 8 (64 * (conditionCode c).toNat + v.toNat % 16384 / 256)) ∧
        r[2 * k + 2]? = some (BitVec.ofNat 8 (v.toNat % 256))) ∧
      (w.resp.length + r.length ≤ 253 →
        exec (.readcoin (some count)) s =
          .next (s.putWalk { w with resp := w.resp ++ r, pos := w.pos + 2 } d)) ∧
      (253 < w.resp.length + r.length →
        exec (.readcoin (some count)) s = .next (s.putWalk { w with fstatus := .overflow, stop := true } d))

/-- R159, R64, R145: COININCREASE adds to the counter of its slot, saturating, and reports Normal, or overflows with the
counter unchanged. -/
def Obligations.CoinincreaseAdds : Prop :=
  ∀ (s : State) (w : Walk) (d : Device) (slot : Byte) (amount : U16) (n : Nat) (v v' : U32),
    Interpreting s w d → d.cfg.coinCfg = .configured n → 1 ≤ slot.toNat → slot.toNat ≤ limit1 d.cfg .coin →
    d.coinSlots[slot.toNat - 1]? = some v → v'.toNat = min (v.toNat + amount.toNat) 0xFFFFFFFF →
    (w.resp.length + 1 ≤ 253 →
      exec (.coinincrease (some (slot, amount))) s = .next (s.putWalk
        { w with resp := w.resp ++ [0x01], pos := w.pos + 4 }
        { d with coinSlots := d.coinSlots.set (slot.toNat - 1) v' })) ∧
    (253 < w.resp.length + 1 →
      exec (.coinincrease (some (slot, amount))) s =
        .next (s.putWalk { w with fstatus := .overflow, stop := true } d))

/-- R160, R64, R145: COINDECREASE subtracts from the counter of its slot, clamped at zero, and reports Normal, or
overflows with the counter unchanged. -/
def Obligations.CoindecreaseSubtracts : Prop :=
  ∀ (s : State) (w : Walk) (d : Device) (slot : Byte) (amount : U16) (n : Nat) (v v' : U32),
    Interpreting s w d → d.cfg.coinCfg = .configured n → 1 ≤ slot.toNat → slot.toNat ≤ limit1 d.cfg .coin →
    d.coinSlots[slot.toNat - 1]? = some v → v'.toNat = v.toNat - amount.toNat →
    (w.resp.length + 1 ≤ 253 →
      exec (.coindecrease (some (slot, amount))) s = .next (s.putWalk
        { w with resp := w.resp ++ [0x01], pos := w.pos + 4 }
        { d with coinSlots := d.coinSlots.set (slot.toNat - 1) v' })) ∧
    (253 < w.resp.length + 1 →
      exec (.coindecrease (some (slot, amount))) s =
        .next (s.putWalk { w with fstatus := .overflow, stop := true } d))

/-- R161, R65, R145: GENERICOUT1 within the declared bit-width writes its bytes to the start of the output buffer, keeps
the rest, and reports Normal, or overflows with the buffer unchanged. -/
def Obligations.GenericoutWrites : Prop :=
  ∀ (s : State) (w : Walk) (d : Device) (data : List Byte) (n : Nat), Interpreting s w d →
    d.cfg.outputCfg = .configured n → data.length ≤ (limit1 d.cfg .generalOutput + 7) / 8 →
    data.length ≤ d.outputSlots.length →
    (w.resp.length + 1 ≤ 253 →
      exec (.genericout1 (some data)) s = .next (s.putWalk
        { w with resp := w.resp ++ [0x01], pos := w.pos + 2 + data.length }
        { d with outputSlots := data ++ d.outputSlots.drop data.length })) ∧
    (253 < w.resp.length + 1 →
      exec (.genericout1 (some data)) s = .next (s.putWalk { w with fstatus := .overflow, stop := true } d))

/-- R157 to R161, R165, R145: a request over a declared limit, or a coin slot out of range, reports ParameterError, moves past
the command, and changes no board, and the walk goes on; where the report does not fit it overflows. -/
def Obligations.OverLimitReportsParameterError : Prop :=
  ∀ (s : State) (w : Walk) (d : Device) (i : Instr) (n size : Nat), Interpreting s w d →
    ((∃ pl b, i = .readswitch (some (pl, b)) ∧ size = 3 ∧ d.cfg.switchCfg = .configured n ∧
        (limit1 d.cfg .switch < pl.toNat ∨ limit2 d.cfg .switch < b.toNat)) ∨
      (∃ count, i = .readcoin (some count) ∧ size = 2 ∧ d.cfg.coinCfg = .configured n ∧
        limit1 d.cfg .coin < count.toNat) ∨
      (∃ slot amount, (i = .coinincrease (some (slot, amount)) ∨ i = .coindecrease (some (slot, amount))) ∧
        size = 4 ∧ d.cfg.coinCfg = .configured n ∧ (slot.toNat = 0 ∨ limit1 d.cfg .coin < slot.toNat)) ∨
      (∃ data : List Byte, i = .genericout1 (some data) ∧ size = 2 + data.length ∧
        d.cfg.outputCfg = .configured n ∧ (limit1 d.cfg .generalOutput + 7) / 8 < data.length)) →
    (w.resp.length + 1 ≤ 253 →
      exec i s = .next (s.putWalk
        { w with resp := w.resp ++ [s.params.reports.parameterError], pos := w.pos + size } d)) ∧
    (253 < w.resp.length + 1 →
      exec i s = .next (s.putWalk { w with fstatus := .overflow, stop := true } d))

/-- R144: a command whose argument bytes run past the payload reports DataError and stops the walk, or overflows; its
board is unchanged. -/
def Obligations.MissingArgumentsReportDataError : Prop :=
  ∀ (s : State) (w : Walk) (d : Device) (i : Instr), Interpreting s w d →
    i ∈ [.readswitch none, .readcoin none, .coindecrease none, .genericout1 none, .coinincrease none,
      .setaddr none] →
    (w.resp.length + 1 ≤ 253 →
      exec i s = .next (s.putWalk { w with resp := w.resp ++ [s.params.reports.dataError], stop := true } d)) ∧
    (253 < w.resp.length + 1 →
      exec i s = .next (s.putWalk { w with fstatus := .overflow, stop := true } d))

/-- R149: a command whose buffer is unconfigured, or too small for a request within the limits, sets the fault flag, stops
the walk, and lets the frame end with no reply; nothing is undone. -/
def Obligations.MisconfigurationAborts : Prop :=
  ∀ (s : State) (w : Walk) (d : Device) (i : Instr), Interpreting s w d →
    ((∃ pl b, i = .readswitch (some (pl, b)) ∧ (d.cfg.switchCfg = .unconfigured ∨
        (pl.toNat ≤ limit1 d.cfg .switch ∧ b.toNat ≤ limit2 d.cfg .switch ∧
          d.switches.length < pl.toNat * b.toNat))) ∨
      (∃ count, i = .readcoin (some count) ∧ (d.cfg.coinCfg = .unconfigured ∨
        (count.toNat ≤ limit1 d.cfg .coin ∧ d.coinSlots.length < count.toNat))) ∨
      (∃ slot amount, (i = .coinincrease (some (slot, amount)) ∨ i = .coindecrease (some (slot, amount))) ∧
        (d.cfg.coinCfg = .unconfigured ∨
          (slot.toNat ≤ limit1 d.cfg .coin ∧ d.coinSlots.length < slot.toNat))) ∨
      (∃ data, i = .genericout1 (some data) ∧ (d.cfg.outputCfg = .unconfigured ∨
        (data.length ≤ (limit1 d.cfg .generalOutput + 7) / 8 ∧ d.outputSlots.length < data.length)))) →
    exec i s = .next (s.putWalk { w with suppress := true, stop := true } { d with misconfigFault := true })

/-! ## The control commands (41_interpreter.md R150, R151, R162) -/

/-- R150, R240, R96: RESET with 0xD9 puts the board back to its defaults and keeps its configuration, its fault flag, its
Receiver and its buffer sizes; without 0xD9 it changes no board. Either way the walk stops and no reply is sent. -/
def Obligations.ResetRestoresDefaults : Prop :=
  ∀ (s : State) (w : Walk) (d : Device), Interpreting s w d →
    exec (.reset (some 0xD9)) s = .next (s.putWalk { w with suppress := true, stop := true }
      { cfg := d.cfg, nodeId := 0xFE, senseOut := false, systemSwitches := 0,
        switches := List.replicate d.switches.length 0, coinSlots := List.replicate d.coinSlots.length 0,
        coinCondition := List.replicate d.coinCondition.length .normal,
        outputSlots := List.replicate d.outputSlots.length 0, analog := List.replicate d.analog.length 0,
        lastSent := none, misconfigFault := d.misconfigFault, rx := d.rx }) ∧
    ∀ literal, literal ≠ some 0xD9 →
      exec (.reset literal) s = .next (s.putWalk { w with suppress := true, stop := true } d)

/-- R151, R230, R145: an unaddressed board with no unaddressed board after it on the chain, or with no sense input, takes a
legal address, asserts its sense output and reports Normal; an address outside 0x01 to 0xFD it reports with DataError and does
not take; where the report does not fit it overflows and takes nothing. -/
def Obligations.SetaddrClaimsAddress : Prop :=
  ∀ (s : State) (w : Walk) (d : Device) (a : Byte), Interpreting s w d → d.nodeId = 0xFE →
    (d.cfg.senseWired = false ∨ ∀ next, s.devices[w.dev + 1]? = some next → next.senseOut = true) →
    (1 ≤ a.toNat → a.toNat ≤ 0xFD → w.resp.length + 1 ≤ 253 →
      exec (.setaddr (some a)) s = .next (s.putWalk { w with resp := w.resp ++ [0x01], pos := w.pos + 2 }
        { d with nodeId := a, senseOut := true })) ∧
    (a ∈ [0x00, 0xFE, 0xFF] → w.resp.length + 1 ≤ 253 →
      exec (.setaddr (some a)) s = .next (s.putWalk
        { w with resp := w.resp ++ [s.params.reports.dataError], pos := w.pos + 2 } d)) ∧
    (253 < w.resp.length + 1 →
      exec (.setaddr (some a)) s = .next (s.putWalk { w with fstatus := .overflow, stop := true } d))

/-- R151, R230: an addressed board ignores SETADDR, and one whose sense input sees an unaddressed board after it defers:
no change, no reply, the walk stops. -/
def Obligations.SetaddrNotActedOn : Prop :=
  ∀ (s : State) (w : Walk) (d : Device) (a : Byte), Interpreting s w d →
    (d.nodeId ≠ 0xFE ∨
      (d.cfg.senseWired = true ∧ ∃ next, s.devices[w.dev + 1]? = some next ∧ next.senseOut = false)) →
    exec (.setaddr (some a)) s = .next (s.putWalk { w with suppress := true, stop := true } d)

/-- R162: DATARETRY stops the walk and asks for the board's last frame again, or for no frame when it sent none. -/
def Obligations.DataretryAsksForLastFrame : Prop :=
  ∀ (s : State) (w : Walk) (d : Device), Interpreting s w d →
    (d.lastSent = none →
      exec .dataretry s = .next (s.putWalk { w with suppress := true, stop := true } d)) ∧
    (d.lastSent.isSome = true →
      exec .dataretry s = .next (s.putWalk { w with stop := true, resend := true } d))

/-! ## The end of a frame (41_interpreter.md R146) -/

/-- R146, R162, R228, R219: after a DATARETRY the board sends its last frame unchanged, to the host and to every other board,
and keeps it; when the transport fails it sends nothing and keeps it too. -/
def Obligations.FinishResendsLastFrame : Prop :=
  ∀ (s : State) (w : Walk) (d : Device) (b : List Byte), Interpreting s w d → w.stop = true → w.resend = true →
    d.lastSent = some b →
    (s.oracle.sends = [] →
      ∃ line, step s = .next { s with walk := none, line := line, replies := s.replies ++ [b] } ∧
        ∀ j, j < s.devices.length →
          bytesFor line j = bytesFor s.line j ++ (if j = w.dev then [] else b)) ∧
    (∀ rest, s.oracle.sends = .writeError :: rest →
      step s = .next { s with walk := none, oracle := { s.oracle with sends := rest } })

/-- R146, R80, R228, R219: when a reply is warranted the board sends one frame to address 0x00 with the frame status and the
response, to the host and to every other board, and keeps it as its last frame; when the transport fails it sends nothing and
keeps the last frame it had. -/
def Obligations.FinishSendsReply : Prop :=
  ∀ (s : State) (w : Walk) (d : Device) (b : List Byte), Interpreting s w d →
    (w.stop = true ∨ w.pos = w.payload.length) → w.resend = false → w.suppress = false →
    (w.resp ≠ [] ∨ w.fstatus ≠ .normal) → w.resp.length ≤ 253 →
    b = wireOf (0x00 :: BitVec.ofNat 8 (w.resp.length + 1) :: w.fstatus.code :: w.resp) →
    (s.oracle.sends = [] →
      ∃ line, step s = .next { s with walk := none, line := line, replies := s.replies ++ [b],
                                      devices := s.devices.set w.dev { d with lastSent := some b } } ∧
        ∀ j, j < s.devices.length →
          bytesFor line j = bytesFor s.line j ++ (if j = w.dev then [] else b)) ∧
    (∀ rest, s.oracle.sends = .writeError :: rest →
      step s = .next { s with walk := none, oracle := { s.oracle with sends := rest } })

/-- R146: a suppressed reply, or an empty response with status Normal, ends the frame with no frame sent; nothing but the
working registers changes. -/
def Obligations.FinishStaysSilent : Prop :=
  ∀ (s : State) (w : Walk), s.walk = some w → (w.stop = true ∨ w.pos = w.payload.length) → w.resend = false →
    (w.suppress = true ∨ (w.resp = [] ∧ w.fstatus = .normal)) → step s = .next { s with walk := none }

/-! ## The walk as a whole (41_interpreter.md R164 to R166, 20_memory.md R70, R72) -/

/-- R14, R143: in every legal state where a frame is interpreted, a step answers a next state: no command and no reply ever
stops the machine. -/
def Obligations.InterpretingNeverStops : Prop :=
  ∀ s : State, s.Inv → s.walk.isSome = true → ∃ t, step s = .next t

/-- R166: from every legal state, every command moves the cursor forward or stops the walk, and the frame being interpreted
ends after at most one step for each of the at most 254 payload bytes left, and one more. -/
def Obligations.WalkAlwaysEnds : Prop :=
  ∀ (s : State) (w : Walk), s.Inv → s.walk = some w →
    (w.stop = false → w.pos < w.payload.length →
      ∃ t w', step s = .next t ∧ t.walk = some w' ∧ (w.pos < w'.pos ∨ w'.stop = true)) ∧
    w.payload.length ≤ 254 ∧
    ∃ k t, k ≤ w.payload.length - w.pos + 1 ∧ stepsTo k s = some t ∧ t.walk = none

/-- R46, R69, R74: a command other than a well-formed RESET touches only its own board and the working registers, and there
neither the configuration, the switches, the conditions, the analog values, the last frame nor the Receiver. -/
def Obligations.CommandTouchesOnlyItsState : Prop :=
  ∀ (i : Instr) (s t : State), exec i s = .next t → i ≠ .reset (some 0xD9) →
    ∃ w w', s.walk = some w ∧ t.walk = some w' ∧ w'.dev = w.dev ∧ w'.payload = w.payload ∧
      t = { s with walk := t.walk, devices := t.devices } ∧ t.devices.length = s.devices.length ∧
      ∀ j d, s.devices[j]? = some d → ∃ d', t.devices[j]? = some d' ∧ (j ≠ w.dev → d' = d) ∧
        d'.cfg = d.cfg ∧ d'.systemSwitches = d.systemSwitches ∧ d'.switches = d.switches ∧
        d'.coinCondition = d.coinCondition ∧ d'.analog = d.analog ∧ d'.lastSent = d.lastSent ∧ d'.rx = d.rx

/-- R72, R256: in one frame, a READCOIN after a COININCREASE reports the increased counter. -/
def Obligations.ReadcoinSeesEarlierIncrease : Prop :=
  ∀ (s : State) (d : Device) (j n : Nat) (h l : Byte) (v v' : U32) (rest : List U32) (conds : List CoinCondition),
    Interpreting s (Walk.start j [0x35, 0x01, h, l, 0x21, 0x01]) d → s.params.codes = .standard →
    d.cfg.coinCfg = .configured n → 1 ≤ limit1 d.cfg .coin → d.coinSlots = v :: rest →
    d.coinCondition = .normal :: conds →
    v'.toNat = min (v.toNat + (256 * h.toNat + l.toNat)) 0xFFFFFFFF →
    ∃ t w, stepsTo 2 s = some t ∧ t.walk = some w ∧
      w.resp = [0x01, 0x01, BitVec.ofNat 8 (v'.toNat % 16384 / 256), BitVec.ofNat 8 (v'.toNat % 256)]

/-! ## Every step (10_state.md, 60_exceptions.md R223, 70_reset_and_hazards.md R241) -/

/-- A step from a legal state leads to a legal state (R21 to R44, R189). That the host's count stays at most 15 through an
Enumerate without a Reset is DEDUCED (log entry 17). -/
def Obligations.StepKeepsLegalForm : Prop :=
  ∀ s t : State, s.Inv → step s = .next t → t.Inv

/-- The state after reset is legal. -/
def Obligations.ResetStateIsLegal : Prop := State.reset.Inv

/-- R48, R241, R242: what power-up leaves: an unaddressed board with its buffers cleared at their configured sizes, and a host
with its link closed. That the reset state has one board, with the default configuration, is the model's choice (log entries 1
and 2); so is that a board powers up in its own place or at the far end of the chain (log entry 23). -/
def Obligations.ResetStateValues : Prop :=
  (∃ d, State.reset.devices = [d] ∧ d.nodeId = 0xFE ∧ d.senseOut = false ∧ d.systemSwitches = 0 ∧
    d.switches = [0, 0, 0, 0] ∧ d.coinSlots = [0, 0] ∧ d.coinCondition = [.normal, .normal] ∧
    d.outputSlots = [0, 0] ∧ d.analog = [] ∧ d.lastSent = none ∧ d.misconfigFault = false ∧
    d.rx.phase = .idle ∧ d.rx.esc = false ∧ d.rx.payload = [] ∧ d.rx.status = none ∧ d.rx.sum = 0 ∧
    State.reset.host.linkOpen = false ∧ State.reset.host.senseMode = .off ∧ State.reset.walk = none) ∧
  ∀ (s : State) (rest : List Input) (j : Nat) (cfg : DevConfig), s.Takes (.powerUp j cfg) rest → cfg.wf = true →
    ∃ d : Device, (j < s.devices.length → step s = .next { s with inputs := rest, devices := s.devices.set j d }) ∧
      (j = s.devices.length → step s = .next { s with inputs := rest, devices := s.devices ++ [d] }) ∧
      d.cfg = cfg ∧ d.nodeId = 0xFE ∧ d.senseOut = false ∧ d.systemSwitches = 0 ∧
      d.switches = List.replicate cfg.switchCfg.size 0 ∧ d.coinSlots = List.replicate cfg.coinCfg.size 0 ∧
      d.coinCondition = List.replicate cfg.coinCfg.size .normal ∧
      d.outputSlots = List.replicate cfg.outputCfg.size 0 ∧ d.analog = List.replicate cfg.analogCfg.size 0 ∧
      d.lastSent = none ∧ d.misconfigFault = false ∧ d.rx.phase = .idle ∧ d.rx.esc = false ∧ d.rx.payload = [] ∧
      d.rx.status = none ∧ d.rx.sum = 0 ∧ d.rx.expectStatus = false

/-- R37, R216: no step clears a board's fault flag, but the board's own power-up. -/
def Obligations.FaultFlagIsSticky : Prop :=
  ∀ (s t : State) (j : Nat) (d : Device), step s = .next t → s.devices[j]? = some d → d.misconfigFault = true →
    (s.walk = none → ∀ cfg, s.inputs.head? ≠ some (.powerUp j cfg)) →
    ∃ d', t.devices[j]? = some d' ∧ d'.misconfigFault = true

/-- R24, R46, R49: no step changes the open parameters, a board's configuration or a Receiver's direction, but the board's own
power-up. -/
def Obligations.ConfigurationIsFixed : Prop :=
  ∀ (s t : State) (j : Nat) (d : Device), step s = .next t → s.devices[j]? = some d →
    (s.walk = none → ∀ cfg, s.inputs.head? ≠ some (.powerUp j cfg)) →
    t.params = s.params ∧ ∃ d', t.devices[j]? = some d' ∧ d'.cfg = d.cfg ∧
      d'.rx.expectStatus = d.rx.expectStatus ∧ d'.switches.length = d.switches.length ∧
      d'.coinSlots.length = d.coinSlots.length ∧ d'.coinCondition.length = d.coinCondition.length ∧
      d'.outputSlots.length = d.outputSlots.length ∧ d'.analog.length = d.analog.length

/-- R241: a board that held an address and holds none after a step was reset by one of the three triggers. -/
def Obligations.ResetHasThreeTriggers : Prop :=
  ∀ (s t : State) (j : Nat) (d d' : Device), step s = .next t → s.devices[j]? = some d → t.devices[j]? = some d' →
    d.nodeId ≠ 0xFE → d'.nodeId = 0xFE →
    (∃ w, s.walk = some w ∧ w.dev = j ∧ w.stop = false ∧
      decode s.params.codes (w.payload.drop w.pos) = .ok (.reset (some 0xD9))) ∨
    (s.walk = none ∧ (s.inputs.head? = some (.addressLoss j) ∨
      ∃ cfg, s.inputs.head? = some (.powerUp j cfg)))

/-- R70, R143, R223: an event is taken between two steps of the agent it affects, and a frame is interpreted as one atomic step
under its board's lock. In the model, while a frame is interpreted, no input of any board is taken and neither the host nor
another board moves, and until the frame ends nothing is sent: its reading, DEDUCED (log entries 3 and 26). -/
def Obligations.FrameIsNotInterrupted : Prop :=
  ∀ (s t : State) (w : Walk), s.walk = some w → step s = .next t →
    t.host = s.host ∧ t.inputs = s.inputs ∧ t.inFlight = s.inFlight ∧ t.freeCount = s.freeCount ∧
      t.params = s.params ∧ (∀ j, j ≠ w.dev → t.devices[j]? = s.devices[j]?) ∧
      (t.walk = none ∨ ∃ w', t.walk = some w' ∧ w'.dev = w.dev ∧ w'.payload = w.payload ∧ t.line = s.line ∧
        t.replies = s.replies ∧ t.oracle = s.oracle)

/-! ## Inputs without a meaning, and the outside world's events -/

/-- R113, R147, R182, R198, R199, R225, R70, R24: the inputs that are refused, each by its own name. The last, a call of the
interpreter on a board with a frame that is not verified (R23, R122), is the model's choice (log entry 27). -/
def Obligations.CallerErrorsAreRefused : Prop :=
  ∀ (s : State) (rest : List Input),
    (∀ j p, s.Takes (.poll j false p) rest → step s = .refused .unsynchronisedWrite) ∧
    (∀ f, s.Takes (.interpret .host f) rest → step s = .refused .interpretInHostRole) ∧
    (∀ j op, s.Takes (.call (.device j) op) rest → step s = .refused .hostOpInDeviceRole) ∧
    (∀ op, s.Takes (.call .host op) rest → op ≠ .close → s.host.phase ≠ .idle →
      step s = .refused .operationRunning) ∧
    (∀ f, s.Takes (.call .host (.exchange f)) rest → s.host.phase = .idle → f.statusCode.isSome = true →
      step s = .refused .frameHasStatus) ∧
    (∀ f, s.Takes (.call .host (.exchange f)) rest → s.host.phase = .idle → f.statusCode = none →
      254 < f.payload.length → step s = .refused .oversize) ∧
    (∀ port baud mode, s.Takes (.call .host (.open_ port baud mode)) rest → s.host.phase = .idle →
      s.host.linkOpen = true → step s = .refused .linkAlreadyOpen) ∧
    (∀ j cfg, s.Takes (.powerUp j cfg) rest → cfg.wf = false → step s = .refused .illFormedConfig) ∧
    (∀ j f d, s.Takes (.interpret (.device j) f) rest → s.devices[j]? = some d →
      (f.statusCode.isSome = true ∨ 254 < f.payload.length ∨ f.checksum ≠ checksumOf f.body) →
      step s = .refused .unverifiedFrame)

/-- R223, R240, R241: the address-loss event puts the board back to its defaults and keeps its configuration, its fault flag,
its Receiver and its buffer sizes; nothing else changes. -/
def Obligations.AddressLossResets : Prop :=
  ∀ (s : State) (rest : List Input) (j : Nat) (d : Device), s.Takes (.addressLoss j) rest →
    s.devices[j]? = some d →
    step s = .next { s with
      inputs := rest
      devices := s.devices.set j
        { cfg := d.cfg, nodeId := 0xFE, senseOut := false, systemSwitches := 0,
          switches := List.replicate d.switches.length 0, coinSlots := List.replicate d.coinSlots.length 0,
          coinCondition := List.replicate d.coinCondition.length .normal,
          outputSlots := List.replicate d.outputSlots.length 0, analog := List.replicate d.analog.length 0,
          lastSent := none, misconfigFault := d.misconfigFault, rx := d.rx } }

/-- R223, R70: one write of the input-polling task under the lock changes the one place it names. The rules name the five
buffers only; that one write names one counter, one condition, one analog value or a run of switch bytes, inside its buffer, is
the model's choice (log entry 22). -/
def Obligations.PollWritesOnePlace : Prop :=
  ∀ (s : State) (rest : List Input) (j : Nat) (d : Device), s.devices[j]? = some d →
    (∀ k data, s.Takes (.poll j true (.switches k data)) rest → k + data.length ≤ d.switches.length →
      ∃ sw, step s = .next { s with inputs := rest, devices := s.devices.set j { d with switches := sw } } ∧
        sw.length = d.switches.length ∧ (∀ m, m < data.length → sw[k + m]? = data[m]?) ∧
        ∀ m, m < k ∨ k + data.length ≤ m → sw[m]? = d.switches[m]?) ∧
    (∀ v, s.Takes (.poll j true (.systemSwitches v)) rest →
      step s = .next { s with inputs := rest, devices := s.devices.set j { d with systemSwitches := v } }) ∧
    (∀ k v, s.Takes (.poll j true (.coinSlot k v)) rest → k < d.coinSlots.length →
      step s = .next { s with inputs := rest, devices := s.devices.set j { d with coinSlots := d.coinSlots.set k v } }) ∧
    (∀ k c, s.Takes (.poll j true (.coinCondition k c)) rest → k < d.coinCondition.length →
      step s = .next { s with inputs := rest,
                              devices := s.devices.set j { d with coinCondition := d.coinCondition.set k c } }) ∧
    (∀ k v, s.Takes (.poll j true (.analog k v)) rest → k < d.analog.length →
      step s = .next { s with inputs := rest, devices := s.devices.set j { d with analog := d.analog.set k v } })

/-! ## The codec and the Receiver (40_codec.md) -/

/-- R125: decoding an encoded frame, in its own direction, gives it back with its checksum recomputed. -/
def Obligations.CodecRoundTrip : Prop :=
  ∀ f : Frame, f.payload.length + f.statusCode.toList.length ≤ 254 →
    ∃ w, encodeFrame f = some w ∧
      decodeFrame w f.statusCode.isSome = .ok { f with checksum := checksumOf f.body }

/-- R126: an encoded frame starts with 0xE0, has no other 0xE0, and every 0xD0 after it starts an escape pair. -/
def Obligations.EncodedFrameIsEscaped : Prop :=
  ∀ (f : Frame) (w : List Byte), encodeFrame f = some w →
    w[0]? = some 0xE0 ∧ (∀ k, 1 ≤ k → w[k]? ≠ some 0xE0) ∧
      ∀ k, 1 ≤ k → w[k]? = some 0xD0 → w[k + 1]? = some 0xDF ∨ w[k + 1]? = some 0xCF

/-- R113, R84, R76: Encode answers exactly for a length byte of at most 254, with between N + 4 and 2N + 7 wire bytes, and so
at most 515. -/
def Obligations.EncodedFrameLength : Prop :=
  ∀ f : Frame, ((encodeFrame f).isSome = true ↔ f.payload.length + f.statusCode.toList.length ≤ 254) ∧
    ∀ w, encodeFrame f = some w →
      f.payload.length + f.statusCode.toList.length + 4 ≤ w.length ∧
      w.length ≤ 2 * (f.payload.length + f.statusCode.toList.length) + 7 ∧ w.length ≤ 515

/-- R127: one flipped bit in a wire byte of an encoded frame, outside the SYNC, the length byte and the MARKs, and creating
neither 0xE0 nor 0xD0, is found as a checksum mismatch. -/
def Obligations.SingleFlipIsDetected : Prop :=
  ∀ (f : Frame) (w : List Byte) (j k : Nat) (b : Byte), encodeFrame f = some w → 1 ≤ j → w[j]? = some b → k < 8 →
    b ≠ 0xD0 → b ^^^ (1#8 <<< k) ≠ 0xE0 → b ^^^ (1#8 <<< k) ≠ 0xD0 →
    (j < 1 + (escape f.nodeAddress).length ∨
      1 + (escape f.nodeAddress).length +
        (escape (BitVec.ofNat 8 (f.payload.length + f.statusCode.toList.length))).length ≤ j) →
    ∃ a, decodeFrame (w.set j (b ^^^ (1#8 <<< k))) f.statusCode.isSome = .error (.checksumMismatch a)

/-- R23, R115, R122: a frame that Decode answers, or that a Receiver in legal form emits, is verified: its checksum is that of
its fields, its length byte is legal, and it has a status exactly in the direction that expects one. A caller's Interpret on a
board passes a verified frame through the address filter (R140, R143), as the Receiver's event does: the model's choice (log
entry 27). From a legal state, a step that starts a walk took either the byte that made that board's Receiver emit the frame,
or a caller's Interpret of it; the frame is verified, and for that board's id or the broadcast address. -/
def Obligations.OnlyVerifiedFrames : Prop :=
  (∀ (w : List Byte) (e : Bool) (f : Frame), decodeFrame w e = .ok f →
    f.checksum = checksumOf f.body ∧ f.payload.length + f.statusCode.toList.length ≤ 254 ∧
      f.statusCode.isSome = e) ∧
  (∀ (r : Receiver) (e : Bool) (b : Byte) (f : Frame), r.Wf e → (r.step b).2 = some (.frame f) →
    f.checksum = checksumOf f.body ∧ f.payload.length + f.statusCode.toList.length ≤ 254 ∧
      f.statusCode.isSome = e) ∧
  (∀ (s : State) (rest : List Input) (j : Nat) (d : Device) (f : Frame), s.Takes (.interpret (.device j) f) rest →
    s.devices[j]? = some d → f.statusCode = none → f.payload.length ≤ 254 → f.checksum = checksumOf f.body →
    (f.nodeAddress = d.nodeId ∨ f.nodeAddress = 0xFF →
      step s = .next { s with
        inputs := rest
        walk := some ⟨j, f.payload, 0, [], .normal, false, false, false⟩ }) ∧
    (f.nodeAddress ≠ d.nodeId → f.nodeAddress ≠ 0xFF → step s = .next { s with inputs := rest })) ∧
  (∀ (s t : State) (w : Walk), s.Inv → s.walk = none → step s = .next t → t.walk = some w →
    ∃ (f : Frame) (d : Device), s.devices[w.dev]? = some d ∧
      ((∃ b u, s.Hears w.dev b u ∧ (d.rx.step b).2 = some (.frame f)) ∨
        s.inputs.head? = some (.interpret (.device w.dev) f)) ∧
      (f.nodeAddress = d.nodeId ∨ f.nodeAddress = 0xFF) ∧ f.statusCode = none ∧ f.payload.length ≤ 254 ∧
      f.checksum = checksumOf f.body ∧ w = ⟨w.dev, f.payload, 0, [], .normal, false, false, false⟩)

/-- R118, R119, R124: an idle Receiver discards every byte but 0xE0; 0xE0 in any phase, after a MARK too, starts a new frame,
and where a frame was in progress it is discarded with a framing error. Fed a sequence that starts with 0xE0, unescapes without
error and holds nothing after the frame its length byte gives, a Receiver in legal form and in any phase agrees with Decode,
after that framing error. -/
def Obligations.ReceiverAgreesWithDecode : Prop :=
  (∀ (r : Receiver) (b : Byte), r.phase = .idle → b ≠ 0xE0 → r.step b = (r, none)) ∧
  (∀ r : Receiver, r.step 0xE0 =
    ({ r with phase := .addr, esc := false, sum := 0, payload := [], status := none },
      if r.phase = .idle then none else some (.framingError .rawSync))) ∧
  ∀ (r : Receiver) (e : Bool) (rest u : List Byte) (pre : List RxEvent), r.Wf e →
    pre = (if r.phase = .idle then [] else [.framingError .rawSync]) → unescape false rest = .ok u →
    (∀ a n tail, u = a :: n :: tail → n.toNat ≤ 254 → tail.length ≤ n.toNat + 1) →
    match decodeFrame (0xE0 :: rest) e with
    | .ok f => (r.run (0xE0 :: rest)).2 = pre ++ [.frame f] ∧ (r.run ((0xE0 :: rest).dropLast)).2 = pre
    | .error (.checksumMismatch a) =>
      (r.run (0xE0 :: rest)).2 = pre ++ [.checksumMismatch a] ∧ (r.run ((0xE0 :: rest).dropLast)).2 = pre
    | .error (.framing reason) =>
      reason = .badLength ∧ (r.run (0xE0 :: rest)).2 = pre ++ [.framingError .badLength] ∧
        ∃ before b after a n, rest = before ++ b :: after ∧ unescape false (before ++ [b]) = .ok [a, n] ∧
          (r.run (0xE0 :: before)).2 = pre ∧
          (r.run (0xE0 :: (before ++ [b]))).2 = pre ++ [.framingError .badLength]
    | .error .truncated => (r.run (0xE0 :: rest)).2 = pre ∧ (r.run (0xE0 :: rest)).1.phase ≠ .idle

/-! ## A board's reception (41_interpreter.md R140 to R142) -/

/-- R140, R143, R223: when a byte, from the line or from outside (`State.Hears`, with the schedule marks of log entry 9),
completes a verified frame for the board's id or the broadcast address, its interpretation starts with fresh working
registers; every other frame changes nothing but the Receiver. -/
def Obligations.AddressFilter : Prop :=
  ∀ (s u : State) (j : Nat) (b : Byte) (d : Device) (f : Frame), s.Hears j b u → s.devices[j]? = some d →
    (d.rx.step b).2 = some (.frame f) →
    (f.nodeAddress = d.nodeId ∨ f.nodeAddress = 0xFF →
      step s = .next { u with
        devices := s.devices.set j { d with rx := (d.rx.step b).1 }
        walk := some ⟨j, f.payload, 0, [], .normal, false, false, false⟩ }) ∧
    (f.nodeAddress ≠ d.nodeId → f.nodeAddress ≠ 0xFF →
      step s = .next { u with devices := s.devices.set j { d with rx := (d.rx.step b).1 } })

/-- R141, R142, R219, R223: at the byte, from the line or from outside (`State.Hears`, with the schedule marks of log
entry 9), that ends a frame for the board's id with a wrong checksum, the board answers with status ChecksumError and no
payload, or, when the transport fails, sends nothing and keeps the last frame it had; a mismatch for another address, a
framing error, and a byte that ends nothing, change nothing but the Receiver. -/
def Obligations.BadFramesAtABoard : Prop :=
  ∀ (s u : State) (j : Nat) (b : Byte) (d : Device), s.Hears j b u → s.devices[j]? = some d →
    ((d.rx.step b).2 = some (.checksumMismatch d.nodeId) →
      (s.oracle.sends = [] →
        ∃ line, step s = .next { u with
            line := line
            replies := s.replies ++ [[0xE0, 0x00, 0x01, 0x03, 0x04]]
            devices := s.devices.set j
              { d with rx := (d.rx.step b).1, lastSent := some [0xE0, 0x00, 0x01, 0x03, 0x04] } } ∧
          ∀ k, k < s.devices.length → bytesFor line k =
            bytesFor u.line k ++ (if k = j then [] else [0xE0, 0x00, 0x01, 0x03, 0x04])) ∧
      (∀ rest, s.oracle.sends = .writeError :: rest →
        step s = .next { u with
          oracle := { s.oracle with sends := rest }
          devices := s.devices.set j { d with rx := (d.rx.step b).1 } })) ∧
    ((∃ a, (d.rx.step b).2 = some (.checksumMismatch a) ∧ a ≠ d.nodeId) ∨
        (∃ reason, (d.rx.step b).2 = some (.framingError reason)) ∨ (d.rx.step b).2 = none →
      step s = .next { u with devices := s.devices.set j { d with rx := (d.rx.step b).1 } })

/-- R227, R230: a board's sense input, and the host's, read whether the next board outward is present and unaddressed, whatever
the polarity. -/
def Obligations.SenseFollowsTheChain : Prop :=
  ∀ (s : State) (j : Nat),
    (s.senseIn j = true ↔ ∃ d, s.devices[j + 1]? = some d ∧ d.senseOut = false) ∧
    (s.hostSense = true ↔ ∃ d, s.devices[0]? = some d ∧ d.senseOut = false)

/-! ## The host (42_link_manager.md) -/

/-- R198, R242: a successful Open gives the session its initial values; a failed one leaves the link closed. Either way it
returns to its caller, and late reply bytes still on their way stay so (the model's choice, log entry 35). -/
def Obligations.OpenStartsASession : Prop :=
  ∀ (s : State) (rest : List Input) (port : String) (baud : Nat) (mode : SenseMode),
    s.Takes (.call .host (.open_ port baud mode)) rest → s.host.phase = .idle → s.host.linkOpen = false →
    (s.oracle.opens = [] ∨ s.oracle.opens.head? = some true →
      step s = .next { s with
        inputs := rest
        oracle := { s.oracle with opens := s.oracle.opens.tail }
        host := { s.host with senseMode := mode, linkOpen := true, assignedCount := 0, lastSent := none,
                              mismatchPending := false, directory := [], tasks := [], result := some .done } }) ∧
    (s.oracle.opens.head? = some false →
      step s = .next { s with
        inputs := rest
        oracle := { s.oracle with opens := s.oracle.opens.tail }
        host := { s.host with tasks := [], result := some (.error .openError) } })

/-- R198, R220: Close ends an Exchange that waits with Closed and keeps the session; that it ends the operation that runs in
every other phase too, between Reset's sends and while the boards take the last frame, is DEDUCED (log entry 18). Close of
an idle link closes it, and of a closed link does nothing; that it returns done is DEDUCED (log entry 31). Late reply bytes
still on their way when Close ends a wait stay on their way (the model's choice, log entry 35). On a closed link every
operation but Open and Close returns Closed and changes nothing else. The two caller errors that are refused first, a status
or an oversize payload, are no part of it. -/
def Obligations.CloseAndClosedLink : Prop :=
  ∀ (s : State) (rest : List Input),
    (s.Takes (.call .host .close) rest → s.host.phase ≠ .idle →
      step s = .next { s with
        inputs := rest
        host := { s.host with linkOpen := false, phase := .idle, tasks := [], result := some (.error .closed) } }) ∧
    (s.Takes (.call .host .close) rest → s.host.phase = .idle →
      step s = .next { s with
        inputs := rest
        host := { s.host with linkOpen := false, tasks := [], result := some .done } }) ∧
    (∀ op, s.Takes (.call .host op) rest → s.host.phase = .idle → s.host.linkOpen = false → op ≠ .close →
      (∀ port baud mode, op ≠ .open_ port baud mode) →
      (∀ f, op = .exchange f ∨ op = .exchangeRetry f → f.statusCode = none ∧ f.payload.length ≤ 254) →
      step s = .next { s with
        inputs := rest
        host := { s.host with tasks := [], result := some (.error .closed) } })

/-- R181: Reset sends its frame twice to every board, with nothing but the first delivery between, and then clears the
session and ends, for the operation that waits for it or for the caller; where a write fails it returns WriteError and the
session stays. That a failed write reaches no board is the model's choice (log entry 34). -/
def Obligations.HostResetSendsTwice : Prop :=
  (∀ (s : State) (rest : List Input), s.Takes (.call .host .reset) rest → s.host.phase = .idle →
    s.host.linkOpen = true → s.oracle.sends = [] → s.params.codes = .standard →
    ∃ line, step s = .next { s with inputs := rest, line := line, host := { s.host with phase := .settle, tasks := [] } } ∧
      ∀ j, j < s.devices.length → bytesFor line j = bytesFor s.line j ++ [0xE0, 0xFF, 0x02, 0xF0, 0xD9, 0xCA]) ∧
  (∀ s : State, s.OnlyHost → s.host.phase = .settle → s.oracle.sends = [] → s.params.codes = .standard →
    ∃ line, step s = .next { s with line := line, host := { s.host with phase := .resetDrain } } ∧
      ∀ j, j < s.devices.length → bytesFor line j = [0xE0, 0xFF, 0x02, 0xF0, 0xD9, 0xCA]) ∧
  (∀ s : State, s.OnlyHost → s.host.phase = .resetDrain →
    step s = resume s.host.tasks .done
      { s with host := { s.host with assignedCount := 0, directory := [], lastSent := none,
                                     mismatchPending := false } }) ∧
  (∀ s : State, s.OnlyHost → s.host.phase = .resetDrain → s.host.tasks = [] →
    step s = .next { s with host := { s.host with assignedCount := 0, directory := [], lastSent := none,
                                                  mismatchPending := false, phase := .idle, tasks := [],
                                                  result := some .done } }) ∧
  (∀ (s : State) (rest : List Input) (sends : List SendChoice), s.Takes (.call .host .reset) rest →
    s.host.phase = .idle → s.host.linkOpen = true → s.oracle.sends = .writeError :: sends →
    step s = .next { s with inputs := rest, oracle := { s.oracle with sends := sends },
                            host := { s.host with tasks := [], result := some (.error .writeError) } }) ∧
  (∀ (s : State) (sends : List SendChoice), s.OnlyHost → s.host.phase = .settle →
    s.oracle.sends = .writeError :: sends →
    step s = .next { s with oracle := { s.oracle with sends := sends },
                            host := { s.host with phase := .idle, tasks := [],
                                                  result := some (.error .writeError) } })

/-- R182, R41: Exchange drops the stale input, sends the encoded frame to every board, keeps it and waits; a failed write
leaves the kept frame, clears the mismatch mark and returns WriteError, and reaches no board (the model's choice, log
entry 34). -/
def Obligations.ExchangeSendsAndWaits : Prop :=
  ∀ (s : State) (rest : List Input) (f : Frame), s.Takes (.call .host (.exchange f)) rest → s.host.phase = .idle →
    s.host.linkOpen = true → f.statusCode = none → f.payload.length ≤ 254 →
    (s.oracle.sends = [] → ∃ line,
      step s = .next { s with
        inputs := rest
        line := line
        replies := []
        host := { s.host with
          rx := { s.host.rx with phase := .idle, esc := false, payload := [], status := none, sum := 0 }
          lastSent := some f
          phase := .waiting
          tasks := [] } } ∧
      ∀ j, j < s.devices.length → bytesFor line j = bytesFor s.line j ++
        wireOf (f.nodeAddress :: BitVec.ofNat 8 f.payload.length :: f.payload)) ∧
    (∀ sends, s.oracle.sends = .writeError :: sends →
      step s = .next { s with
        inputs := rest
        replies := []
        oracle := { s.oracle with sends := sends }
        host := { s.host with
          rx := { s.host.rx with phase := .idle, esc := false, payload := [], status := none, sum := 0 }
          mismatchPending := false
          phase := .idle
          tasks := []
          result := some (.error .writeError) } })

/-- R183, R224, R228: every wait ends, whatever the boards sent and the oracle answers (`WaitEnds`: replies in time, late, lost
or changed, collisions, and late replies of earlier transactions, kept over a Close by the model's choice, log entry 35). It
gives the waiting operation NoBytes when nothing arrived, and Timeout when fewer than 5 bytes arrived or the bytes bring the
Receiver to no event. -/
def Obligations.WaitWithoutAReply : Prop :=
  ∀ s : State, s.OnlyHost → s.host.phase = .waiting →
    (∃ b t, WaitEnds s b t) ∧
    ∀ (b : List Byte) (t : State), WaitEnds s b t →
      (b = [] →
        step s = resume s.host.tasks (.error .noBytes)
          { t with host := { s.host with mismatchPending := false } }) ∧
      (0 < b.length → b.length < 5 →
        step s = resume s.host.tasks (.error .timeout)
          { t with host := { s.host with mismatchPending := false } }) ∧
      (5 ≤ b.length → (s.host.rx.feed b).2 = none →
        step s = resume s.host.tasks (.error .timeout)
          { t with host := { s.host with rx := (s.host.rx.feed b).1, mismatchPending := false } })

/-- R184: how the first event in the bytes the wait gave is classified, whatever way they came (`WaitEnds`) and for a waiting
operation of any kind: a reply with a status other than ChecksumError and Overflow is returned whatever its address, Overflow
and a framing error are raised. -/
def Obligations.ReplyClassification : Prop :=
  ∀ (s t : State) (b : List Byte) (rx : Receiver) (e : RxEvent), s.OnlyHost → s.host.phase = .waiting →
    WaitEnds s b t → 5 ≤ b.length → s.host.rx.feed b = (rx, some e) →
    (∀ f, e = .frame f → f.statusCode ≠ some 0x03 → f.statusCode ≠ some 0x04 →
      step s = resume s.host.tasks (.reply f)
        { t with host := { s.host with rx := rx, mismatchPending := false } }) ∧
    (∀ f, e = .frame f → f.statusCode = some 0x04 →
      step s = resume s.host.tasks (.error .overflow)
        { t with host := { s.host with rx := rx, mismatchPending := false } }) ∧
    (∀ reason, e = .framingError reason →
      step s = resume s.host.tasks (.error (.framing reason))
        { t with host := { s.host with rx := rx, mismatchPending := false } })

/-- R185, R219, R229: a checksum failure on either side makes the host send its last frame once more; a failed write of it
returns WriteError and reaches no board (the model's choice, log entry 34). When the boards have taken it, what they
replied is dropped, whatever it is and however it comes (`WaitEnds`; log entry 11), and Exchange returns Resent. A second
failure in a row is raised: one the host finds with the address as parsed (R213), one a board reports with a free address,
whatever it is (the model's choice, log entry 32). -/
def Obligations.ChecksumFailureResendsOnce : Prop :=
  (∀ (s t : State) (b : List Byte) (rx : Receiver) (e : RxEvent) (f : Frame), s.OnlyHost →
    s.host.phase = .waiting → WaitEnds s b t → 5 ≤ b.length → s.host.rx.feed b = (rx, some e) →
    ((∃ a, e = .checksumMismatch a) ∨ ∃ r, e = .frame r ∧ r.statusCode = some 0x03) →
    (s.host.mismatchPending = false → s.host.lastSent = some f → f.statusCode = none → f.payload.length ≤ 254 →
      (s.oracle.sends = [] → ∃ line,
        step s = .next { t with
          line := line
          host := { s.host with rx := rx, mismatchPending := true, phase := .resentDrain } } ∧
        ∀ j, j < s.devices.length → bytesFor line j =
          wireOf (f.nodeAddress :: BitVec.ofNat 8 f.payload.length :: f.payload)) ∧
      (∀ sends, s.oracle.sends = .writeError :: sends →
        step s = .next { t with
          oracle := { t.oracle with sends := sends }
          host := { s.host with rx := rx, phase := .idle, tasks := [], result := some (.error .writeError) } })) ∧
    (s.host.mismatchPending = true →
      (∀ a, e = .checksumMismatch a →
        step s = resume s.host.tasks (.error (.checksumMismatch a))
          { t with host := { s.host with rx := rx, mismatchPending := false } }) ∧
      (∀ r, e = .frame r →
        step s = resume s.host.tasks (.error (.checksumMismatch (Config.mismatchAddress t.freeCount)))
          { t with
            freeCount := t.freeCount + 1
            host := { s.host with rx := rx, mismatchPending := false } }))) ∧
  (∀ s : State, s.OnlyHost → s.host.phase = .resentDrain →
    ∃ b t, WaitEnds s b t ∧ t.replies = [] ∧ t.host = s.host ∧ step s = resume s.host.tasks .resent t)

/-- R186, R182: ExchangeRetry starts a second Exchange of the same frame after Resent, gives every other outcome through, and
an outcome with nothing waiting for it goes to the caller. -/
def Obligations.RetryOnceAfterResent : Prop :=
  ∀ (s : State) (f : Frame) (ts : List Task) (r : HostResult),
    (s.host.linkOpen = true → f.statusCode = none → f.payload.length ≤ 254 → s.oracle.sends = [] →
      ∃ t, resume (.retry f :: ts) .resent s = .next t ∧ t.host.phase = .waiting ∧ t.host.tasks = ts ∧
        t.host.lastSent = some f ∧ t.replies = [] ∧ t.devices = s.devices ∧
        ∀ j, j < s.devices.length → bytesFor t.line j = bytesFor s.line j ++
          wireOf (f.nodeAddress :: BitVec.ofNat 8 f.payload.length :: f.payload)) ∧
    (r ≠ .resent → resume (.retry f :: ts) r s = resume ts r s) ∧
    resume [] r s = .next { s with host := { s.host with phase := .idle, tasks := [], result := some r } }

/-- R187 to R190: Enumerate starts with iteration 1 and sends the next address whatever the sense signal, or, with 15 addresses
given, returns 15 at once (R189; DEDUCED, log entry 17); and how it goes on, for the operations `ts` it runs in, after
iteration `iter` with `err` consecutive failures and fewer than 15 addresses given. A success counts the board and returns with
no sense line wired, or when the nearest board is addressed, or after iteration or address 15, and else tries the next address;
a failure tries the same address again, or returns the count after iteration 15 or when the sense signal is de-asserted; a
third failure in a row returns the sentinel; every other error ends it. -/
def Obligations.EnumerateGoesOn : Prop :=
  ∀ (s : State) (iter err : Nat) (ts : List Task) (r : HostResult), 1 ≤ iter → iter ≤ 15 →
    (∀ rest, s.Takes (.call .host .enumerate) rest → s.host.phase = .idle → s.host.linkOpen = true →
      (s.host.assignedCount.toNat < 15 → s.oracle.sends = [] →
        ∃ t, step s = .next t ∧ Exchanging { s with inputs := rest } t
          (Frame.make 0xFF none [s.params.codes.setaddr, s.host.assignedCount + 1]) [.enumerate 1 0]) ∧
      (15 ≤ s.host.assignedCount.toNat →
        step s = .next { s with inputs := rest, host := { s.host with
          tasks := [], result := some (.count s.host.assignedCount) } })) ∧
    (∀ f, r = .reply f → f.statusCode = some 0x01 → f.payload.head? = some 0x01 → s.host.assignedCount.toNat < 15 →
      (s.host.senseMode = .off ∨ iter = 15 ∨ s.host.assignedCount = 14 ∨
          (∀ d, s.devices[0]? = some d → d.senseOut = true) →
        resume (.enumerate iter err :: ts) r s = resume ts (.count (s.host.assignedCount + 1))
          { s with host := { s.host with assignedCount := s.host.assignedCount + 1 } }) ∧
      (s.host.senseMode ≠ .off → iter < 15 → s.host.assignedCount.toNat < 14 →
        (∃ d, s.devices[0]? = some d ∧ d.senseOut = false) → s.host.linkOpen = true → s.oracle.sends = [] →
        ∃ t, resume (.enumerate iter err :: ts) r s = .next t ∧
          Exchanging { s with host := { s.host with assignedCount := s.host.assignedCount + 1 } } t
            (Frame.make 0xFF none [s.params.codes.setaddr, s.host.assignedCount + 2])
            (.enumerate (iter + 1) 0 :: ts))) ∧
    (r = .resent ∨ r = .error .timeout ∨ r = .error .noBytes ∨ (∃ a, r = .error (.checksumMismatch a)) ∨
        r = .error .overflow ∨ (∃ reason, r = .error (.framing reason)) ∨
        (∃ f, r = .reply f ∧ (f.statusCode ≠ some 0x01 ∨ f.payload.head? ≠ some 0x01)) →
      s.host.assignedCount.toNat < 15 →
      (err = 2 → resume (.enumerate iter err :: ts) r s = resume ts (.count (s.host.assignedCount + 0x21)) s) ∧
      (err < 2 → (iter = 15 ∨ (s.host.senseMode ≠ .off ∧ ∀ d, s.devices[0]? = some d → d.senseOut = true)) →
        resume (.enumerate iter err :: ts) r s = resume ts (.count s.host.assignedCount) s) ∧
      (err < 2 → iter < 15 → (s.host.senseMode = .off ∨ ∃ d, s.devices[0]? = some d ∧ d.senseOut = false) →
        s.host.linkOpen = true → s.oracle.sends = [] →
        ∃ t, resume (.enumerate iter err :: ts) r s = .next t ∧
          Exchanging s t (Frame.make 0xFF none [s.params.codes.setaddr, s.host.assignedCount + 1])
            (.enumerate (iter + 1) (err + 1) :: ts))) ∧
    (r = .error .closed ∨ r = .error .writeError → resume (.enumerate iter err :: ts) r s = resume ts r s)

/-- R152 to R156, R193 to R195: what a board with an admitted configuration reports to the host's version request, the host's
Query, for the operations `ts` it runs in, records whole: the versions, and every feature with its BCD parameters; the record
replaces the board's entry in the directory, and every other entry stays. A reply is malformed, and leaves the directory, whose
status or reports are not Normal, which is shorter than 8 bytes, or whose feature list, read in groups of four from offset 7
while the type is not End, runs out before End, has a cut group, or has a type that is no feature's code; another error ends
the Query. -/
def Obligations.QueryRecordsWhatABoardReports : Prop :=
  (∀ (s : State) (c : DevConfig) (node : Byte) (identity extra : List Byte) (a sum : Byte) (ts : List Task),
    c.wf = true →
    ∃ board dir, resume (.queryInfo node identity :: ts)
        (.reply ⟨a, some 0x01, [0x01, c.cmdVersion, 0x01, c.jvsVersion, 0x01, c.commVersion, 0x01] ++
          featureListBytes c.features ++ extra, sum⟩) s =
        resume ts (.board board) { s with host := { s.host with directory := dir } } ∧
      board.nodeId = node ∧ board.identity = identity ∧ board.commandVersion = c.cmdVersion ∧
      board.jvsVersion = c.jvsVersion ∧ board.commVersion = c.commVersion ∧
      board.features = c.features.map (fun g => ⟨g.featureType, bcd g.p1.toNat, bcd g.p2.toNat, bcd g.p3.toNat⟩) ∧
      directoryGet node dir = some board ∧ ∀ m, m ≠ node → directoryGet m dir = directoryGet m s.host.directory) ∧
  (∀ (s : State) (node : Byte) (identity : List Byte) (f : Frame) (ts : List Task),
    (f.statusCode ≠ some 0x01 ∨ f.payload.length < 8 ∨ f.payload[0]? ≠ some 0x01 ∨ f.payload[2]? ≠ some 0x01 ∨
      f.payload[4]? ≠ some 0x01 ∨ f.payload[6]? ≠ some 0x01 ∨
      ∃ k, (∀ m, m < k → f.payload[7 + 4 * m]? ≠ some 0x00) ∧
        (f.payload.length ≤ 7 + 4 * k ∨
          ∃ x, f.payload[7 + 4 * k]? = some x ∧ x ≠ 0x00 ∧
            (f.payload.length ≤ 7 + 4 * k + 3 ∨ ∀ ty, featureCode ty ≠ x))) →
    resume (.queryInfo node identity :: ts) (.reply f) s = resume ts (.error (.framing .malformedReply)) s) ∧
  (∀ (s : State) (node : Byte) (identity : List Byte) (e : HostError) (ts : List Task),
    resume (.queryInfo node identity :: ts) (.error e) s = resume ts (.error e) s)

/-- R192, R193: Query starts with the identity request; the identity is the reply's bytes after the report, up to the first
zero byte, or all of them where there is none; the version request follows, for the operations `ts` the Query runs in. A reply
without status Normal and report Normal is malformed, and leaves the directory; an error ends the Query. -/
def Obligations.QueryIdentity : Prop :=
  ∀ (s : State) (node a sum : Byte) (name ending : List Byte) (ts : List Task),
    (∀ rest, s.Takes (.call .host (.query node)) rest → s.host.phase = .idle → s.host.linkOpen = true →
      s.oracle.sends = [] →
      ∃ t, step s = .next t ∧ Exchanging { s with inputs := rest } t (Frame.make node none [s.params.codes.ioident])
        [.retry (Frame.make node none [s.params.codes.ioident]), .queryIdent node]) ∧
    (s.host.linkOpen = true → s.oracle.sends = [] → (0x00 : Byte) ∉ name →
      (ending = [] ∨ ending.head? = some 0x00) →
      ∃ t f, resume (.queryIdent node :: ts) (.reply ⟨a, some 0x01, 0x01 :: (name ++ ending), sum⟩) s = .next t ∧
        f = Frame.make node none [s.params.codes.cmdrev, s.params.codes.jvsrev, s.params.codes.comver,
          s.params.codes.featchk] ∧
        Exchanging s t f (.retry f :: .queryInfo node name :: ts)) ∧
    (∀ f, f.statusCode ≠ some 0x01 ∨ f.payload.head? ≠ some 0x01 →
      resume (.queryIdent node :: ts) (.reply f) s = resume ts (.error (.framing .malformedReply)) s) ∧
    (∀ e, resume (.queryIdent node :: ts) (.error e) s = resume ts (.error e) s)

/-- R196: Connect runs Reset, and after it Enumerate; it raises EnumerationError on the sentinel, returns 0 when no board was
addressed, and else queries the boards one by one, up to the count, which it returns; an error ends it. -/
def Obligations.ConnectGoesOn : Prop :=
  ∀ (s : State) (c m : Byte),
    (0x21 ≤ c.toNat → resume [.connectEnum] (.count c) s = .next { s with host := { s.host with
      phase := .idle, tasks := [], result := some (.error (.enumeration c)) } }) ∧
    (c = 0 → resume [.connectEnum] (.count c) s = .next { s with host := { s.host with
      phase := .idle, tasks := [], result := some (.count 0) } }) ∧
    (1 ≤ c.toNat → c.toNat < 0x21 → s.host.linkOpen = true → s.oracle.sends = [] →
      ∃ t f, resume [.connectEnum] (.count c) s = .next t ∧ f = Frame.make 1 none [s.params.codes.ioident] ∧
        Exchanging s t f [.retry f, .queryIdent 1, .connectQuery 1 c]) ∧
    (∀ b, m.toNat < c.toNat → s.host.linkOpen = true → s.oracle.sends = [] →
      ∃ t f, resume [.connectQuery m c] (.board b) s = .next t ∧
        f = Frame.make (m + 1) none [s.params.codes.ioident] ∧
        Exchanging s t f [.retry f, .queryIdent (m + 1), .connectQuery (m + 1) c]) ∧
    (∀ b, c.toNat ≤ m.toNat → resume [.connectQuery m c] (.board b) s = .next { s with host := { s.host with
      phase := .idle, tasks := [], result := some (.count c) } }) ∧
    (∀ rest, s.Takes (.call .host .connect) rest → s.host.phase = .idle → s.host.linkOpen = true →
      s.oracle.sends = [] → s.params.codes = .standard →
      ∃ line, step s = .next { s with inputs := rest, line := line,
                                      host := { s.host with phase := .settle, tasks := [.connectReset] } } ∧
        ∀ j, j < s.devices.length → bytesFor line j = bytesFor s.line j ++ [0xE0, 0xFF, 0x02, 0xF0, 0xD9, 0xCA]) ∧
    (s.host.linkOpen = true → s.oracle.sends = [] →
      ∃ t, resume [.connectReset] .done s = .next t ∧
        Exchanging s t (Frame.make 0xFF none [s.params.codes.setaddr, s.host.assignedCount + 1])
          [.enumerate 1 0, .connectEnum]) ∧
    (∀ e x, x ∈ [Task.connectReset, .connectEnum, .connectQuery m c] →
      resume [x] (.error e) s = .next { s with host := { s.host with
        phase := .idle, tasks := [], result := some (.error e) } })

/-- R197: a sender with a valid id and counts over 0 sends the one frame of its table to `id` and waits for the reply; with a
count of 0, too many bytes, or an id outside 0x01 to 0xFD it sends nothing and returns NoOp. -/
def Obligations.SendersSendOneFrame : Prop :=
  ∀ (s : State) (rest : List Input) (x : Sender) (id : Byte) (valid : Bool) (payload : List Byte),
    s.Takes (.call .host (.send x)) rest → s.host.phase = .idle → s.host.linkOpen = true → s.oracle.sends = [] →
    s.params.codes = .standard →
    ((∃ pl b, x = .readSwitches id pl b ∧ payload = [0x20, pl, b] ∧ valid = (pl != 0 && b != 0)) ∨
      (∃ n, x = .readCoins id n ∧ payload = [0x21, n] ∧ valid = (n != 0)) ∨
      (∃ slot h l, x = .increaseCoin id slot (h ++ l) ∧ payload = [0x35, slot, h, l] ∧
        valid = (slot != 0 && (h != 0 || l != 0))) ∨
      (∃ slot h l, x = .decreaseCoin id slot (h ++ l) ∧ payload = [0x30, slot, h, l] ∧
        valid = (slot != 0 && (h != 0 || l != 0))) ∨
      (∃ data, x = .writeOutputs id data ∧ payload = 0x32 :: BitVec.ofNat 8 data.length :: data ∧
        valid = (decide (0 < data.length) && decide (data.length ≤ 252))) ∨
      (∃ n, x = .readAnalog id n ∧ payload = [s.params.analogReadCode, n] ∧ valid = (n != 0))) →
    (1 ≤ id.toNat → id.toNat ≤ 0xFD → valid = true →
      ∃ t f, step s = .next t ∧ t.host.phase = .waiting ∧ t.host.lastSent = some f ∧ t.host.tasks = [.retry f] ∧
        f.nodeAddress = id ∧ f.statusCode = none ∧ f.payload = payload ∧
        ∀ j, j < s.devices.length → bytesFor t.line j =
          bytesFor s.line j ++ wireOf (id :: BitVec.ofNat 8 payload.length :: payload)) ∧
    (valid = false ∨ id.toNat = 0 ∨ 0xFD < id.toNat →
      step s = .next { s with inputs := rest, host := { s.host with tasks := [], result := some .noOp } })
end

