-- ==== Sys2Proof/Laws/State.lean ====
section
/-! SUPPORT. One lemma per field per update of the state's records, so that no proof unfolds a record update. -/

namespace Sys2Proof.Machine

/-! ## `State.putWalk` -/

@[simp] theorem putWalk_params (s : State) (w : Walk) (d : Device) :
    (s.putWalk w d).params = s.params := rfl
@[simp] theorem putWalk_host (s : State) (w : Walk) (d : Device) :
    (s.putWalk w d).host = s.host := rfl
@[simp] theorem putWalk_devices (s : State) (w : Walk) (d : Device) :
    (s.putWalk w d).devices = s.devices.set w.dev d := rfl
@[simp] theorem putWalk_walk (s : State) (w : Walk) (d : Device) :
    (s.putWalk w d).walk = some w := rfl
@[simp] theorem putWalk_line (s : State) (w : Walk) (d : Device) :
    (s.putWalk w d).line = s.line := rfl
@[simp] theorem putWalk_replies (s : State) (w : Walk) (d : Device) :
    (s.putWalk w d).replies = s.replies := rfl
@[simp] theorem putWalk_inFlight (s : State) (w : Walk) (d : Device) :
    (s.putWalk w d).inFlight = s.inFlight := rfl
@[simp] theorem putWalk_inputs (s : State) (w : Walk) (d : Device) :
    (s.putWalk w d).inputs = s.inputs := rfl
@[simp] theorem putWalk_oracle (s : State) (w : Walk) (d : Device) :
    (s.putWalk w d).oracle = s.oracle := rfl
@[simp] theorem putWalk_freeCount (s : State) (w : Walk) (d : Device) :
    (s.putWalk w d).freeCount = s.freeCount := rfl

/-! ## `State.modifyDevice` -/

@[simp] theorem modifyDevice_params (s : State) (i : Nat) (f : Device → Device) :
    (s.modifyDevice i f).params = s.params := rfl
@[simp] theorem modifyDevice_host (s : State) (i : Nat) (f : Device → Device) :
    (s.modifyDevice i f).host = s.host := rfl
@[simp] theorem modifyDevice_devices (s : State) (i : Nat) (f : Device → Device) :
    (s.modifyDevice i f).devices = s.devices.modify i f := rfl
@[simp] theorem modifyDevice_walk (s : State) (i : Nat) (f : Device → Device) :
    (s.modifyDevice i f).walk = s.walk := rfl
@[simp] theorem modifyDevice_line (s : State) (i : Nat) (f : Device → Device) :
    (s.modifyDevice i f).line = s.line := rfl
@[simp] theorem modifyDevice_replies (s : State) (i : Nat) (f : Device → Device) :
    (s.modifyDevice i f).replies = s.replies := rfl
@[simp] theorem modifyDevice_inFlight (s : State) (i : Nat) (f : Device → Device) :
    (s.modifyDevice i f).inFlight = s.inFlight := rfl
@[simp] theorem modifyDevice_inputs (s : State) (i : Nat) (f : Device → Device) :
    (s.modifyDevice i f).inputs = s.inputs := rfl
@[simp] theorem modifyDevice_oracle (s : State) (i : Nat) (f : Device → Device) :
    (s.modifyDevice i f).oracle = s.oracle := rfl
@[simp] theorem modifyDevice_freeCount (s : State) (i : Nat) (f : Device → Device) :
    (s.modifyDevice i f).freeCount = s.freeCount := rfl

/-! ## `hostReturn` -/

@[simp] theorem hostReturn_params (r : HostResult) (s : State) :
    (hostReturn r s).params = s.params := rfl
@[simp] theorem hostReturn_devices (r : HostResult) (s : State) :
    (hostReturn r s).devices = s.devices := rfl
@[simp] theorem hostReturn_walk (r : HostResult) (s : State) :
    (hostReturn r s).walk = s.walk := rfl
@[simp] theorem hostReturn_line (r : HostResult) (s : State) :
    (hostReturn r s).line = s.line := rfl
@[simp] theorem hostReturn_replies (r : HostResult) (s : State) :
    (hostReturn r s).replies = s.replies := rfl
@[simp] theorem hostReturn_inFlight (r : HostResult) (s : State) :
    (hostReturn r s).inFlight = s.inFlight := rfl
@[simp] theorem hostReturn_inputs (r : HostResult) (s : State) :
    (hostReturn r s).inputs = s.inputs := rfl
@[simp] theorem hostReturn_oracle (r : HostResult) (s : State) :
    (hostReturn r s).oracle = s.oracle := rfl
@[simp] theorem hostReturn_freeCount (r : HostResult) (s : State) :
    (hostReturn r s).freeCount = s.freeCount := rfl
@[simp] theorem hostReturn_host_senseMode (r : HostResult) (s : State) :
    (hostReturn r s).host.senseMode = s.host.senseMode := rfl
@[simp] theorem hostReturn_host_assignedCount (r : HostResult) (s : State) :
    (hostReturn r s).host.assignedCount = s.host.assignedCount := rfl
@[simp] theorem hostReturn_host_lastSent (r : HostResult) (s : State) :
    (hostReturn r s).host.lastSent = s.host.lastSent := rfl
@[simp] theorem hostReturn_host_directory (r : HostResult) (s : State) :
    (hostReturn r s).host.directory = s.host.directory := rfl
@[simp] theorem hostReturn_host_mismatchPending (r : HostResult) (s : State) :
    (hostReturn r s).host.mismatchPending = s.host.mismatchPending := rfl
@[simp] theorem hostReturn_host_linkOpen (r : HostResult) (s : State) :
    (hostReturn r s).host.linkOpen = s.host.linkOpen := rfl
@[simp] theorem hostReturn_host_rx (r : HostResult) (s : State) :
    (hostReturn r s).host.rx = s.host.rx := rfl
@[simp] theorem hostReturn_host_phase (r : HostResult) (s : State) :
    (hostReturn r s).host.phase = .idle := rfl
@[simp] theorem hostReturn_host_tasks (r : HostResult) (s : State) :
    (hostReturn r s).host.tasks = [] := rfl
@[simp] theorem hostReturn_host_result (r : HostResult) (s : State) :
    (hostReturn r s).host.result = some r := rfl

/-! ## `Walk.quiet` -/

@[simp] theorem Walk.quiet_dev (w : Walk) :
    (w.quiet).dev = w.dev := rfl
@[simp] theorem Walk.quiet_payload (w : Walk) :
    (w.quiet).payload = w.payload := rfl
@[simp] theorem Walk.quiet_pos (w : Walk) :
    (w.quiet).pos = w.pos := rfl
@[simp] theorem Walk.quiet_resp (w : Walk) :
    (w.quiet).resp = w.resp := rfl
@[simp] theorem Walk.quiet_fstatus (w : Walk) :
    (w.quiet).fstatus = w.fstatus := rfl
@[simp] theorem Walk.quiet_stop (w : Walk) :
    (w.quiet).stop = true := rfl
@[simp] theorem Walk.quiet_suppress (w : Walk) :
    (w.quiet).suppress = true := rfl
@[simp] theorem Walk.quiet_resend (w : Walk) :
    (w.quiet).resend = w.resend := rfl

/-! ## `Walk.overflow` -/

@[simp] theorem Walk.overflow_dev (w : Walk) :
    (w.overflow).dev = w.dev := rfl
@[simp] theorem Walk.overflow_payload (w : Walk) :
    (w.overflow).payload = w.payload := rfl
@[simp] theorem Walk.overflow_pos (w : Walk) :
    (w.overflow).pos = w.pos := rfl
@[simp] theorem Walk.overflow_resp (w : Walk) :
    (w.overflow).resp = w.resp := rfl
@[simp] theorem Walk.overflow_fstatus (w : Walk) :
    (w.overflow).fstatus = .overflow := rfl
@[simp] theorem Walk.overflow_stop (w : Walk) :
    (w.overflow).stop = true := rfl
@[simp] theorem Walk.overflow_suppress (w : Walk) :
    (w.overflow).suppress = w.suppress := rfl
@[simp] theorem Walk.overflow_resend (w : Walk) :
    (w.overflow).resend = w.resend := rfl

/-! ## `Walk.unknown` -/

@[simp] theorem Walk.unknown_dev (w : Walk) :
    (w.unknown).dev = w.dev := rfl
@[simp] theorem Walk.unknown_payload (w : Walk) :
    (w.unknown).payload = w.payload := rfl
@[simp] theorem Walk.unknown_pos (w : Walk) :
    (w.unknown).pos = w.pos := rfl
@[simp] theorem Walk.unknown_resp (w : Walk) :
    (w.unknown).resp = w.resp := rfl
@[simp] theorem Walk.unknown_fstatus (w : Walk) :
    (w.unknown).fstatus = .unknownCommand := rfl
@[simp] theorem Walk.unknown_stop (w : Walk) :
    (w.unknown).stop = true := rfl
@[simp] theorem Walk.unknown_suppress (w : Walk) :
    (w.unknown).suppress = w.suppress := rfl
@[simp] theorem Walk.unknown_resend (w : Walk) :
    (w.unknown).resend = w.resend := rfl

/-! ## `Walk.start` -/

@[simp] theorem Walk.start_dev (i : Nat) (p : List Byte) :
    (Walk.start i p).dev = i := rfl
@[simp] theorem Walk.start_payload (i : Nat) (p : List Byte) :
    (Walk.start i p).payload = p := rfl
@[simp] theorem Walk.start_pos (i : Nat) (p : List Byte) :
    (Walk.start i p).pos = 0 := rfl
@[simp] theorem Walk.start_resp (i : Nat) (p : List Byte) :
    (Walk.start i p).resp = [] := rfl
@[simp] theorem Walk.start_fstatus (i : Nat) (p : List Byte) :
    (Walk.start i p).fstatus = .normal := rfl
@[simp] theorem Walk.start_stop (i : Nat) (p : List Byte) :
    (Walk.start i p).stop = false := rfl
@[simp] theorem Walk.start_suppress (i : Nat) (p : List Byte) :
    (Walk.start i p).suppress = false := rfl
@[simp] theorem Walk.start_resend (i : Nat) (p : List Byte) :
    (Walk.start i p).resend = false := rfl

/-! ## `deviceReset` (70_reset_and_hazards.md R240) -/

@[simp] theorem deviceReset_cfg (d : Device) :
    (deviceReset d).cfg = d.cfg := rfl
@[simp] theorem deviceReset_nodeId (d : Device) :
    (deviceReset d).nodeId = ADDR_UNASSIGNED := rfl
@[simp] theorem deviceReset_senseOut (d : Device) :
    (deviceReset d).senseOut = false := rfl
@[simp] theorem deviceReset_systemSwitches (d : Device) :
    (deviceReset d).systemSwitches = 0 := rfl
@[simp] theorem deviceReset_switches (d : Device) :
    (deviceReset d).switches = List.replicate d.switches.length 0 := rfl
@[simp] theorem deviceReset_coinSlots (d : Device) :
    (deviceReset d).coinSlots = List.replicate d.coinSlots.length 0 := rfl
@[simp] theorem deviceReset_coinCondition (d : Device) :
    (deviceReset d).coinCondition = List.replicate d.coinCondition.length .normal := rfl
@[simp] theorem deviceReset_outputSlots (d : Device) :
    (deviceReset d).outputSlots = List.replicate d.outputSlots.length 0 := rfl
@[simp] theorem deviceReset_analog (d : Device) :
    (deviceReset d).analog = List.replicate d.analog.length 0 := rfl
@[simp] theorem deviceReset_lastSent (d : Device) :
    (deviceReset d).lastSent = none := rfl
@[simp] theorem deviceReset_misconfigFault (d : Device) :
    (deviceReset d).misconfigFault = d.misconfigFault := rfl
@[simp] theorem deviceReset_rx (d : Device) :
    (deviceReset d).rx = d.rx := rfl

/-! ## `Device.powerUp` -/

@[simp] theorem Device.powerUp_cfg (c : DevConfig) :
    (Device.powerUp c).cfg = c := rfl
@[simp] theorem Device.powerUp_nodeId (c : DevConfig) :
    (Device.powerUp c).nodeId = ADDR_UNASSIGNED := rfl
@[simp] theorem Device.powerUp_senseOut (c : DevConfig) :
    (Device.powerUp c).senseOut = false := rfl
@[simp] theorem Device.powerUp_systemSwitches (c : DevConfig) :
    (Device.powerUp c).systemSwitches = 0 := rfl
@[simp] theorem Device.powerUp_switches (c : DevConfig) :
    (Device.powerUp c).switches = List.replicate c.switchCfg.size 0 := rfl
@[simp] theorem Device.powerUp_coinSlots (c : DevConfig) :
    (Device.powerUp c).coinSlots = List.replicate c.coinCfg.size 0 := rfl
@[simp] theorem Device.powerUp_coinCondition (c : DevConfig) :
    (Device.powerUp c).coinCondition = List.replicate c.coinCfg.size .normal := rfl
@[simp] theorem Device.powerUp_outputSlots (c : DevConfig) :
    (Device.powerUp c).outputSlots = List.replicate c.outputCfg.size 0 := rfl
@[simp] theorem Device.powerUp_analog (c : DevConfig) :
    (Device.powerUp c).analog = List.replicate c.analogCfg.size 0 := rfl
@[simp] theorem Device.powerUp_lastSent (c : DevConfig) :
    (Device.powerUp c).lastSent = none := rfl
@[simp] theorem Device.powerUp_misconfigFault (c : DevConfig) :
    (Device.powerUp c).misconfigFault = false := rfl
@[simp] theorem Device.powerUp_rx (c : DevConfig) :
    (Device.powerUp c).rx = .powerUp false := rfl

/-! ## `Receiver.reset` (70_reset_and_hazards.md R243) -/

@[simp] theorem Receiver.reset_phase (r : Receiver) :
    (r.reset).phase = .idle := rfl
@[simp] theorem Receiver.reset_esc (r : Receiver) :
    (r.reset).esc = false := rfl
@[simp] theorem Receiver.reset_addr (r : Receiver) :
    (r.reset).addr = r.addr := rfl
@[simp] theorem Receiver.reset_len (r : Receiver) :
    (r.reset).len = r.len := rfl
@[simp] theorem Receiver.reset_status (r : Receiver) :
    (r.reset).status = none := rfl
@[simp] theorem Receiver.reset_payload (r : Receiver) :
    (r.reset).payload = [] := rfl
@[simp] theorem Receiver.reset_sum (r : Receiver) :
    (r.reset).sum = 0 := rfl
@[simp] theorem Receiver.reset_expectStatus (r : Receiver) :
    (r.reset).expectStatus = r.expectStatus := rfl

/-! ## `Receiver.powerUp` -/

@[simp] theorem Receiver.powerUp_phase (e : Bool) :
    (Receiver.powerUp e).phase = .idle := rfl
@[simp] theorem Receiver.powerUp_esc (e : Bool) :
    (Receiver.powerUp e).esc = false := rfl
@[simp] theorem Receiver.powerUp_addr (e : Bool) :
    (Receiver.powerUp e).addr = 0 := rfl
@[simp] theorem Receiver.powerUp_len (e : Bool) :
    (Receiver.powerUp e).len = 0 := rfl
@[simp] theorem Receiver.powerUp_status (e : Bool) :
    (Receiver.powerUp e).status = none := rfl
@[simp] theorem Receiver.powerUp_payload (e : Bool) :
    (Receiver.powerUp e).payload = [] := rfl
@[simp] theorem Receiver.powerUp_sum (e : Bool) :
    (Receiver.powerUp e).sum = 0 := rfl
@[simp] theorem Receiver.powerUp_expectStatus (e : Bool) :
    (Receiver.powerUp e).expectStatus = e := rfl

end Sys2Proof.Machine
end

