-- ==== Sys2Proof/Laws/Buffers.lean ====
section
/-! SUPPORT. The boards' buffers and the host's directory keep their canonical form: every access keeps the configured
length (20_memory.md R60, R68), the directory its strictly rising keys (10_state.md R40). -/

namespace Sys2Proof.Machine

/-- A read inside the buffer gives exactly the bytes asked for. -/
theorem memRead_length {buf : List Byte} {i n : Nat} (h : i + n ≤ buf.length) : (memRead buf i n).length = n := by
  simp [memRead]; omega

/-- A write inside the buffer keeps its length. -/
theorem memWrite_length {buf : List Byte} {i : Nat} {v : List Byte} (h : i + v.length ≤ buf.length) :
    (memWrite buf i v).length = buf.length := by
  simp [memWrite]; omega

/-- A read after a write to the same place gives what was written. -/
theorem memRead_memWrite_self {buf : List Byte} {i : Nat} {v : List Byte} (h : i + v.length ≤ buf.length) :
    memRead (memWrite buf i v) i v.length = v := by
  have hi : min i buf.length = i := by omega
  simp [memRead, memWrite, hi]

/-- A write leaves every byte outside it alone. -/
theorem memWrite_getElem?_outside {buf : List Byte} {i j : Nat} {v : List Byte} (h : i + v.length ≤ buf.length)
    (hj : j < i ∨ i + v.length ≤ j) : (memWrite buf i v)[j]? = buf[j]? := by
  have hi : min i buf.length = i := by omega
  simp only [memWrite, List.getElem?_append, List.length_append, List.length_take, hi]
  rcases hj with hj | hj
  · rw [if_pos (by omega), if_pos hj, List.getElem?_take_of_lt hj]
  · rw [if_neg (by omega), List.getElem?_drop]
    congr 1; omega

/-- A poll write keeps every buffer's length and everything that is no buffer of the task. -/
theorem pollDevice_keeps {d d' : Device} {p : PollWrite} (h : pollDevice d p = some d') :
    d'.cfg = d.cfg ∧ d'.nodeId = d.nodeId ∧ d'.senseOut = d.senseOut ∧ d'.outputSlots = d.outputSlots ∧
      d'.lastSent = d.lastSent ∧ d'.misconfigFault = d.misconfigFault ∧ d'.rx = d.rx ∧
      d'.switches.length = d.switches.length ∧ d'.coinSlots.length = d.coinSlots.length ∧
      d'.coinCondition.length = d.coinCondition.length ∧ d'.analog.length = d.analog.length := by
  cases p <;> simp only [pollDevice] at h <;> (try split at h) <;> cases h <;> simp_all [memWrite_length]

theorem directoryInsert_keys {n : Byte} {b : BoardInfo} {dir : List (Byte × BoardInfo)} {k : Byte}
    (h : k ∈ (directoryInsert n b dir).map Prod.fst) : k = n ∨ k ∈ dir.map Prod.fst := by
  induction dir with
  | nil => simpa [directoryInsert] using h
  | cons e rest ih =>
    obtain ⟨m, c⟩ := e
    simp only [directoryInsert] at h
    split at h
    · simpa using h
    · split at h
      · simp only [List.map_cons, List.mem_cons] at h ⊢
        rcases h with h | h <;> simp [h]
      · simp only [List.map_cons, List.mem_cons] at h ⊢
        rcases h with h | h
        · simp [h]
        · rcases ih h with h | h <;> simp [h]

/-- An insertion keeps the directory's keys strictly rising. -/
theorem directoryInsert_sorted {n : Byte} {b : BoardInfo} {dir : List (Byte × BoardInfo)}
    (h : (dir.map (fun e => e.1.toNat)).Pairwise (· < ·)) :
    ((directoryInsert n b dir).map (fun e => e.1.toNat)).Pairwise (· < ·) := by
  induction dir with
  | nil => simp [directoryInsert]
  | cons e rest ih =>
    obtain ⟨m, c⟩ := e
    simp only [List.map_cons, List.pairwise_cons, List.mem_map, forall_exists_index, and_imp] at h
    obtain ⟨hm, hr⟩ := h
    simp only [directoryInsert]
    split
    · rename_i hlt
      simp only [List.map_cons, List.pairwise_cons, List.mem_cons, List.mem_map]
      refine ⟨?_, ?_, hr⟩
      · rintro a (rfl | ⟨x, hx, rfl⟩)
        · exact hlt
        · exact Nat.lt_trans hlt (hm _ x hx rfl)
      · rintro a ⟨x, hx, rfl⟩
        exact hm _ x hx rfl
    · rename_i hge
      split
      · rename_i heq
        subst heq
        simp only [List.map_cons, List.pairwise_cons, List.mem_map]
        exact ⟨by rintro a ⟨x, hx, rfl⟩; exact hm _ x hx rfl, hr⟩
      · rename_i hne
        have hlt : m.toNat < n.toNat := by
          have : m.toNat ≠ n.toNat := fun hh => hne (BitVec.eq_of_toNat_eq hh.symm)
          omega
        simp only [List.map_cons, List.pairwise_cons, List.mem_map]
        refine ⟨?_, ih hr⟩
        rintro a ⟨x, hx, rfl⟩
        rcases directoryInsert_keys (List.mem_map_of_mem (f := Prod.fst) hx) with hk | hk
        · rw [hk]; exact hlt
        · obtain ⟨y, hy, hy'⟩ := List.mem_map.1 hk
          rw [← hy']; exact hm _ y hy rfl

/-- An insertion adds the record under its node and keeps the others. -/
theorem mem_directoryInsert {n : Byte} {b : BoardInfo} {dir : List (Byte × BoardInfo)} {e : Byte × BoardInfo}
    (h : e ∈ directoryInsert n b dir) : e = (n, b) ∨ e ∈ dir := by
  induction dir with
  | nil => simpa [directoryInsert] using h
  | cons x rest ih =>
    obtain ⟨m, c⟩ := x
    simp only [directoryInsert] at h
    split at h
    · simpa using h
    · split at h
      · rcases List.mem_cons.1 h with h | h
        · exact .inl h
        · exact .inr (List.mem_cons_of_mem _ h)
      · rcases List.mem_cons.1 h with h | h
        · exact .inr (h ▸ List.mem_cons_self)
        · rcases ih h with h | h
          · exact .inl h
          · exact .inr (List.mem_cons_of_mem _ h)

end Sys2Proof.Machine
end

