-- ==== Sys2Proof/Laws/Codec.lean ====
section
/-! SUPPORT. What the codec's operations do (40_codec.md). -/

namespace Sys2Proof.Machine

/-! ## Checksum -/

@[simp] theorem checksumOf_nil : checksumOf [] = 0 := rfl

/-- The checksum grows byte by byte, mod 256. -/
theorem checksumOf_append_one (s : List Byte) (v : Byte) : checksumOf (s ++ [v]) = checksumOf s + v := by
  simp only [checksumOf, List.map_append, List.map_cons, List.map_nil, List.sum_append, List.sum_cons,
    List.sum_nil, Nat.add_zero]
  rw [BitVec.ofNat_add, BitVec.ofNat_toNat, BitVec.setWidth_eq]

/-! ## Escape -/

theorem escape_sync : escape SYNC = [0xD0, 0xDF] := by decide
theorem escape_mark : escape MARK = [0xD0, 0xCF] := by decide

theorem escape_other {b : Byte} (h : b ≠ SYNC) (h' : b ≠ MARK) : escape b = [b] := by
  simp [escape, h, h']

theorem sync_not_mem_escape (b : Byte) : SYNC ∉ escape b := by
  by_cases h : b = SYNC
  · subst h; decide
  · by_cases h' : b = MARK
    · subst h'; decide
    · simp [escape_other h h', Ne.symm h]

theorem escape_length_le (b : Byte) : (escape b).length ≤ 2 := by
  unfold escape; split <;> simp

theorem sync_not_mem_flatMap_escape (l : List Byte) : SYNC ∉ l.flatMap escape := by
  simp only [List.mem_flatMap, not_exists, not_and]
  exact fun b _ => sync_not_mem_escape b

theorem flatMap_escape_length_le (l : List Byte) : (l.flatMap escape).length ≤ 2 * l.length := by
  induction l with
  | nil => simp
  | cons b l ih =>
    have := escape_length_le b
    simp only [List.flatMap_cons, List.length_append, List.length_cons]; omega

/-! ## Unescape -/

/-- A MARK and any byte but SYNC stand for the byte after it (40_codec.md R114). -/
theorem unescape_pair {b : Byte} {rest u : List Byte} (hb : b ≠ SYNC) (h : unescape false rest = .ok u) :
    unescape false (MARK :: b :: rest) = .ok ((b + 1) :: u) := by
  have hm : MARK ≠ SYNC := by decide
  simp [unescape, hm, hb, h]

theorem unescape_escape_append (b : Byte) (rest u : List Byte) (h : unescape false rest = .ok u) :
    unescape false (escape b ++ rest) = .ok (b :: u) := by
  by_cases hs : b = SYNC
  · subst hs
    exact unescape_pair (b := 0xDF) (by decide) h
  · by_cases hm : b = MARK
    · subst hm
      exact unescape_pair (b := 0xCF) (by decide) h
    · simp [escape_other hs hm, unescape, hs, hm, h]

/-- Unescape undoes Escape, byte by byte. -/
theorem unescape_flatMap_escape (l : List Byte) : unescape false (l.flatMap escape) = .ok l := by
  induction l with
  | nil => rfl
  | cons b l ih => rw [List.flatMap_cons]; exact unescape_escape_append b _ _ ih

/-! ## Encode -/

theorem body_length (f : Frame) : f.body.length = f.lengthByte + 2 := by
  simp [Frame.body, Frame.lengthByte]; omega

@[simp] theorem body_make (a : Byte) (st : Option Byte) (p : List Byte) :
    (Frame.make a st p).body = a :: BitVec.ofNat 8 (p.length + st.toList.length) :: (st.toList ++ p) := rfl

@[simp] theorem lengthByte_make (a : Byte) (st : Option Byte) (p : List Byte) :
    (Frame.make a st p).lengthByte = p.length + st.toList.length := rfl

/-- Encode answers exactly when the length byte is legal, and then with the escaped bytes after one SYNC. -/
theorem encodeFrame_eq_some {f : Frame} {w : List Byte} :
    encodeFrame f = some w ↔
      f.lengthByte ≤ MAX_LEN ∧ w = SYNC :: (f.body ++ [checksumOf f.body]).flatMap escape := by
  unfold encodeFrame
  split
  · simp; omega
  · simp only [Option.some.injEq]; constructor
    · rintro rfl; exact ⟨by omega, rfl⟩
    · exact fun h => h.2.symm

theorem encodeFrame_of_le {f : Frame} (h : f.lengthByte ≤ MAX_LEN) :
    encodeFrame f = some (SYNC :: (f.body ++ [checksumOf f.body]).flatMap escape) :=
  encodeFrame_eq_some.2 ⟨h, rfl⟩

/-- Whatever Encode answers is in wire form. -/
theorem wireForm_of_encodeFrame {f : Frame} {w : List Byte} (h : encodeFrame f = some w) : WireForm w := by
  obtain ⟨hl, rfl⟩ := encodeFrame_eq_some.1 h
  refine ⟨rfl, sync_not_mem_flatMap_escape _, ?_⟩
  have h1 := flatMap_escape_length_le (f.body ++ [checksumOf f.body])
  have h2 := body_length f
  simp only [List.length_append, List.length_cons, List.length_nil, MAX_LEN] at *
  omega

/-- What a frame that Decode accepts from a host looks like (10_state.md R23). -/
theorem Frame.verified_iff {f : Frame} :
    f.verified = true ↔ f.statusCode = none ∧ f.payload.length ≤ MAX_LEN ∧ f.checksum = checksumOf f.body := by
  cases h : f.statusCode <;> simp [Frame.verified, Frame.lengthByte, h]

end Sys2Proof.Machine
end

