-- ==== Sys2Proof/Laws/Ops.lean ====
section
/-! SUPPORT. What each shared operation can do, said once (41_interpreter.md section 2, 60_exceptions.md R226, R228). -/

namespace Sys2Proof.Machine

/-! ## Senses -/

@[simp] theorem senseRead_senseLevel (p : SensePolarity) (b : Bool) : senseRead p (senseLevel p b) = b := by
  cases p <;> simp [senseRead, senseLevel]

/-- `SenseIn()` is `downstream_pending`, whatever the polarity (60_exceptions.md R227, R230). -/
@[simp] theorem senseIn_eq (s : State) (i : Nat) : s.senseIn i = downstreamPending s.devices i := by
  simp [State.senseIn]

@[simp] theorem hostSense_eq (s : State) : s.hostSense = nearestPending s.devices := by simp [State.hostSense]

/-! ## Commit, Short, Abort -/

theorem commit_of_fits {r : List Byte} {n : Nat} {w : Walk} {d d' : Device}
    (h : w.resp.length + r.length ≤ MAX_RESP) :
    commit r n w d d' = ({ w with resp := w.resp ++ r, pos := w.pos + 1 + n }, d') := by
  rw [commit, if_neg (by omega)]

theorem commit_of_overflow {r : List Byte} {n : Nat} {w : Walk} {d d' : Device}
    (h : MAX_RESP < w.resp.length + r.length) : commit r n w d d' = (w.overflow, d) := by
  rw [commit, if_pos h]

/-- Commit applies the command whole, or not at all (R145). -/
theorem commit_cases (r : List Byte) (n : Nat) (w : Walk) (d d' : Device) :
    (w.resp.length + r.length ≤ MAX_RESP ∧
      commit r n w d d' = ({ w with resp := w.resp ++ r, pos := w.pos + 1 + n }, d')) ∨
    (MAX_RESP < w.resp.length + r.length ∧ commit r n w d d' = (w.overflow, d)) := by
  by_cases h : w.resp.length + r.length ≤ MAX_RESP
  · exact .inl ⟨h, commit_of_fits h⟩
  · exact .inr ⟨by omega, commit_of_overflow (by omega)⟩

theorem short_of_fits {reports : ReportCodes} {w : Walk} (h : w.resp.length + 1 ≤ MAX_RESP) :
    w.short reports = { w with resp := w.resp ++ [reports.dataError], stop := true } := by
  rw [Walk.short, if_neg (by omega)]

theorem short_of_overflow {reports : ReportCodes} {w : Walk} (h : MAX_RESP < w.resp.length + 1) :
    w.short reports = w.overflow := by
  rw [Walk.short, if_pos h]

/-! ## Running a command -/

theorem runCommand_of {s : State} {w : Walk} {d : Device} (h : Interpreting s w d)
    (body : CmdEnv → Walk → Device → Walk × Device) :
    runCommand s body =
      .next (s.putWalk (body ⟨s.params, s.senseIn w.dev⟩ w d).1 (body ⟨s.params, s.senseIn w.dev⟩ w d).2) := by
  simp [runCommand, h.walk, h.board]

/-- A command that answers a next state ran on the interpreting board, and wrote back that board and the working
registers only. -/
theorem runCommand_next {s t : State} {body : CmdEnv → Walk → Device → Walk × Device}
    (h : runCommand s body = .next t) :
    ∃ w d, Interpreting s w d ∧
      t = s.putWalk (body ⟨s.params, s.senseIn w.dev⟩ w d).1 (body ⟨s.params, s.senseIn w.dev⟩ w d).2 := by
  unfold runCommand at h
  split at h
  · cases h
  · rename_i w hw
    split at h
    · cases h
    · rename_i d hd
      exact ⟨w, d, ⟨hw, hd⟩, (Host.Outcome.next.inj h).symm⟩

/-! ## Send -/

theorem deliveries_bound {boards : Nat} {sender : Agent} {w : List Byte} {rs : List (List Byte)} {e : Nat × Byte}
    (h : e ∈ deliveries boards sender w rs) : e.1 < boards := by
  simp only [deliveries, List.mem_flatMap, List.mem_range] at h
  obtain ⟨j, hj, h⟩ := h
  split at h
  · simp at h
  · obtain ⟨b, _, rfl⟩ := List.mem_map.1 h
    exact hj

@[simp] theorem bytesFor_nil (j : Nat) : bytesFor [] j = [] := rfl

theorem bytesFor_append (l m : List (Nat × Byte)) (j : Nat) : bytesFor (l ++ m) j = bytesFor l j ++ bytesFor m j := by
  simp [bytesFor]

theorem bytesFor_map (w : List Byte) (i j : Nat) :
    bytesFor (w.map (fun b => (i, b))) j = if i = j then w else [] := by
  by_cases h : i = j
  · subst h
    simp [bytesFor, List.filter_map, Function.comp_def]
  · simp [bytesFor, List.filter_map, Function.comp_def, h]

/-- Each board of the chain but the sender gets the bytes sent, where the oracle changes nothing (60_exceptions.md R228). -/
theorem bytesFor_deliveries (boards : Nat) (sender : Agent) (w : List Byte) (j : Nat) :
    bytesFor (deliveries boards sender w []) j = if j < boards ∧ sender ≠ .device j then w else [] := by
  induction boards with
  | zero => simp [deliveries]
  | succ n ih =>
    have hd : deliveries (n + 1) sender w [] =
        deliveries n sender w [] ++ (if sender = .device n then [] else w.map (fun b => (n, b))) := by
      simp [deliveries, List.range_succ]
    rw [hd, bytesFor_append, ih]
    by_cases hs : sender = .device n
    · rw [if_pos hs, bytesFor_nil, List.append_nil]
      by_cases hj : j = n
      · subst hj; simp [hs]
      · have : j < n + 1 ↔ j < n := by omega
        simp only [this]
    · rw [if_neg hs, bytesFor_map]
      by_cases hj : n = j
      · subst hj; simp [hs]
      · have : j < n + 1 ↔ j < n := by omega
        simp only [this, if_neg hj, List.append_nil]

/-- With no oracle choice left a `Send` succeeds. -/
theorem transmit_of_noChoice {s : State} (h : s.oracle.sends = []) (a : Agent) (w : List Byte) :
    transmit a w s = (true, { s with line := s.line ++ deliveries s.devices.length a w [] }) := by
  rw [transmit, h]

/-- A `Send` that the oracle fails. -/
theorem transmit_of_writeError {s : State} {rest : List SendChoice} (h : s.oracle.sends = .writeError :: rest)
    (a : Agent) (w : List Byte) :
    transmit a w s = (false, { s with oracle := { s.oracle with sends := rest } }) := by
  rw [transmit, h]

/-- `Send` changes only the line, by bytes for boards of the chain, and the oracle; when it fails it sends nothing. -/
theorem transmit_cases (a : Agent) (w : List Byte) (s : State) :
    ∃ l o, (∀ e ∈ l, e.1 < s.devices.length) ∧ (transmit a w s).2 = { s with line := s.line ++ l, oracle := o } ∧
      ((transmit a w s).1 = false → l = []) := by
  unfold transmit
  split
  · exact ⟨deliveries s.devices.length a w [], s.oracle, fun _ => deliveries_bound, rfl, by simp⟩
  · rename_i c rest _
    cases c with
    | ok =>
      exact ⟨deliveries s.devices.length a w [], { s.oracle with sends := rest }, fun _ => deliveries_bound, rfl,
        by simp⟩
    | writeError => exact ⟨[], { s.oracle with sends := rest }, by simp, by simp, by simp⟩
    | altered rs =>
      exact ⟨deliveries s.devices.length a w rs, { s.oracle with sends := rest }, fun _ => deliveries_bound, rfl,
        by simp⟩

/-- A board's `Send` adds the bytes to the replies when it succeeds. -/
theorem deviceSend_cases (i : Nat) (w : List Byte) (s : State) :
    ∃ l o, (∀ e ∈ l, e.1 < s.devices.length) ∧
      (((deviceSend i w s).1 = true ∧
          (deviceSend i w s).2 = { s with line := s.line ++ l, oracle := o, replies := s.replies ++ [w] }) ∨
        ((deviceSend i w s).1 = false ∧ (deviceSend i w s).2 = { s with oracle := o })) := by
  obtain ⟨l, o, hl, hs, hf⟩ := transmit_cases (.device i) w s
  unfold deviceSend
  split
  · rename_i s' h
    rw [h] at hs
    refine ⟨l, o, hl, .inl ⟨rfl, ?_⟩⟩
    simp only at hs
    rw [hs]
  · rename_i s' h
    rw [h] at hs hf
    simp only [forall_const] at hs hf
    refine ⟨l, o, hl, .inr ⟨rfl, ?_⟩⟩
    rw [hs, hf, List.append_nil]

/-- Sending a reply: it is sent and kept as the board's last frame, or the write failed and only the oracle moved. -/
theorem sendReply_next {i : Nat} {f : Frame} {s t : State} (h : sendReply i f s = .next t) :
    ∃ w l o, encodeFrame f = some w ∧ (∀ e ∈ l, e.1 < s.devices.length) ∧
      (t = { s with line := s.line ++ l, oracle := o, replies := s.replies ++ [w],
                    devices := s.devices.modify i (fun d => { d with lastSent := some w }) } ∨
        t = { s with oracle := o }) := by
  unfold sendReply at h
  split at h
  · cases h
  · rename_i w hw
    obtain ⟨l, o, hl, hc⟩ := deviceSend_cases i w s
    refine ⟨w, l, o, hw, hl, ?_⟩
    split at h
    · rename_i s' hs
      rw [hs] at hc
      simp only [true_and, Bool.true_eq_false, false_and, or_false] at hc
      left
      rw [← Host.Outcome.next.inj h, hc]; rfl
    · rename_i s' hs
      rw [hs] at hc
      simp only [Bool.false_eq_true, false_and, true_and, false_or] at hc
      right
      rw [← Host.Outcome.next.inj h, hc]

/-- The end of a frame: nothing is sent, or the last frame again, or a new reply (R146). -/
theorem finishFrame_next {w : Walk} {s t : State} (h : finishFrame w s = .next t) :
    t = { s with walk := none } ∨
    (w.resend = true ∧ ∃ d b, s.devices[w.dev]? = some d ∧ d.lastSent = some b ∧
      t = (deviceSend w.dev b { s with walk := none }).2) ∨
    (w.resend = false ∧ w.suppress = false ∧ w.warranted = true ∧
      sendReply w.dev (Frame.make ADDR_HOST (some w.fstatus.code) w.resp) { s with walk := none } = .next t) := by
  unfold finishFrame at h
  simp only at h
  split at h
  · rename_i hr
    split at h
    · cases h
    · rename_i d hd
      split at h
      · exact .inl (Host.Outcome.next.inj h).symm
      · rename_i b hb
        exact .inr (.inl ⟨hr, d, b, hd, hb, (Host.Outcome.next.inj h).symm⟩)
  · rename_i hr
    split at h
    · exact .inl (Host.Outcome.next.inj h).symm
    · rename_i hs
      split at h
      · rename_i hw
        exact .inr (.inr ⟨by simpa using hr, by simpa using hs, hw, h⟩)
      · exact .inl (Host.Outcome.next.inj h).symm

end Sys2Proof.Machine
end

