-- ==== Sys2Proof/Laws/Commands.lean ====
section
/-! SUPPORT. What any command can do, said once: to the working registers, and to the interpreting board. -/

namespace Sys2Proof.Machine

/-- What a command can do to the working registers: it responds and goes on after itself, or it stops the walk where it
stands (41_interpreter.md R143, R165). -/
structure WalkEffect (i : Instr) (w w' : Walk) : Prop where
  dev : w'.dev = w.dev
  payload : w'.payload = w.payload
  bound : w.resp.length ≤ MAX_RESP → w'.resp.length ≤ MAX_RESP
  grows : w.resp <+: w'.resp
  progress :
    (w'.stop = w.stop ∧ w'.suppress = w.suppress ∧ w'.resend = w.resend ∧ w'.fstatus = w.fstatus ∧
      w'.pos = w.pos + i.size) ∨
    (w'.stop = true ∧ w'.pos = w.pos ∧ (w'.fstatus = w.fstatus ∨ w'.fstatus = .overflow))

/-- What a command can do to the interpreting board (10_state.md R46). -/
inductive BoardEffect (i : Instr) (d : Device) : Device → Prop where
  | same : BoardEffect i d d
  | misconfigured : BoardEffect i d { d with misconfigFault := true }
  | reset (code : i = .reset (some RESET_ARG)) : BoardEffect i d (deviceReset d)
  | addressed (a : Byte) (lo : DEV_ADDR_MIN.toNat ≤ a.toNat) (hi : a.toNat ≤ DEV_ADDR_MAX.toNat)
      (un : d.nodeId = ADDR_UNASSIGNED) : BoardEffect i d { d with nodeId := a, senseOut := true }
  | coins (slots : List U32) (len : slots.length = d.coinSlots.length) : BoardEffect i d { d with coinSlots := slots }
  | outputs (bytes : List Byte) (len : bytes.length = d.outputSlots.length) :
      BoardEffect i d { d with outputSlots := bytes }

theorem WalkEffect.quiet (i : Instr) (w : Walk) : WalkEffect i w w.quiet :=
  ⟨rfl, rfl, id, List.prefix_rfl, .inr ⟨rfl, rfl, .inl rfl⟩⟩

theorem WalkEffect.overflow (i : Instr) (w : Walk) : WalkEffect i w w.overflow :=
  ⟨rfl, rfl, id, List.prefix_rfl, .inr ⟨rfl, rfl, .inr rfl⟩⟩

theorem WalkEffect.short (i : Instr) (reports : ReportCodes) (w : Walk) : WalkEffect i w (w.short reports) := by
  by_cases h : w.resp.length + 1 ≤ MAX_RESP
  · rw [short_of_fits h]
    exact ⟨rfl, rfl, fun _ => by simpa using h, List.prefix_append _ _, .inr ⟨rfl, rfl, .inl rfl⟩⟩
  · rw [short_of_overflow (by omega)]
    exact .overflow i w

/-- Both effects of a Commit whose effect on the board is one a command can have. -/
theorem commit_effect (i : Instr) (r : List Byte) (n : Nat) (w : Walk) (d d' : Device) (hn : i.size = 1 + n)
    (hd : BoardEffect i d d') :
    WalkEffect i w (commit r n w d d').1 ∧ BoardEffect i d (commit r n w d d').2 := by
  rcases commit_cases r n w d d' with ⟨h, hc⟩ | ⟨h, hc⟩ <;> rw [hc]
  · exact ⟨⟨rfl, rfl, fun _ => by simpa using h, List.prefix_append _ _,
      .inl ⟨rfl, rfl, rfl, rfl, by simp only; omega⟩⟩, hd⟩
  · exact ⟨.overflow i w, .same⟩

theorem abortFrame_effect (i : Instr) (w : Walk) (d : Device) :
    WalkEffect i w (abortFrame w d).1 ∧ BoardEffect i d (abortFrame w d).2 := ⟨.quiet i w, .misconfigured⟩

theorem updateCoin_effect (i : Instr) (change : U32 → U16 → U32) (args : Option (Byte × U16)) (e : CmdEnv)
    (w : Walk) (d : Device) (hi : ∀ a, args = some a → i.size = 4) :
    WalkEffect i w (updateCoin change args e w d).1 ∧ BoardEffect i d (updateCoin change args e w d).2 := by
  unfold updateCoin
  split
  · exact ⟨.short i _ w, .same⟩
  · rename_i slot amount
    have hs := hi _ rfl
    split
    · exact abortFrame_effect i w d
    · split
      · exact commit_effect i _ 3 w d d hs .same
      · split
        · exact abortFrame_effect i w d
        · exact commit_effect i _ 3 w d _ hs (.coins _ (by simp))

/-- Every command that answers a next state changed the working registers and the interpreting board, in the ways
listed, and nothing else. -/
theorem exec_effect {i : Instr} {s t : State} (h : exec i s = .next t) :
    ∃ w d w' d', Interpreting s w d ∧ t = s.putWalk w' d' ∧ WalkEffect i w w' ∧ BoardEffect i d d' := by
  cases i with
  | ioident | cmdrev | jvsrev | comver | featchk =>
    simp only [exec, execIoident, execCmdrev, execJvsrev, execComver, execFeatchk] at h
    obtain ⟨w, d, hi, rfl⟩ := runCommand_next h
    exact ⟨w, d, _, _, hi, rfl, commit_effect _ _ 0 w d d rfl .same⟩
  | readswitch args =>
    simp only [exec, execReadswitch] at h
    obtain ⟨w, d, hi, rfl⟩ := runCommand_next h
    refine ⟨w, d, _, _, hi, rfl, ?_⟩
    split
    · exact ⟨.short _ _ w, .same⟩
    · split
      · exact abortFrame_effect _ w d
      · split
        · exact commit_effect _ _ 2 w d d rfl .same
        · split
          · exact abortFrame_effect _ w d
          · exact commit_effect _ _ 2 w d d rfl .same
  | readcoin count =>
    simp only [exec, execReadcoin] at h
    obtain ⟨w, d, hi, rfl⟩ := runCommand_next h
    refine ⟨w, d, _, _, hi, rfl, ?_⟩
    split
    · exact ⟨.short _ _ w, .same⟩
    · split
      · exact abortFrame_effect _ w d
      · split
        · exact commit_effect _ _ 1 w d d rfl .same
        · split
          · exact abortFrame_effect _ w d
          · exact commit_effect _ _ 1 w d d rfl .same
  | dataretry =>
    simp only [exec, execDataretry] at h
    obtain ⟨w, d, hi, rfl⟩ := runCommand_next h
    refine ⟨w, d, _, _, hi, rfl, ?_⟩
    split
    · exact ⟨.quiet _ w, .same⟩
    · exact ⟨⟨rfl, rfl, id, List.prefix_rfl, .inr ⟨rfl, rfl, .inl rfl⟩⟩, .same⟩
  | coindecrease args =>
    simp only [exec, execCoindecrease] at h
    obtain ⟨w, d, hi, rfl⟩ := runCommand_next h
    exact ⟨w, d, _, _, hi, rfl, updateCoin_effect _ _ _ _ w d (by rintro ⟨a, b⟩ rfl; rfl)⟩
  | genericout1 data =>
    simp only [exec, execGenericout1] at h
    obtain ⟨w, d, hi, rfl⟩ := runCommand_next h
    refine ⟨w, d, _, _, hi, rfl, ?_⟩
    split
    · exact ⟨.short _ _ w, .same⟩
    · rename_i bytes
      have hs : (Instr.genericout1 (some bytes)).size = 1 + (1 + bytes.length) := by
        simp [Instr.size, encode, encodeWith, bytesCounted]; omega
      split
      · exact abortFrame_effect _ w d
      · split
        · exact commit_effect _ _ _ w d d hs .same
        · split
          · exact abortFrame_effect _ w d
          · exact commit_effect _ _ _ w d _ hs (.outputs _ (memWrite_length (by omega)))
  | coinincrease args =>
    simp only [exec, execCoinincrease] at h
    obtain ⟨w, d, hi, rfl⟩ := runCommand_next h
    exact ⟨w, d, _, _, hi, rfl, updateCoin_effect _ _ _ _ w d (by rintro ⟨a, b⟩ rfl; rfl)⟩
  | reset literal =>
    simp only [exec, execReset] at h
    obtain ⟨w, d, hi, rfl⟩ := runCommand_next h
    refine ⟨w, d, _, _, hi, rfl, .quiet _ w, ?_⟩
    split
    · rename_i hl
      exact .reset (by rw [hl])
    · exact .same
  | setaddr address =>
    simp only [exec, execSetaddr] at h
    obtain ⟨w, d, hi, rfl⟩ := runCommand_next h
    refine ⟨w, d, _, _, hi, rfl, ?_⟩
    split
    · exact ⟨.short _ _ w, .same⟩
    · split
      · exact ⟨.quiet _ w, .same⟩
      · rename_i hun
        split
        · exact ⟨.quiet _ w, .same⟩
        · split
          · exact commit_effect _ _ 1 w d d rfl .same
          · exact commit_effect _ _ 1 w d _ rfl
              (.addressed _ (by omega) (by omega) (by simpa using hun))

/-- A command always answers a next state while its board interprets a frame. -/
theorem exec_answers {s : State} {w : Walk} {d : Device} (h : Interpreting s w d) (i : Instr) :
    ∃ t, exec i s = .next t := by
  cases i <;> simp only [exec, execIoident, execCmdrev, execJvsrev, execComver, execFeatchk, execReadswitch,
    execReadcoin, execDataretry, execCoindecrease, execGenericout1, execCoinincrease, execReset, execSetaddr] <;>
    exact ⟨_, runCommand_of h _⟩

end Sys2Proof.Machine
end

