-- ==== Sys2Proof/Laws/Decode.lean ====
section
/-! SUPPORT. Small facts of the decoder and the encoder (30_encoding.md R87, R92; 10_state.md R22). -/

namespace Sys2Proof

theorem amountHi_amountOf (h l : Byte) : amountHi (amountOf h l) = h := by
  apply BitVec.eq_of_getLsbD_eq
  intro i hi
  have h8 : 8 + i < 16 := by omega
  have h16 : i < 16 := by omega
  simp [amountHi, amountOf, hi, h8, h16]

theorem amountLo_amountOf (h l : Byte) : amountLo (amountOf h l) = l := by
  apply BitVec.eq_of_getLsbD_eq
  intro i hi
  simp [amountLo, amountOf, hi]

theorem amountOf_hi_lo (a : U16) : amountOf (amountHi a) (amountLo a) = a := by
  apply BitVec.eq_of_getLsbD_eq
  intro i hi
  by_cases h : i < 8
  · simp [amountHi, amountLo, amountOf, h, hi]
  · have h2 : i - 8 < 8 := by omega
    have h3 : 8 + (i - 8) = i := by omega
    simp [amountHi, amountLo, amountOf, h, hi, h2, h3]

theorem takeCounted_eq_some {bs d : List Byte} (h : takeCounted bs = some d) :
    ∃ n rest, bs = n :: rest ∧ d = rest.take n.toNat ∧ n.toNat ≤ rest.length := by
  unfold takeCounted at h
  split at h
  · rename_i n rest
    split at h
    · exact ⟨n, rest, rfl, (Option.some.inj h).symm, by assumption⟩
    · cases h
  · cases h

/-- The decoder never reads past the end of the payload. -/
theorem decode_size {t : CodeTable} {bs : List Byte} {i : Instr} (h : decode t bs = .ok i) : i.size ≤ bs.length := by
  have k1 : ∀ l : List Byte, (bytes1 (take1 l)).length ≤ l.length := by
    intro l
    match l with
    | [] => simp [take1, bytes1]
    | _ :: _ => simp [take1, bytes1]
  have k2 : ∀ l : List Byte, (bytes2 (take2 l)).length ≤ l.length := by
    intro l
    match l with
    | [] => simp [take2, bytes2]
    | [_] => simp [take2, bytes2]
    | _ :: _ :: _ => simp [take2, bytes2]
  have k3 : ∀ l : List Byte, (bytesSlotAmount (takeSlotAmount l)).length ≤ l.length := by
    intro l
    match l with
    | [] => simp [takeSlotAmount, bytesSlotAmount]
    | [_] => simp [takeSlotAmount, bytesSlotAmount]
    | [_, _] => simp [takeSlotAmount, bytesSlotAmount]
    | _ :: _ :: _ :: _ => simp [takeSlotAmount, bytesSlotAmount]
  have k4 : ∀ l : List Byte, (bytesCounted (takeCounted l)).length ≤ l.length := by
    intro l
    match hd : takeCounted l with
    | none => simp [bytesCounted]
    | some d =>
      obtain ⟨n, rest, rfl, rfl, hn⟩ := takeCounted_eq_some hd
      simp [bytesCounted]
  match bs with
  | [] => cases h
  | c :: args =>
    have one : ∀ {p : Prop} [Decidable p] {a : Instr} {x : Except Reject Instr},
        (if p then .ok a else x) = .ok i → a = i ∨ x = .ok i := by
      intro p _ a x h
      by_cases hp : p
      · rw [if_pos hp] at h
        exact .inl (Except.ok.inj h)
      · rw [if_neg hp] at h
        exact .inr h
    iterate 13
      rcases one h with rfl | h
      · first
          | exact Nat.succ_le_succ (Nat.zero_le _)
          | exact Nat.succ_le_succ (k1 _)
          | exact Nat.succ_le_succ (k2 _)
          | exact Nat.succ_le_succ (k3 _)
          | exact Nat.succ_le_succ (k4 _)
    cases h

end Sys2Proof
end

