-- ==== Sys2Proof/Laws/Receiver.lean ====
section
/-! SUPPORT. What a Receiver step does (40_codec.md R118 to R123): it keeps the legal form, and a frame it emits is
verified. -/

namespace Sys2Proof.Machine

theorem Receiver.powerUp_wf (e : Bool) : (Receiver.powerUp e).Wf e := by
  constructor <;> simp [MAX_LEN]

theorem Receiver.Wf.reset {r : Receiver} {e : Bool} (h : r.Wf e) : r.reset.Wf e := by
  have := h.role
  constructor <;> simp [MAX_LEN, this]

theorem Receiver.Wf.noEsc {r : Receiver} {e : Bool} (h : r.Wf e) : Receiver.Wf { r with esc := false } e :=
  ⟨h.role, fun _ => rfl, h.bound, h.early, h.length, h.inStatus, h.stored, h.inPayload, h.inSum, h.checksum⟩

theorem Receiver.Wf.startFrame {r : Receiver} {e : Bool} (h : r.Wf e) : (r.startFrame).1.Wf e := by
  have := h.role
  constructor <;> simp [Receiver.startFrame, Receiver.covered, MAX_LEN, this]

theorem Receiver.Wf.toIdle {r : Receiver} {e : Bool} (h : r.Wf e) (hesc : r.esc = false) :
    Receiver.Wf { r with phase := .idle } e := by
  have := h.role
  have := h.bound
  constructor <;> simp_all

theorem Receiver.Wf.store {r : Receiver} {e : Bool} (h : r.Wf e) (hesc : r.esc = false) (v : Byte) :
    (r.store v).1.Wf e := by
  have hr := h.role
  cases hp : r.phase with
  | idle => simpa [Receiver.store, hp] using h
  | addr =>
    have he := h.early (.inl hp)
    have hc := h.checksum (by simp [hp])
    constructor <;> simp_all [Receiver.store, Receiver.covered, MAX_LEN, checksumOf]
  | len =>
    have he := h.early (.inr (.inl hp))
    have hc := h.checksum (by simp [hp])
    simp only [Receiver.store, hp]
    split
    · exact h.toIdle hesc
    · rename_i hv
      simp only [Receiver.covered, hp] at hc
      have hsum : r.sum + v = checksumOf [r.addr, v] := by
        rw [hc]; exact (checksumOf_append_one [r.addr] v).symm
      cases e
      · by_cases h0 : v.toNat > 0
        · constructor <;> simp_all [Receiver.covered]
        · constructor <;> simp_all [Receiver.covered]
      · constructor <;> simp_all [Receiver.covered]
        omega
  | status =>
    have he := h.early (.inr (.inr hp))
    have hl := h.length (.inl hp)
    have hst := h.inStatus hp
    have hc := h.checksum (by simp [hp])
    simp only [Receiver.covered, hp] at hc
    have hsum : r.sum + v = checksumOf [r.addr, r.len, v] := by
      rw [hc]; exact (checksumOf_append_one [r.addr, r.len] v).symm
    subst hst
    simp only [Bool.toNat_true] at hl
    by_cases h1 : r.len.toNat > 1
    · constructor <;> simp_all [Receiver.store, Receiver.covered]
    · have h1' : r.len.toNat = 1 := by omega
      simp only [Receiver.store, hp, if_neg h1]
      constructor <;> simp_all [Receiver.covered]
  | payload =>
    have hl := h.length (.inr (.inl hp))
    have hs := h.stored (.inl hp)
    have hi := h.inPayload hp
    have hc := h.checksum (by simp [hp])
    simp only [Receiver.covered, hp] at hc
    have hsum : r.sum + v = checksumOf (r.addr :: r.len :: (r.status.toList ++ (r.payload ++ [v]))) := by
      rw [hc, ← checksumOf_append_one]; simp
    have hb := h.bound
    by_cases h1 : r.payload.length + 1 = r.len.toNat - r.expectStatus.toNat
    · constructor <;> simp_all [Receiver.store, Receiver.covered] <;> omega
    · constructor <;> simp_all [Receiver.store, Receiver.covered] <;> omega
  | sum => simpa [Receiver.store, hp] using h.toIdle hesc

/-- A Receiver step keeps the legal form. -/
theorem Receiver.Wf.step {r : Receiver} {e : Bool} (h : r.Wf e) (b : Byte) : (r.step b).1.Wf e := by
  unfold Receiver.step
  split
  · exact h.startFrame
  · split
    · exact h
    · rename_i hidle
      split
      · exact h.noEsc.store rfl _
      · rename_i hesc
        have hesc : r.esc = false := by simpa using hesc
        split
        · exact ⟨h.role, fun hp => absurd hp hidle, h.bound, h.early, h.length, h.inStatus, h.stored,
            h.inPayload, h.inSum, h.checksum⟩
        · exact h.store hesc _

/-- Feeding bytes keeps the legal form. -/
theorem Receiver.Wf.feed {r : Receiver} {e : Bool} (h : r.Wf e) (bs : List Byte) : (r.feed bs).1.Wf e := by
  induction bs generalizing r with
  | nil => exact h
  | cons b bs ih =>
    have hs := h.step b
    unfold Receiver.feed
    split <;> simp_all

/-- Where a Receiver step emits a frame: the field value is the running checksum, in phase `sum`. -/
theorem Receiver.store_frame {r : Receiver} {v : Byte} {f : Frame} (h : (r.store v).2 = some (.frame f)) :
    r.phase = .sum ∧ v = r.sum ∧ f = ⟨r.addr, r.status, r.payload, v⟩ := by
  cases hp : r.phase with
  | sum =>
    simp only [Receiver.store, hp, Option.some.injEq] at h
    split at h
    · rename_i hv
      exact ⟨rfl, hv, (RxEvent.frame.inj h).symm⟩
    · cases h
  | len =>
    simp only [Receiver.store, hp] at h
    split at h <;> simp at h
  | idle | addr | status | payload => simp [Receiver.store, hp] at h

theorem Receiver.step_frame {r : Receiver} {b : Byte} {f : Frame} (h : (r.step b).2 = some (.frame f)) :
    r.phase = .sum ∧ f = ⟨r.addr, r.status, r.payload, r.sum⟩ := by
  unfold Receiver.step at h
  split at h
  · simp only [Receiver.startFrame] at h
    split at h <;> simp at h
  · split at h
    · simp at h
    · split at h
      · obtain ⟨h1, h2, h3⟩ := store_frame h
        exact ⟨h1, by rw [h3, h2]⟩
      · split at h
        · simp at h
        · obtain ⟨h1, h2, h3⟩ := store_frame h
          exact ⟨h1, by rw [h3, h2]⟩

/-- A frame from a Receiver in legal form has a payload a length byte can give. -/
theorem Receiver.Wf.frame_payload {r : Receiver} {e : Bool} (h : r.Wf e) {b : Byte} {f : Frame}
    (hf : (r.step b).2 = some (.frame f)) : f.payload.length ≤ MAX_LEN := by
  obtain ⟨_, rfl⟩ := step_frame hf
  exact h.bound

end Sys2Proof.Machine
end

