-- ==== Sys2Proof/Laws/Boards.lean ====
section
/-! SUPPORT. What keeps a board and a walk in legal form (10_state.md R21 to R37, R46). -/

namespace Sys2Proof.Machine

/-! ## A board -/

theorem Device.powerUp_wf {c : DevConfig} (h : c.wf = true) : (Device.powerUp c).Wf := by
  constructor <;> simp [Device.powerUp, h, Receiver.powerUp_wf] <;> decide

theorem deviceReset_wf {d : Device} (h : d.Wf) : (deviceReset d).Wf := by
  obtain ⟨h1, h2, h3, h4, h5, h6, -, -, -, -, h11⟩ := h
  constructor <;> simp [deviceReset, *] <;> decide

theorem pollDevice_wf {d d' : Device} {p : PollWrite} (hp : pollDevice d p = some d') (h : d.Wf) : d'.Wf := by
  obtain ⟨k1, k2, k3, k4, k5, -, k7, k8, k9, k10, k11⟩ := pollDevice_keeps hp
  obtain ⟨h1, h2, h3, h4, h5, h6, h7, h8, h9, h10, h11⟩ := h
  constructor <;> simp_all

/-- Whatever a command does to a board keeps it in legal form. -/
theorem BoardEffect.wf {i : Instr} {d d' : Device} (e : BoardEffect i d d') (h : d.Wf) : d'.Wf := by
  cases e with
  | same => exact h
  | misconfigured => exact ⟨h.1, h.2, h.3, h.4, h.5, h.6, h.7, h.8, h.9, h.10, h.11⟩
  | reset _ => exact deviceReset_wf h
  | addressed a lo hi un =>
    refine ⟨h.1, h.2, h.3, h.4, h.5, h.6, ?_, ?_, ?_, h.10, h.11⟩
    · rintro rfl; exact absurd lo (by decide)
    · rintro rfl; exact absurd hi (by decide)
    · have hne : a ≠ ADDR_UNASSIGNED := by rintro rfl; exact absurd hi (by decide)
      simpa using hne
  | coins slots len => exact ⟨h.1, h.2, len.trans h.3, h.4, h.5, h.6, h.7, h.8, h.9, h.10, h.11⟩
  | outputs bytes len => exact ⟨h.1, h.2, h.3, h.4, len.trans h.5, h.6, h.7, h.8, h.9, h.10, h.11⟩

theorem Device.Wf.withRx {d : Device} (h : d.Wf) (b : Byte) : Device.Wf { d with rx := (d.rx.step b).1 } :=
  ⟨h.1, h.2, h.3, h.4, h.5, h.6, h.7, h.8, h.9, h.10, h.11.step b⟩

theorem Device.Wf.withLastSent {d : Device} (h : d.Wf) {w : List Byte} (hw : WireForm w) :
    Device.Wf { d with lastSent := some w } :=
  ⟨h.1, h.2, h.3, h.4, h.5, h.6, h.7, h.8, h.9, by rintro v hv; cases hv; exact hw, h.11⟩

/-! ## A walk -/

theorem Walk.start_wf {dev boards : Nat} {p : List Byte} (hd : dev < boards) (hp : p.length ≤ MAX_LEN) :
    (Walk.start dev p).Wf boards :=
  ⟨hd, hp, Nat.zero_le _, by simp [Walk.start], by simp [Walk.start], by simp [Walk.start]⟩

theorem Walk.unknown_wf {w : Walk} {boards : Nat} (h : w.Wf boards) : w.unknown.Wf boards :=
  ⟨h.dev, h.payload, h.pos, h.resp, by simp [Walk.unknown], fun _ => rfl⟩

/-- A command that fits the payload keeps the working registers in legal form. -/
theorem WalkEffect.wf {i : Instr} {w w' : Walk} {boards : Nat} (e : WalkEffect i w w') (h : w.Wf boards)
    (fits : w.pos + i.size ≤ w.payload.length) : w'.Wf boards := by
  have hs := h.stopped
  rcases e.progress with ⟨p1, p2, p3, p4, p5⟩ | ⟨p1, p2, p3⟩
  · refine ⟨e.dev ▸ h.dev, e.payload ▸ h.payload, ?_, e.bound h.resp, p4 ▸ h.fstatus, ?_⟩
    · rw [p5, e.payload]; exact fits
    · rw [p1, p2, p3, p4]; exact hs
  · refine ⟨e.dev ▸ h.dev, e.payload ▸ h.payload, ?_, e.bound h.resp, ?_, fun _ => p1⟩
    · rw [p2, e.payload]; exact h.pos
    · rcases p3 with p3 | p3
      · rw [p3]; exact h.fstatus
      · rw [p3]; decide

/-- A command that the walk fetches fits the payload. -/
theorem fetch_fits {w : Walk} {s : State} {i : Instr} (h : fetch w s = .ok i) (hp : w.pos ≤ w.payload.length) :
    w.pos + i.size ≤ w.payload.length := by
  have := decode_size h
  rw [List.length_drop] at this
  omega

end Sys2Proof.Machine
end

