-- ==== Sys2Proof/Laws/Link.lean ====
section
/-! SUPPORT. What the host's shared operations can do, said once (42_link_manager.md): outside the host they touch only the
line, the replies, the oracle and the free counter, and they keep the host in legal form. -/

namespace Sys2Proof.Machine

/-- What a host operation can change outside the host. -/
structure HostStep (s t : State) : Prop where
  params : t.params = s.params
  devices : t.devices = s.devices
  walk : t.walk = s.walk
  inputs : t.inputs = s.inputs
  line : ∃ l, t.line = s.line ++ l ∧ ∀ e ∈ l, e.1 < s.devices.length
  replies : t.replies = s.replies ∨ t.replies = []

theorem HostStep.refl (s : State) : HostStep s s := ⟨rfl, rfl, rfl, rfl, ⟨[], by simp⟩, .inl rfl⟩

theorem HostStep.trans {s t u : State} (h : HostStep s t) (k : HostStep t u) : HostStep s u := by
  refine ⟨k.params.trans h.params, k.devices.trans h.devices, k.walk.trans h.walk, k.inputs.trans h.inputs, ?_, ?_⟩
  · obtain ⟨l, hl, hb⟩ := h.line
    obtain ⟨m, hm, hc⟩ := k.line
    refine ⟨l ++ m, by rw [hm, hl, List.append_assoc], ?_⟩
    intro e he
    rcases List.mem_append.1 he with he | he
    · exact hb e he
    · rw [← h.devices]; exact hc e he
  · rcases k.replies with hk | hk
    · rcases h.replies with hh | hh
      · exact .inl (hk.trans hh)
      · exact .inr (hk.trans hh)
    · exact .inr hk

theorem HostStep.hostReturn (r : HostResult) (s : State) : HostStep s (hostReturn r s) :=
  ⟨rfl, rfl, rfl, rfl, ⟨[], by simp⟩, .inl rfl⟩

/-- A change of the host alone. -/
theorem HostStep.ofHost (s : State) (h : HostEngine) : HostStep s { s with host := h } :=
  ⟨rfl, rfl, rfl, rfl, ⟨[], by simp⟩, .inl rfl⟩

/-- The part of the host's legal form that does not depend on the operation in progress. -/
structure HostEngine.Session (h : HostEngine) : Prop where
  rx : h.rx.Wf true
  count : h.assignedCount.toNat ≤ MAX_BOARDS
  directory : (h.directory.map (fun e => e.1.toNat)).Pairwise (· < ·)
  records : ∀ e ∈ h.directory, e.2.nodeId = e.1
  lastSent : ∀ f, h.lastSent = some f → f.statusCode = none ∧ f.payload.length ≤ MAX_LEN
  pending : h.mismatchPending = true → h.lastSent.isSome = true

theorem HostEngine.Wf.session {h : HostEngine} (k : h.Wf) : h.Session :=
  ⟨k.rx, k.count, k.directory, k.records, k.lastSent, k.pending⟩

/-- A host whose operation has ended is in legal form. -/
theorem hostReturn_wf {s : State} (h : s.host.Session) (r : HostResult) : (hostReturn r s).host.Wf :=
  ⟨h.rx, h.count, h.directory, h.records, h.lastSent, fun _ => rfl, by simp, by simp, h.pending, by simp, by simp⟩

/-- What `Send` by the host can do: a change of the line and the oracle. -/
theorem transmit_host (w : List Byte) (s : State) :
    HostStep s (transmit .host w s).2 ∧ (transmit .host w s).2.host = s.host ∧
      (transmit .host w s).2.replies = s.replies := by
  obtain ⟨l, o, hl, hs, _⟩ := transmit_cases .host w s
  rw [hs]
  exact ⟨⟨rfl, rfl, rfl, rfl, ⟨l, rfl, hl⟩, .inl rfl⟩, rfl, rfl⟩

/-- Starting an Exchange: the link is closed, or the write fails, and the operation ends; or the host waits, with the frame
kept (R182). -/
theorem startExchange_next {f : Frame} {ts : List Task} {s t : State} (h : startExchange f ts s = .next t) :
    HostStep s t ∧ f.statusCode = none ∧ f.payload.length ≤ MAX_LEN ∧
      ((s.host.linkOpen = false ∧ t = hostReturn (.error .closed) s) ∨
       (s.host.linkOpen = true ∧
         t.host = { s.host with rx := s.host.rx.reset, mismatchPending := false, phase := .idle, tasks := [],
                                result := some (.error .writeError) }) ∨
       (s.host.linkOpen = true ∧
         t.host = { s.host with rx := s.host.rx.reset, lastSent := some f, phase := .waiting, tasks := ts })) := by
  unfold startExchange at h
  split at h
  · cases h
  · rename_i hst
    split at h
    · cases h
    · rename_i w hw
      have hlen : f.payload.length ≤ MAX_LEN := by
        have := (encodeFrame_eq_some.1 hw).1
        simp only [Frame.lengthByte] at this; omega
      have hst : f.statusCode = none := by simpa using hst
      split at h
      · rename_i ho
        have ht := transmit_host w { s with host := { s.host with rx := s.host.rx.reset }, replies := [] }
        have h0 : HostStep s { s with host := { s.host with rx := s.host.rx.reset }, replies := [] } :=
          ⟨rfl, rfl, rfl, rfl, ⟨[], by simp⟩, .inr rfl⟩
        split at h
        · rename_i s' hs
          rw [hs] at ht
          cases h
          have hh : s'.host = { s.host with rx := s.host.rx.reset } := ht.2.1
          refine ⟨(h0.trans ht.1).trans (.ofHost _ _), hst, hlen, .inr (.inr ⟨ho, ?_⟩)⟩
          simp only [hh]
        · rename_i s' hs
          rw [hs] at ht
          cases h
          have hh : s'.host = { s.host with rx := s.host.rx.reset } := ht.2.1
          refine ⟨((h0.trans ht.1).trans (.ofHost _ _)).trans (.hostReturn _ _), hst, hlen, .inr (.inl ⟨ho, ?_⟩)⟩
          simp only [Machine.hostReturn, hh]
      · rename_i ho
        cases h
        exact ⟨.hostReturn _ _, hst, hlen, .inl ⟨by simpa using ho, rfl⟩⟩

/-- An Exchange that the transport takes: the frame goes to every board and the host waits (R182). -/
theorem startExchange_sends {f : Frame} {ts : List Task} {s : State} (ho : s.host.linkOpen = true)
    (hf : f.statusCode = none) (hl : f.payload.length ≤ MAX_LEN) (hs : s.oracle.sends = []) :
    ∃ t, startExchange f ts s = .next t ∧ Exchanging s t f ts := by
  have he : encodeFrame f = some (wireOf (f.nodeAddress :: BitVec.ofNat 8 f.payload.length :: f.payload)) := by
    rw [encodeFrame_of_le (by simpa [Frame.lengthByte, hf] using hl)]
    simp [wireOf, Frame.body, Frame.lengthByte, hf]
  simp only [startExchange, hf, he, if_pos ho, Option.isSome_none, Bool.false_eq_true, if_false]
  rw [transmit_of_noChoice (by exact hs)]
  refine ⟨_, rfl, rfl, fun j hj => ?_⟩
  rw [bytesFor_append, bytesFor_deliveries]
  simp [hj]

/-- Starting an Exchange keeps the host in legal form. -/
theorem startExchange_wf {f : Frame} {ts : List Task} {s t : State} (h : startExchange f ts s = .next t)
    (hs : s.host.Session) (hl : LegalTasks s.host.assignedCount ts) : HostStep s t ∧ t.host.Wf := by
  obtain ⟨h1, hst, hlen, hc⟩ := startExchange_next h
  refine ⟨h1, ?_⟩
  rcases hc with ⟨_, rfl⟩ | ⟨ho, ht⟩ | ⟨ho, ht⟩
  · exact hostReturn_wf hs _
  · rw [ht]
    exact ⟨hs.rx.reset, hs.count, hs.directory, hs.records, hs.lastSent, by simp, by simp, by simp, by simp, by simp, by simp⟩
  · rw [ht]
    refine ⟨hs.rx.reset, hs.count, hs.directory, hs.records, ?_, by simp, fun _ => ho, by simp, by simp, by simp, fun _ => hl⟩
    rintro g hg
    obtain rfl := Option.some.inj hg
    exact ⟨hst, hlen⟩

theorem startRetry_wf {f : Frame} {ts : List Task} {s t : State} (h : startRetry f ts s = .next t)
    (hs : s.host.Session) (hq : QueryTasks ts) : HostStep s t ∧ t.host.Wf :=
  startExchange_wf h hs ⟨(startExchange_next h).2.1, hq⟩

theorem QueryTasks.legal {ts : List Task} (h : QueryTasks ts) (assigned : Byte) : LegalTasks assigned ts := by
  unfold QueryTasks at h
  split at h <;> simp_all [LegalTasks, QueryTasks]

/-- Giving a result to the caller. -/
theorem resume_nil {r : HostResult} {s t : State} (h : resume [] r s = .next t) (hs : s.host.Session) :
    HostStep s t ∧ t.host.Wf := by
  cases h
  exact ⟨.hostReturn _ _, hostReturn_wf hs _⟩

/-- Connect going on after a Query (R196). -/
theorem resume_connectQuery {m total : Byte} {r : HostResult} {s t : State}
    (h : resume [.connectQuery m total] r s = .next t) (hs : s.host.Session)
    (hb : 1 ≤ m.toNat ∧ m.toNat ≤ total.toNat ∧ total.toNat ≤ MAX_BOARDS) : HostStep s t ∧ t.host.Wf := by
  unfold resume at h
  split at h
  · split at h
    · rename_i hlt
      refine startRetry_wf h hs ⟨rfl, ?_⟩
      have : (m + 1).toNat = m.toNat + 1 := by
        rw [BitVec.toNat_add]; simp only [MAX_BOARDS] at hb; simp; omega
      omega
    · exact resume_nil h hs
  · exact resume_nil h hs

/-- Connect going on after Enumerate (R196): a count of at most 15 or the sentinel. -/
theorem resume_connectEnum {r : HostResult} {s t : State} (h : resume [.connectEnum] r s = .next t)
    (hs : s.host.Session) (hc : ∀ c, r = .count c → c.toNat ≤ MAX_BOARDS ∨ ENUM_FAIL_OFFSET.toNat ≤ c.toNat) :
    HostStep s t ∧ t.host.Wf := by
  unfold resume at h
  split at h
  · rename_i c
    split at h
    · exact resume_nil h hs
    · rename_i hlt
      split at h
      · exact resume_nil h hs
      · rename_i h0
        refine startRetry_wf h hs ⟨rfl, by decide, ?_, ?_⟩
        · have : c.toNat ≠ 0 := fun hh => h0 (BitVec.eq_of_toNat_eq hh)
          simp; omega
        · rcases hc c rfl with h1 | h1
          · exact h1
          · omega
  · exact resume_nil h hs

/-- Query going on (R192 to R195), alone or inside Connect. -/
theorem resume_query {ts : List Task} {r : HostResult} {s t : State} (h : resume ts r s = .next t)
    (hs : s.host.Session) (hq : QueryTasks ts) : HostStep s t ∧ t.host.Wf := by
  have tail : ∀ {n : Byte} {id : List Byte} {rest : List Task}, QueryTasks (.queryInfo n id :: rest) →
      ∀ {r : HostResult} {s t : State}, resume rest r s = .next t → s.host.Session → HostStep s t ∧ t.host.Wf := by
    intro n id rest hq r s t h hs
    unfold QueryTasks at hq
    split at hq <;> simp_all
    · exact resume_nil h hs
    · exact resume_connectQuery h hs ⟨hq.2.1, hq.2.2.1, hq.2.2.2⟩
  have info : ∀ {n : Byte} {rest : List Task}, QueryTasks (.queryIdent n :: rest) →
      ∀ id, QueryTasks (.queryInfo n id :: rest) := by
    intro n rest hq id
    unfold QueryTasks at hq
    split at hq <;> simp_all [QueryTasks]
  match ts, hq with
  | [], _ => exact resume_nil h hs
  | .queryIdent n :: rest, hq =>
    unfold resume at h
    split at h
    · split at h
      · exact startRetry_wf h hs (info hq _)
      · exact tail (info hq []) h hs
    · exact tail (info hq []) h hs
    · exact tail (info hq []) h hs
  | .queryInfo n id :: rest, hq =>
    unfold resume at h
    split at h
    · split at h
      · rename_i b hb
        have hid : b.nodeId = n := by
          unfold parseInfo at hb
          split at hb
          · split at hb
            · split at hb
              · rw [← Option.some.inj hb]
              · cases hb
            · cases hb
          · cases hb
        have := tail hq h ⟨hs.rx, hs.count, directoryInsert_sorted hs.directory, by
            intro e he
            rcases mem_directoryInsert he with rfl | he
            · exact hid
            · exact hs.records e he, hs.lastSent, hs.pending⟩
        exact ⟨(HostStep.ofHost _ _).trans this.1, this.2⟩
      · exact tail hq h hs
    · exact tail hq h hs
    · exact tail hq h hs
  | .retry _ :: _, hq => simp [QueryTasks] at hq
  | .enumerate _ _ :: _, hq => simp [QueryTasks] at hq
  | .connectReset :: _, hq => simp [QueryTasks] at hq
  | .connectEnum :: _, hq => simp [QueryTasks] at hq
  | .connectQuery _ _ :: _, hq => simp [QueryTasks] at hq

/-- Before an iteration that runs, the loop is not over and an address is left to give. -/
theorem enumerateStops_false {iter : Nat} {s : State} (h : enumerateStops iter s = false) :
    iter ≤ MAX_BOARDS ∧ s.host.assignedCount.toNat < MAX_BOARDS := by
  simp only [enumerateStops, Bool.or_eq_false_iff, decide_eq_false_iff_not] at h
  omega

/-- Starting an iteration of Enumerate that runs (R187). -/
theorem startIteration_wf {iter err : Nat} {ts : List Task} {s t : State} (h : startIteration iter err ts s = .next t)
    (hs : s.host.Session) (h1 : 1 ≤ iter) (he : err < MAX_CONSEC_ERR) (hst : enumerateStops iter s = false)
    (ht : ts = [] ∨ ts = [.connectEnum]) : HostStep s t ∧ t.host.Wf :=
  startExchange_wf h hs ⟨h1, (enumerateStops_false hst).1, he, (enumerateStops_false hst).2, ht⟩

/-- Enumerate's result, a count of at most 15 or the sentinel, goes to the caller or to Connect. -/
theorem resume_count {c : Byte} {ts : List Task} {s t : State} (h : resume ts (.count c) s = .next t)
    (hs : s.host.Session) (ht : ts = [] ∨ ts = [.connectEnum])
    (hc : c.toNat ≤ MAX_BOARDS ∨ ENUM_FAIL_OFFSET.toNat ≤ c.toNat) : HostStep s t ∧ t.host.Wf := by
  rcases ht with rfl | rfl
  · exact resume_nil h hs
  · exact resume_connectEnum h hs (by rintro _ ⟨⟩; exact hc)

/-- Enumerate going on (R187, R190), alone or inside Connect. -/
theorem resume_enumerate {iter err : Nat} {ts : List Task} {r : HostResult} {s t : State}
    (h : resume (.enumerate iter err :: ts) r s = .next t) (hs : s.host.Session)
    (hi : 1 ≤ iter) (hc : s.host.assignedCount.toNat < MAX_BOARDS) (he : err < MAX_CONSEC_ERR)
    (ht : ts = [] ∨ ts = [.connectEnum]) (hr : ∀ c, r ≠ .count c) : HostStep s t ∧ t.host.Wf := by
  have next : (candidate s).toNat = s.host.assignedCount.toNat + 1 := by
    simp only [candidate, MAX_BOARDS] at *
    rw [BitVec.toNat_add]; simp; omega
  have fail : ENUM_FAIL_OFFSET.toNat ≤ (s.host.assignedCount + ENUM_FAIL_OFFSET).toNat := by
    simp only [MAX_BOARDS, ENUM_FAIL_OFFSET] at *
    rw [BitVec.toNat_add]; simp; omega
  unfold resume at h
  split at h
  · -- success
    have hs' : ({ s with host := { s.host with assignedCount := candidate s } } : State).host.Session :=
      ⟨hs.rx, by simp only [next]; omega, hs.directory, hs.records, hs.lastSent, hs.pending⟩
    have lift : ∀ {u}, HostStep { s with host := { s.host with assignedCount := candidate s } } u ∧ u.host.Wf →
        HostStep s u ∧ u.host.Wf := fun hu => ⟨(HostStep.ofHost _ _).trans hu.1, hu.2⟩
    simp only at h
    split at h
    · exact lift (resume_count h hs' ht (.inl hs'.count))
    · split at h
      · exact lift (resume_count h hs' ht (.inl hs'.count))
      · rename_i hst
        exact lift (startIteration_wf h hs' (by omega) (by decide) (by simpa using hst) ht)
  · split at h
    · split at h
      · exact resume_count h hs ht (.inr fail)
      · split at h
        · exact resume_count h hs ht (.inl hs.count)
        · rename_i hst
          exact startIteration_wf h hs (by omega) (by simp only [MAX_CONSEC_ERR] at *; omega) (by simpa using hst) ht
    · rcases ht with rfl | rfl
      · exact resume_nil h hs
      · exact resume_connectEnum h hs (fun c hh => absurd hh (hr c))

/-- Giving an Exchange's outcome to the operation that waits for it keeps the host in legal form. -/
theorem resume_wf {ts : List Task} {r : HostResult} {s t : State} (h : resume ts r s = .next t)
    (hs : s.host.Session) (hl : LegalTasks s.host.assignedCount ts) (hr : ∀ c, r ≠ .count c) :
    HostStep s t ∧ t.host.Wf := by
  unfold LegalTasks at hl
  split at hl
  · exact resume_enumerate h hs hl.1 hl.2.2.2.1 hl.2.2.1 hl.2.2.2.2 hr
  · unfold resume at h
    split at h
    · exact startExchange_wf h hs (hl.2.legal _)
    · exact resume_query h hs hl.2
  · exact resume_query h hs hl

/-- Enumerate, as the caller invokes it, keeps the host in legal form. -/
theorem startEnumerate_wf {s t : State} (h : startEnumerate s = .next t) (hs : s.host.Session) :
    HostStep s t ∧ t.host.Wf := by
  unfold startEnumerate at h
  split at h
  · cases h; exact ⟨.hostReturn _ _, hostReturn_wf hs _⟩
  · rename_i hst
    exact startIteration_wf h hs (by omega) (by decide) (by simpa using hst) (.inl rfl)

end Sys2Proof.Machine
end

