-- ==== Sys2Proof/Laws/Operations.lean ====
section
/-! SUPPORT. Each host operation, and each step of one in progress: outside the host it touches only the line, the replies,
the oracle and the free counter, and it keeps the host in legal form (42_link_manager.md). -/

namespace Sys2Proof.Machine

/-- What a host operation answers when it answers a next state. -/
abbrev HostKeeps (s t : State) : Prop := HostStep s t ∧ t.host.Wf

theorem HostKeeps.after {s t u : State} (h : HostStep s t) (k : HostKeeps t u) : HostKeeps s u :=
  ⟨h.trans k.1, k.2⟩

/-! ## Reset (R181) -/

theorem startReset_keeps {ts : List Task} {s t : State} (h : startReset ts s = .next t) (hs : s.host.Session)
    (ho : s.host.linkOpen = true) (ht : ts = [] ∨ ts = [.connectReset]) : HostKeeps s t := by
  unfold startReset at h
  split at h
  · cases h
  · rename_i w _
    obtain ⟨h1, h2, _⟩ := transmit_host w s
    split at h
    · rename_i s' hw
      rw [hw] at h1 h2
      cases h
      refine ⟨h1.trans (.ofHost _ _), ?_⟩
      simp only at h2
      rw [h2]
      exact ⟨hs.rx, hs.count, hs.directory, hs.records, hs.lastSent, by simp, fun _ => ho, by simp, hs.pending, fun _ => ht,
        by simp⟩
    · rename_i s' hw
      rw [hw] at h1 h2
      cases h
      exact ⟨h1.trans (.hostReturn _ _), hostReturn_wf ((show s'.host = s.host from h2) ▸ hs) _⟩

theorem secondReset_keeps {s t : State} (h : secondReset s = .next t) (hw : s.host.Wf)
    (hp : s.host.phase = .settle) : HostKeeps s t := by
  have hs := hw.session
  unfold secondReset at h
  split at h
  · cases h
  · rename_i w _
    obtain ⟨h1, h2, _⟩ := transmit_host w s
    split at h
    · rename_i s' ht
      rw [ht] at h1 h2
      cases h
      refine ⟨h1.trans (.ofHost _ _), ?_⟩
      simp only at h2
      rw [h2]
      exact ⟨hs.rx, hs.count, hs.directory, hs.records, hs.lastSent, by simp, fun _ => hw.busy (by simp [hp]), by simp,
        hs.pending, fun _ => hw.resetting (.inl hp), by simp⟩
    · rename_i s' ht
      rw [ht] at h1 h2
      cases h
      exact ⟨h1.trans (.hostReturn _ _), hostReturn_wf ((show s'.host = s.host from h2) ▸ hs) _⟩

theorem finishReset_keeps {s t : State} (h : finishReset s = .next t) (hw : s.host.Wf)
    (hp : s.host.phase = .resetDrain) : HostKeeps s t := by
  unfold finishReset at h
  have hs : (clearSession s).host.Session :=
    ⟨hw.rx, by simp [clearSession], by simp [clearSession], by simp [clearSession], by simp [clearSession], by simp [clearSession]⟩
  have k : HostStep s (clearSession s) := .ofHost s _
  refine .after k ?_
  rcases hw.resetting (.inr hp) with ht | ht
  · rw [ht] at h
    exact resume_nil h hs
  · rw [ht] at h
    have h' : startIteration 1 0 [.connectEnum] (clearSession s) = .next t := h
    exact startExchange_wf h' hs (by simp [LegalTasks, MAX_BOARDS, MAX_CONSEC_ERR, clearSession])

/-! ## Exchange (R183 to R185) -/

/-- What the replies on the wire give the host. -/
theorem composeReplies_replied (s : State) :
    ∃ now n, Replied s now n ∧ composeReplies s = (now, { s with replies := [], freeCount := n }) := by
  unfold composeReplies
  split
  · rename_i h
    exact ⟨_, _, .silence h, by simp [← h]⟩
  · rename_i r h
    exact ⟨_, _, .one r h, rfl⟩
  · rename_i h1 h2
    refine ⟨_, _, .collision ?_, rfl⟩
    match h : s.replies with
    | [] => exact absurd h h1
    | [r] => exact absurd h (h2 r)
    | _ :: _ :: _ => simp

/-- The wait always ends, with the bytes that the replies and the oracle give. -/
theorem receiveReplies_waitEnds (s : State) : WaitEnds s (receiveReplies s).1 (receiveReplies s).2 := by
  obtain ⟨now, n, h, e⟩ := composeReplies_replied s
  unfold receiveReplies
  rw [e]
  simp only
  split
  · rename_i hw
    exact ⟨now, n, [], h, by rw [hw]; exact .byDefault,
      by rw [show s.oracle.waits.tail = s.oracle.waits by rw [hw]; rfl]⟩
  · rename_i c rest hw
    cases c with
    | deliver => exact ⟨now, n, [], h, by rw [hw]; exact .deliver, by simp [hw]⟩
    | late => exact ⟨now, n, now, h, by rw [hw]; exact .late, by simp [hw]⟩
    | lost => exact ⟨now, n, [], h, by rw [hw]; exact .lost, by simp [hw]⟩
    | altered b => exact ⟨now, n, [], h, by rw [hw]; exact .altered b, by simp [hw]⟩

theorem Replied.unique {s : State} {b c : List Byte} {m n : Nat} (h : Replied s b m) (k : Replied s c n) :
    b = c ∧ m = n := by
  cases h <;> cases k <;> simp_all

theorem Arrives.unique {before now b c l m : List Byte} {o : Option WaitChoice} (h : Arrives before now o b l)
    (k : Arrives before now o c m) : b = c ∧ l = m := by
  cases h <;> cases k <;> exact ⟨rfl, rfl⟩

/-- What the wait gives is what `receiveReplies` computes. -/
theorem WaitEnds.receive {s t : State} {b : List Byte} (h : WaitEnds s b t) : receiveReplies s = (b, t) := by
  obtain ⟨now, n, l, h1, h2, e⟩ := h
  obtain ⟨now', n', l', k1, k2, e'⟩ := receiveReplies_waitEnds s
  obtain ⟨rfl, rfl⟩ := h1.unique k1
  obtain ⟨hb, rfl⟩ := h2.unique k2
  exact Prod.ext hb.symm (e'.trans e.symm)

theorem receiveReplies_step (s : State) :
    HostStep s (receiveReplies s).2 ∧ (receiveReplies s).2.host = s.host := by
  obtain ⟨_, _, _, _, _, e⟩ := receiveReplies_waitEnds s
  rw [e]
  exact ⟨⟨rfl, rfl, rfl, rfl, ⟨[], by simp⟩, .inr rfl⟩, rfl⟩

/-- A host result that Exchange gives is never a count. -/
theorem endExchange_keeps {r : HostResult} {s t : State} (h : endExchange r s = .next t) (hs : s.host.Session)
    (hl : LegalTasks s.host.assignedCount s.host.tasks) (hr : ∀ c, r ≠ .count c) : HostKeeps s t :=
  .after (.ofHost s _)
    (resume_wf h ⟨hs.rx, hs.count, hs.directory, hs.records, hs.lastSent, by simp⟩ hl hr)

theorem raiseMismatch_keeps {o : Option Byte} {s t : State} (h : raiseMismatch o s = .next t) (hs : s.host.Session)
    (hl : LegalTasks s.host.assignedCount s.host.tasks) : HostKeeps s t := by
  unfold raiseMismatch at h
  split at h
  · exact endExchange_keeps h hs hl (by simp)
  · have k : HostStep s { s with freeCount := s.freeCount + 1 } := ⟨rfl, rfl, rfl, rfl, ⟨[], by simp⟩, .inl rfl⟩
    exact .after k (endExchange_keeps h hs hl (by simp))

theorem resendPath_keeps {o : Option Byte} {s t : State} (h : resendPath o s = .next t) (hs : s.host.Session)
    (ho : s.host.linkOpen = true) (hl : LegalTasks s.host.assignedCount s.host.tasks) : HostKeeps s t := by
  unfold resendPath at h
  split at h
  · exact raiseMismatch_keeps h hs hl
  · split at h
    · cases h
    · rename_i f hf
      split at h
      · cases h
      · rename_i w _
        obtain ⟨h1, h2, _⟩ := transmit_host w s
        split at h
        · rename_i s' ht
          rw [ht] at h1 h2
          cases h
          refine ⟨h1.trans (.ofHost _ _), ?_⟩
          simp only at h2
          rw [h2]
          exact ⟨hs.rx, hs.count, hs.directory, hs.records, hs.lastSent, by simp, fun _ => ho, fun _ => by simp [hf],
            fun _ => by simp [hf], by simp, fun _ => hl⟩
        · rename_i s' ht
          rw [ht] at h1 h2
          cases h
          exact ⟨h1.trans (.hostReturn _ _), hostReturn_wf ((show s'.host = s.host from h2) ▸ hs) _⟩

theorem hostReceive_keeps {b : List Byte} {s t : State} (h : hostReceive b s = .next t) (hs : s.host.Session)
    (ho : s.host.linkOpen = true) (hl : LegalTasks s.host.assignedCount s.host.tasks) : HostKeeps s t := by
  unfold hostReceive at h
  split at h
  · exact endExchange_keeps h hs hl (by simp)
  · split at h
    · exact endExchange_keeps h hs hl (by simp)
    · have hrx := hs.rx.feed b
      have hs' : ∀ rx, rx = (s.host.rx.feed b).1 → ({ s.host with rx := rx } : HostEngine).Session :=
        fun rx hx => ⟨by simpa [hx] using hrx, hs.count, hs.directory, hs.records, hs.lastSent, hs.pending⟩
      split at h
      · rename_i rx hx
        exact .after (.ofHost s _) (endExchange_keeps h (hs' rx (by rw [hx])) hl (by simp))
      · rename_i rx e hx
        have hs' := hs' rx (by rw [hx])
        have k : HostStep s { s with host := { s.host with rx := rx } } := .ofHost s _
        refine .after k ?_
        unfold classify at h
        split at h
        · split at h
          · exact resendPath_keeps h hs' ho hl
          · split at h
            · exact endExchange_keeps h hs' hl (by simp)
            · exact endExchange_keeps h hs' hl (by simp)
        · exact resendPath_keeps h hs' ho hl
        · exact endExchange_keeps h hs' hl (by simp)

theorem endWait_keeps {s t : State} (h : endWait s = .next t) (hw : s.host.Wf) (hp : s.host.phase = .waiting) :
    HostKeeps s t := by
  unfold endWait at h
  obtain ⟨h1, h2⟩ := receiveReplies_step s
  refine .after h1 (hostReceive_keeps h ?_ ?_ ?_)
  · rw [h2]; exact hw.session
  · rw [h2]; exact hw.busy (by simp [hp])
  · rw [h2]; exact hw.exchanging (.inl hp)

theorem endResent_keeps {s t : State} (h : endResent s = .next t) (hw : s.host.Wf)
    (hp : s.host.phase = .resentDrain) : HostKeeps s t := by
  unfold endResent at h
  obtain ⟨h1, h2⟩ := receiveReplies_step s
  split at h
  rename_i b s' hr
  rw [hr] at h1 h2
  have hw' : s'.host.Wf := (show s'.host = s.host from h2) ▸ hw
  have hp' : s'.host.phase = .resentDrain := by rw [show s'.host = s.host from h2, hp]
  exact .after h1 (resume_wf h hw'.session (hw'.exchanging (.inr hp')) (by simp))

/-! ## A caller's operations (R197 to R199) -/

theorem openLink_keeps {m : SenseMode} {s t : State} (h : openLink m s = .next t) (hs : s.host.Session) :
    HostKeeps s t := by
  unfold openLink at h
  split at h
  · cases h
  · simp only at h
    split at h
    · cases h
      refine ⟨⟨rfl, rfl, rfl, rfl, ⟨[], by simp⟩, .inl rfl⟩, hostReturn_wf ?_ _⟩
      exact ⟨hs.rx, by simp, by simp, by simp, by simp, by simp⟩
    · cases h
      exact ⟨⟨rfl, rfl, rfl, rfl, ⟨[], by simp⟩, .inl rfl⟩, hostReturn_wf hs _⟩

theorem closeLink_keeps {s t : State} (h : closeLink s = .next t) (hs : s.host.Session) : HostKeeps s t := by
  cases h
  refine ⟨⟨rfl, rfl, rfl, rfl, ⟨[], by simp⟩, .inl rfl⟩, hostReturn_wf ?_ _⟩
  exact ⟨hs.rx, hs.count, hs.directory, hs.records, hs.lastSent, hs.pending⟩

/-- The frame a sender builds carries no status. -/
theorem senderFrame_status {p : Params} {x : Sender} {f : Frame} (h : senderFrame p x = some f) :
    f.statusCode = none := by
  cases x <;> simp only [senderFrame, Option.ite_none_right_eq_some, Option.some.injEq] at h <;>
    (rw [← h.2]; rfl)

theorem hostCall_keeps {op : HostOp} {s t : State} (h : hostCall op s = .next t) (hw : s.host.Wf) :
    HostKeeps s t := by
  have hs := hw.session
  have idle : ∀ {r}, whenIdle s r = .next t → r = .next t := by
    intro r h
    unfold whenIdle at h
    split at h
    · exact h
    · cases h
  have live : ∀ {r}, onLink s r = .next t → (s.host.linkOpen = true ∧ r = .next t) ∨ HostKeeps s t := by
    intro r h
    unfold onLink at h
    split at h
    · exact .inl ⟨by assumption, h⟩
    · cases h
      exact .inr ⟨.hostReturn _ _, hostReturn_wf hs _⟩
  unfold hostCall at h
  split at h
  · exact closeLink_keeps h hs
  · exact openLink_keeps (idle h) hs
  · exact startExchange_wf (idle h) hs trivial
  · exact startRetry_wf (idle h) hs trivial
  · rcases live (idle h) with ⟨ho, h⟩ | h
    · exact startReset_keeps h hs ho (.inl rfl)
    · exact h
  · rcases live (idle h) with ⟨_, h⟩ | h
    · exact startEnumerate_wf h hs
    · exact h
  · rcases live (idle h) with ⟨_, h⟩ | h
    · exact startRetry_wf h hs trivial
    · exact h
  · rcases live (idle h) with ⟨ho, h⟩ | h
    · exact startReset_keeps h hs ho (.inr rfl)
    · exact h
  · rcases live (idle h) with ⟨_, h⟩ | h
    · unfold startSender at h
      split at h
      · cases h
        exact ⟨.hostReturn _ _, hostReturn_wf hs _⟩
      · exact startRetry_wf h hs trivial
    · exact h

end Sys2Proof.Machine
end

