-- ==== Sys2Proof/Laws/HostFrame.lean ====
section
/-! SUPPORT. The frame of the host's steps in every state, legal or not: outside the host they touch only the line, the replies,
the oracle and the free counter (42_link_manager.md, 20_memory.md R75). -/

namespace Sys2Proof.Machine

theorem startExchange_step {f : Frame} {ts : List Task} {s t : State} (h : startExchange f ts s = .next t) :
    HostStep s t := (startExchange_next h).1

theorem startQuery_step {n : Byte} {ts : List Task} {s t : State} (h : startQuery n ts s = .next t) : HostStep s t :=
  startExchange_step (f := identFrame s.params.codes n)
    (ts := .retry (identFrame s.params.codes n) :: .queryIdent n :: ts) h

theorem resume_step {ts : List Task} {r : HostResult} {s t : State} (h : resume ts r s = .next t) : HostStep s t := by
  induction ts generalizing r s with
  | nil => cases h; exact .hostReturn _ _
  | cons k ts ih =>
    have lift : ∀ {x : HostEngine} {u : State}, HostStep { s with host := x } u → HostStep s u :=
      fun hu => (HostStep.ofHost s _).trans hu
    cases k with
    | retry f =>
      unfold resume at h
      split at h
      · exact startExchange_step h
      · exact ih h
    | enumerate iter err =>
      unfold resume at h
      split at h
      · simp only at h
        split at h
        · exact lift (ih h)
        · split at h
          · exact lift (ih h)
          · exact lift (startExchange_step h)
      · split at h
        · split at h
          · exact ih h
          · split at h
            · exact ih h
            · exact startExchange_step h
        · exact ih h
    | queryIdent n =>
      unfold resume at h
      split at h
      · split at h
        · exact startExchange_step h
        · exact ih h
      · exact ih h
      · exact ih h
    | queryInfo n id =>
      unfold resume at h
      split at h
      · split at h
        · exact lift (ih h)
        · exact ih h
      · exact ih h
      · exact ih h
    | connectReset =>
      unfold resume at h
      split at h
      · exact startExchange_step h
      · exact ih h
    | connectEnum =>
      unfold resume at h
      split at h
      · split at h
        · exact ih h
        · split at h
          · exact ih h
          · exact startQuery_step h
      · exact ih h
    | connectQuery n total =>
      unfold resume at h
      split at h
      · split at h
        · exact startQuery_step h
        · exact ih h
      · exact ih h

/-- A `Send` of the host, followed by a change of the host alone. -/
theorem afterTransmit_step {w : List Byte} {s t : State} {yes no : State → State}
    (hy : ∀ u, HostStep u (yes u)) (hn : ∀ u, HostStep u (no u))
    (h : (match transmit .host w s with
          | (true, u) => (.next (yes u) : Host.Outcome State Fault Refusal)
          | (false, u) => .next (no u)) = .next t) : HostStep s t := by
  have h1 := (transmit_host w s).1
  split at h
  · rename_i u hu
    rw [hu] at h1
    cases h
    exact h1.trans (hy _)
  · rename_i u hu
    rw [hu] at h1
    cases h
    exact h1.trans (hn _)

theorem startReset_step {ts : List Task} {s t : State} (h : startReset ts s = .next t) : HostStep s t := by
  unfold startReset at h
  split at h
  · cases h
  · exact afterTransmit_step (fun _ => .ofHost _ _) (fun _ => .hostReturn _ _) h

theorem secondReset_step {s t : State} (h : secondReset s = .next t) : HostStep s t := by
  unfold secondReset at h
  split at h
  · cases h
  · exact afterTransmit_step (fun _ => .ofHost _ _) (fun _ => .hostReturn _ _) h

theorem finishReset_step {s t : State} (h : finishReset s = .next t) : HostStep s t :=
  (HostStep.ofHost s _).trans (resume_step h)

theorem endExchange_step {r : HostResult} {s t : State} (h : endExchange r s = .next t) : HostStep s t :=
  (HostStep.ofHost s _).trans (resume_step h)

theorem raiseMismatch_step {o : Option Byte} {s t : State} (h : raiseMismatch o s = .next t) : HostStep s t := by
  unfold raiseMismatch at h
  split at h
  · exact endExchange_step h
  · have k : HostStep s { s with freeCount := s.freeCount + 1 } := ⟨rfl, rfl, rfl, rfl, ⟨[], by simp⟩, .inl rfl⟩
    exact k.trans (endExchange_step h)

theorem resendPath_step {o : Option Byte} {s t : State} (h : resendPath o s = .next t) : HostStep s t := by
  unfold resendPath at h
  split at h
  · exact raiseMismatch_step h
  · split at h
    · cases h
    · split at h
      · cases h
      · exact afterTransmit_step (fun _ => .ofHost _ _) (fun _ => .hostReturn _ _) h

theorem classify_step {e : RxEvent} {s t : State} (h : classify e s = .next t) : HostStep s t := by
  unfold classify at h
  split at h
  · split at h
    · exact resendPath_step h
    · split at h <;> exact endExchange_step h
  · exact resendPath_step h
  · exact endExchange_step h

theorem hostReceive_step {b : List Byte} {s t : State} (h : hostReceive b s = .next t) : HostStep s t := by
  unfold hostReceive at h
  split at h
  · exact endExchange_step h
  · split at h
    · exact endExchange_step h
    · split at h
      · exact (HostStep.ofHost s _).trans (endExchange_step h)
      · exact (HostStep.ofHost s _).trans (classify_step h)

theorem endWait_step {s t : State} (h : endWait s = .next t) : HostStep s t :=
  (receiveReplies_step s).1.trans (hostReceive_step h)

theorem endResent_step {s t : State} (h : endResent s = .next t) : HostStep s t :=
  (receiveReplies_step s).1.trans (resume_step h)

theorem openLink_step {m : SenseMode} {s t : State} (h : openLink m s = .next t) : HostStep s t := by
  unfold openLink at h
  split at h
  · cases h
  · simp only at h
    split at h <;> cases h <;> exact ⟨rfl, rfl, rfl, rfl, ⟨[], by simp⟩, .inl rfl⟩

theorem startSender_step {x : Sender} {s t : State} (h : startSender x s = .next t) : HostStep s t := by
  unfold startSender at h
  split at h
  · cases h; exact .hostReturn _ _
  · exact startExchange_step h

theorem startEnumerate_step {s t : State} (h : startEnumerate s = .next t) : HostStep s t := by
  unfold startEnumerate at h
  split at h
  · cases h; exact .hostReturn _ _
  · exact startExchange_step h

theorem hostCall_step {op : HostOp} {s t : State} (h : hostCall op s = .next t) : HostStep s t := by
  have idle : ∀ {r}, whenIdle s r = .next t → r = .next t := by
    intro r h
    unfold whenIdle at h
    split at h
    · exact h
    · cases h
  have live : ∀ {r}, onLink s r = .next t → (r = .next t → HostStep s t) → HostStep s t := by
    intro r h k
    unfold onLink at h
    split at h
    · exact k h
    · cases h; exact .hostReturn _ _
  cases op with
  | close => cases h; exact ⟨rfl, rfl, rfl, rfl, ⟨[], by simp⟩, .inl rfl⟩
  | open_ _ _ m => exact openLink_step (idle h)
  | exchange f => exact startExchange_step (idle h)
  | exchangeRetry f => exact startExchange_step (idle h)
  | reset => exact live (idle h) startReset_step
  | enumerate => exact live (idle h) startEnumerate_step
  | query n => exact live (idle h) startQuery_step
  | connect => exact live (idle h) startReset_step
  | send x => exact live (idle h) startSender_step

end Sys2Proof.Machine
end

