-- ==== Sys2Proof/Laws/Operands.lean ====
section
/-! SUPPORT. What each operand and response computation gives, said once in plain arithmetic (00_scope.md R13, 30_encoding.md R87,
R93, R94, 41_interpreter.md R157 to R161). -/

namespace Sys2Proof.Machine

theorem bcd_of_le {v : Nat} (h : v ≤ 99) : bcd v = BitVec.ofNat 8 (16 * (v / 10) + v % 10) := by
  have small : ∀ v : Fin 100, ((v.val / 10) <<< 4) ||| (v.val % 10) = 16 * (v.val / 10) + v.val % 10 := by decide
  rw [bcd, if_pos h, small ⟨v, by omega⟩]

theorem featureListBytes_cons (g : Feature) (fs : List Feature) :
    featureListBytes (g :: fs) = featureBytes g ++ featureListBytes fs := by
  simp [featureListBytes]

theorem featureBytes_length (g : Feature) : (featureBytes g).length = 4 := rfl

/-- Every feature type but End is found again by its wire byte, which is not End's. -/
theorem featureOfCode_featureCode {t : FeatureType} (h : t ≠ .end_) :
    featureOfCode (featureCode t) = some t ∧ featureCode t ≠ 0x00 := by
  have e : ∀ t : FeatureType, featureCode t = BitVec.ofNat 8 (16 * (featureOrdinal t / 10) + featureOrdinal t % 10) := by
    intro t
    exact bcd_of_le (by cases t <;> decide)
  have hf : (fun f => featureCode f == featureCode t) = fun f => BitVec.ofNat 8 (16 * (featureOrdinal f / 10) +
      featureOrdinal f % 10) == BitVec.ofNat 8 (16 * (featureOrdinal t / 10) + featureOrdinal t % 10) := by
    funext f; rw [e, e]
  rw [featureOfCode, hf, e]
  cases t <;> first | exact absurd rfl h | decide

/-- The slot word: the condition code in the top two bits, the counter modulo 16384 below, high byte first. -/
theorem coinWord_eq (c : CoinCondition) (v : U32) :
    coinWord c v = [BitVec.ofNat 8 (64 * (conditionCode c).toNat + v.toNat % 16384 / 256),
      BitVec.ofNat 8 (v.toNat % 256)] := by
  have hv : (v &&& 0x3FFF).toNat = v.toNat % 16384 := by
    simpa using Nat.and_two_pow_sub_one_eq_mod v.toNat 14
  have h1 : v.toNat % 16384 % 256 = v.toNat % 256 := Nat.mod_mod_of_dvd _ (by decide)
  simp only [coinWord]
  congr 1
  · apply BitVec.eq_of_toNat_eq
    simp only [BitVec.toNat_or, BitVec.toNat_setWidth, BitVec.toNat_ushiftRight, hv, BitVec.toNat_shiftLeft,
      BitVec.toNat_ofNat]
    have hb : v.toNat % 16384 / 256 < 64 := by omega
    rw [Nat.shiftRight_eq_div_pow, show 2 ^ 8 = 256 from rfl]
    generalize v.toNat % 16384 / 256 = x at hb ⊢
    rw [Nat.mod_eq_of_lt (show x < 256 by omega)]
    cases c <;> (revert x; decide)
  · congr 1
    apply BitVec.eq_of_toNat_eq
    rw [BitVec.toNat_setWidth, hv, BitVec.toNat_ofNat, h1, Nat.mod_mod_of_dvd _ (by decide)]

theorem coinIncrease_toNat (v : U32) (amount : U16) :
    (coinIncrease v amount).toNat = min (v.toNat + amount.toNat) 0xFFFFFFFF := by
  rw [coinIncrease, BitVec.toNat_ofNat, Nat.mod_eq_of_lt]
  omega

theorem coinDecrease_toNat (v : U32) (amount : U16) : (coinDecrease v amount).toNat = v.toNat - amount.toNat := by
  have ha : (amount.setWidth 32).toNat = amount.toNat := by
    have := amount.isLt
    simp; omega
  rw [coinDecrease]
  split
  · rw [BitVec.toNat_sub_of_le (by rw [BitVec.le_def, ha]; assumption), ha]
  · simp; omega

/-- The switch bytes of a request inside the buffer are the first ones of it. -/
theorem switchBytes_eq_take {buf : List Byte} {pl b : Nat} (h : pl * b ≤ buf.length) :
    switchBytes buf pl b = buf.take (pl * b) := by
  induction pl with
  | zero => simp [switchBytes]
  | succ n ih =>
    have hn : n * b ≤ buf.length := by rw [Nat.succ_mul] at h; omega
    have : switchBytes buf (n + 1) b = switchBytes buf n b ++ memRead buf (b * n) b := by
      simp [switchBytes, List.range_succ]
    rw [this, ih hn, memRead, Nat.succ_mul, List.take_add, Nat.mul_comm b n]

theorem memWrite_zero (buf v : List Byte) : memWrite buf 0 v = v ++ buf.drop v.length := by simp [memWrite]

end Sys2Proof.Machine
end

