-- ==== Sys2Proof/Laws/PerInstr.lean ====
section
/-! SUPPORT. The family `Size`, one lemma per constructor: whatever the code table, an instruction's encoding is as long as the
bytes its walk moves past, and it is never empty. -/

namespace Sys2Proof.Laws.Size

/-- The length of the encoding does not depend on the code table, and every command takes at least its code byte. -/
def Statement (i : Instr) : Prop := (∀ t : CodeTable, (encodeWith t i).length = i.size) ∧ 1 ≤ i.size

theorem ioident : Statement .ioident := ⟨fun _ => rfl, by decide⟩
theorem cmdrev : Statement .cmdrev := ⟨fun _ => rfl, by decide⟩
theorem jvsrev : Statement .jvsrev := ⟨fun _ => rfl, by decide⟩
theorem comver : Statement .comver := ⟨fun _ => rfl, by decide⟩
theorem featchk : Statement .featchk := ⟨fun _ => rfl, by decide⟩
theorem readswitch (args : Option (Byte × Byte)) : Statement (.readswitch args) :=
  ⟨fun _ => rfl, by simp [Instr.size, encode, encodeWith]⟩
theorem readcoin (count : Option Byte) : Statement (.readcoin count) :=
  ⟨fun _ => rfl, by simp [Instr.size, encode, encodeWith]⟩
theorem dataretry : Statement .dataretry := ⟨fun _ => rfl, by decide⟩
theorem coindecrease (args : Option (Byte × U16)) : Statement (.coindecrease args) :=
  ⟨fun _ => rfl, by simp [Instr.size, encode, encodeWith]⟩
theorem genericout1 (data : Option (List Byte)) : Statement (.genericout1 data) :=
  ⟨fun _ => rfl, by simp [Instr.size, encode, encodeWith]⟩
theorem coinincrease (args : Option (Byte × U16)) : Statement (.coinincrease args) :=
  ⟨fun _ => rfl, by simp [Instr.size, encode, encodeWith]⟩
theorem reset (literal : Option Byte) : Statement (.reset literal) :=
  ⟨fun _ => rfl, by simp [Instr.size, encode, encodeWith]⟩
theorem setaddr (address : Option Byte) : Statement (.setaddr address) :=
  ⟨fun _ => rfl, by simp [Instr.size, encode, encodeWith]⟩

end Sys2Proof.Laws.Size
end

