-- ==== Sys2Proof/Laws/Steps.lean ====
section
/-! SUPPORT. What any step of the bus can do to a board, said once (10_state.md R46, 60_exceptions.md R223,
70_reset_and_hazards.md R241). -/

namespace Sys2Proof.Machine

/-! ## Lists of boards -/

theorem getElem?_set_board {l : List Device} {i j : Nat} {d d' x : Device} (hi : l[i]? = some d)
    (hj : l[j]? = some x) : (l.set i d')[j]? = some (if i = j then d' else x) := by
  obtain ⟨hlt, _⟩ := List.getElem?_eq_some_iff.1 hi
  rw [List.getElem?_set]
  by_cases h : i = j
  · subst h; simp [hlt]
  · simp [h, hj]

theorem getElem?_modify_board {l : List Device} {i j : Nat} {f : Device → Device} {x : Device}
    (hj : l[j]? = some x) : (l.modify i f)[j]? = some (if i = j then f x else x) := by
  rw [List.getElem?_modify, hj]
  by_cases h : i = j <;> simp [h]

theorem modify_board_eq_set {l : List Device} {i : Nat} {f : Device → Device} {d : Device} (h : l[i]? = some d) :
    l.modify i f = l.set i (f d) := by
  apply List.ext_getElem?
  intro j
  rw [List.getElem?_modify, List.getElem?_set]
  by_cases hij : i = j
  · subst hij
    obtain ⟨hi, hd⟩ := List.getElem?_eq_some_iff.1 h
    simp [hi, hd]
  · simp [hij]

theorem all_set_board {P : Device → Prop} {l : List Device} {i : Nat} {d : Device} (h : ∀ x ∈ l, P x) (hd : P d) :
    ∀ x ∈ l.set i d, P x := by
  intro x hx
  rcases List.mem_or_eq_of_mem_set hx with hx | rfl
  · exact h x hx
  · exact hd

theorem all_modify_board {P : Device → Prop} {l : List Device} {i : Nat} {f : Device → Device} (h : ∀ x ∈ l, P x)
    (hf : ∀ d, P d → P (f d)) : ∀ x ∈ l.modify i f, P x := by
  intro x hx
  obtain ⟨n, _, rfl⟩ := List.getElem_of_mem hx
  rw [List.getElem_modify]
  split
  · exact hf _ (h _ (List.getElem_mem _))
  · exact h _ (List.getElem_mem _)

/-! ## One step -/

/-- What one step can do to board `j`, which is `d` before it. -/
inductive BoardStep (s : State) (j : Nat) (d : Device) : Device → Prop where
  /-- The board runs the command at the cursor. -/
  | command (w : Walk) (i : Instr) (walk : s.walk = some w) (going : w.stop = false) (here : w.dev = j)
      (code : decode s.params.codes (w.payload.drop w.pos) = .ok i) (d' : Device) (effect : BoardEffect i d d') :
      BoardStep s j d d'
  /-- The board keeps the frame it sends, or nothing changes. -/
  | sent (x : Option (List Byte)) : BoardStep s j d { d with lastSent := x }
  /-- A byte reaches its Receiver, and it may answer. -/
  | byte (b : Byte) (x : Option (List Byte)) : BoardStep s j d { d with rx := (d.rx.step b).1, lastSent := x }
  /-- The input-polling task writes. -/
  | poll (p : PollWrite) (d' : Device) (write : pollDevice d p = some d') : BoardStep s j d d'
  /-- The address-loss event. -/
  | addressLoss (walk : s.walk = none) (input : s.inputs.head? = some (.addressLoss j)) :
      BoardStep s j d (deviceReset d)
  /-- The board powers up. -/
  | powerUp (walk : s.walk = none) (cfg : DevConfig) (input : s.inputs.head? = some (.powerUp j cfg)) :
      BoardStep s j d (.powerUp cfg)

theorem BoardStep.refl (s : State) (j : Nat) (d : Device) : BoardStep s j d d := .sent d.lastSent

/-- From `u` to `t` the parameters stay, and every board takes one of its steps. -/
def BoardsStep (s u t : State) : Prop :=
  t.params = u.params ∧ ∀ j d, u.devices[j]? = some d → ∃ d', t.devices[j]? = some d' ∧ BoardStep s j d d'

theorem BoardsStep.ofHost {s t u : State} (h : HostStep u t) : BoardsStep s u t :=
  ⟨h.params, fun j d hd => ⟨d, by rw [h.devices]; exact hd, .refl s j d⟩⟩

theorem sendReply_boards {i : Nat} {f : Frame} {u t : State} (k : sendReply i f u = .next t) :
    t.params = u.params ∧ ∀ (j : Nat) (d : Device), u.devices[j]? = some d → ∃ x, t.devices[j]? = some { d with lastSent := x } := by
  obtain ⟨w, l, o, _, _, rfl | rfl⟩ := sendReply_next k
  · refine ⟨rfl, fun j d hd => ?_⟩
    by_cases h : i = j
    · exact ⟨some w, by rw [getElem?_modify_board hd, if_pos h]⟩
    · exact ⟨d.lastSent, by rw [getElem?_modify_board hd, if_neg h]⟩
  · exact ⟨rfl, fun j d hd => ⟨d.lastSent, hd⟩⟩

theorem deviceByte_boards {i : Nat} {b : Byte} {u t s : State} (k : deviceByte i b u = .next t) :
    BoardsStep s u t := by
  unfold deviceByte at k
  split at k
  · cases k
  · rename_i d hd
    simp only at k
    have h0 : ∀ j x, u.devices[j]? = some x →
        ∃ y, (u.devices.set i { d with rx := (d.rx.step b).1 })[j]? = some y ∧
          ∀ z, BoardStep s j x { y with lastSent := z } := by
      intro j x hx
      refine ⟨_, getElem?_set_board hd hx, ?_⟩
      by_cases h : i = j
      · subst h
        have : x = d := by rw [hd] at hx; exact (Option.some.inj hx).symm
        subst this
        rw [if_pos rfl]
        exact fun z => .byte b z
      · rw [if_neg h]
        exact fun z => .sent z
    have h1 : ∀ j x, u.devices[j]? = some x →
        ∃ y, (u.devices.set i { d with rx := (d.rx.step b).1 })[j]? = some y ∧ BoardStep s j x y := by
      intro j x hx
      obtain ⟨y, hy, hz⟩ := h0 j x hx
      exact ⟨y, hy, hz y.lastSent⟩
    split at k
    · cases k; exact ⟨rfl, h1⟩
    · unfold deviceEvent at k
      split at k
      · split at k
        · cases k; exact ⟨rfl, h1⟩
        · cases k; exact ⟨rfl, h1⟩
      · split at k
        · obtain ⟨h2, h3⟩ := sendReply_boards k
          refine ⟨h2, fun j x hx => ?_⟩
          obtain ⟨y, hy, hz⟩ := h0 j x hx
          obtain ⟨z, hz'⟩ := h3 j y hy
          exact ⟨_, hz', hz z⟩
        · cases k; exact ⟨rfl, h1⟩
      · cases k; exact ⟨rfl, h1⟩

theorem agentStep_boards {s u t : State} (k : agentStep u = .next t) : BoardsStep s u t := by
  unfold agentStep at k
  split at k
  · rename_i rest _
    exact deviceByte_boards (u := { u with line := rest }) k
  · split at k
    · cases k; exact ⟨rfl, fun j d hd => ⟨d, hd, .refl s j d⟩⟩
    · exact .ofHost (secondReset_step k)
    · exact .ofHost (finishReset_step k)
    · exact .ofHost (endWait_step k)
    · exact .ofHost (endResent_step k)

/-- Hearing a byte changes nothing but the line and the inputs. -/
theorem State.Hears.bus {s u : State} {j : Nat} {b : Byte} (h : s.Hears j b u) :
    s.walk = none ∧ u = { s with inputs := u.inputs, line := u.line } := by
  cases h with
  | line _ hw _ _ => exact ⟨hw, rfl⟩
  | tick _ _ k _ => exact ⟨k.walk, rfl⟩
  | drain _ _ k _ => exact ⟨k.walk, rfl⟩
  | byte _ k => exact ⟨k.walk, rfl⟩

/-- The step that gives a board a byte. -/
theorem State.Hears.step {s u : State} {j : Nat} {b : Byte} (h : s.Hears j b u) :
    Machine.step s = deviceByte j b u := by
  cases h with
  | line _ hw hi hl => simp [Machine.step, hw, busStep, hi, agentStep, hl]
  | tick _ _ k hl => simp [Machine.step, k.walk, busStep, k.inputs, takeInput, agentStep, hl]
  | drain _ _ k hl => simp [Machine.step, k.walk, busStep, k.inputs, takeInput, State.quiescent, agentStep, hl]
  | byte _ k => simp [Machine.step, k.walk, busStep, k.inputs, takeInput]

/-- A direct call of Interpret: on a board, of a verified frame, which the address filter lets through or drops. -/
theorem interpretCall_next {a : Agent} {f : Frame} {s t : State} (k : interpretCall a f s = .next t) :
    ∃ i d, a = .device i ∧ s.devices[i]? = some d ∧ f.verified = true ∧
      ((accepts d f = true ∧ t = { s with walk := some (Walk.start i f.payload) }) ∨ (accepts d f = false ∧ t = s)) := by
  unfold interpretCall at k
  split at k
  · cases k
  · split at k
    · cases k
    · rename_i i _ d hd
      split at k
      · rename_i hv
        refine ⟨i, d, rfl, hd, hv, ?_⟩
        simp only [deviceEvent] at k
        split at k
        · rename_i h; cases k; exact .inl ⟨h, rfl⟩
        · rename_i h; cases k; exact .inr ⟨by simpa using h, rfl⟩
      · cases k

/-- One input: `u` is the bus without it. -/
theorem takeInput_boards {i : Input} {s u t : State} (hw : s.walk = none) (hi : s.inputs.head? = some i)
    (k : takeInput i u = .next t) : BoardsStep s u t := by
  have same : BoardsStep s u u := ⟨rfl, fun j d hd => ⟨d, hd, .refl s j d⟩⟩
  unfold takeInput at k
  split at k
  · exact agentStep_boards k
  · split at k
    · cases k; exact same
    · exact agentStep_boards (u := { u with inputs := .drain :: u.inputs }) k
  · exact .ofHost (hostCall_step k)
  · cases k
  · obtain ⟨_, _, _, _, _, ⟨_, rfl⟩ | ⟨_, rfl⟩⟩ := interpretCall_next k <;> exact same
  · exact deviceByte_boards k
  · rename_i dev
    unfold addressLossInput at k
    split at k
    · cases k
    · rename_i d hd
      cases k
      refine ⟨rfl, fun j x hx => ⟨_, getElem?_set_board hd hx, ?_⟩⟩
      by_cases h : dev = j
      · subst h
        have : x = d := by rw [hd] at hx; exact (Option.some.inj hx).symm
        subst this
        rw [if_pos rfl]
        exact .addressLoss hw hi
      · rw [if_neg h]; exact .refl s j x
  · rename_i dev _ p
    unfold pollInput at k
    split at k
    · split at k
      · cases k
      · rename_i d hd
        split at k
        · cases k
        · rename_i d' hp
          cases k
          refine ⟨rfl, fun j x hx => ⟨_, getElem?_set_board hd hx, ?_⟩⟩
          by_cases h : dev = j
          · subst h
            have : x = d := by rw [hd] at hx; exact (Option.some.inj hx).symm
            subst this
            rw [if_pos rfl]
            exact .poll p d' hp
          · rw [if_neg h]; exact .refl s j x
    · cases k
  · rename_i dev cfg
    unfold powerUpInput at k
    split at k
    · split at k
      · rename_i hlt
        cases k
        have hd : u.devices[dev]? = some u.devices[dev] := List.getElem?_eq_getElem hlt
        refine ⟨rfl, fun j x hx => ⟨_, getElem?_set_board hd hx, ?_⟩⟩
        by_cases h : dev = j
        · subst h
          rw [if_pos rfl]
          exact .powerUp hw cfg hi
        · rw [if_neg h]; exact .refl s j x
      · split at k
        · cases k
          refine ⟨rfl, fun j x hx => ⟨x, ?_, .refl s j x⟩⟩
          obtain ⟨hlt, _⟩ := List.getElem?_eq_some_iff.1 hx
          simp only
          rw [List.getElem?_append_left hlt]
          exact hx
        · cases k
    · cases k

theorem finishFrame_boards {w : Walk} {s t : State} (k : finishFrame w s = .next t) : BoardsStep s s t := by
  rcases finishFrame_next k with rfl | ⟨_, d, b, _, _, rfl⟩ | ⟨_, _, _, k⟩
  · exact ⟨rfl, fun j d hd => ⟨d, hd, .refl s j d⟩⟩
  · obtain ⟨l, o, _, ⟨_, h⟩ | ⟨_, h⟩⟩ := deviceSend_cases w.dev b { s with walk := none } <;> rw [h] <;>
      exact ⟨rfl, fun j d hd => ⟨d, hd, .refl s j d⟩⟩
  · obtain ⟨h1, h2⟩ := sendReply_boards k
    refine ⟨h1, fun j d hd => ?_⟩
    obtain ⟨x, hx⟩ := h2 j d hd
    exact ⟨_, hx, .sent x⟩

/-- What one step of the bus can do to its boards. -/
theorem step_boards {s t : State} (k : step s = .next t) : BoardsStep s s t := by
  unfold step at k
  split at k
  · rename_i w hw
    unfold walkStep at k
    split at k
    · rename_i hr
      simp only [Walk.running, Bool.and_eq_true, Bool.not_eq_true'] at hr
      split at k
      · rename_i i hf
        obtain ⟨w1, d, w', d', h1, rfl, h3, h4⟩ := exec_effect k
        obtain rfl : w1 = w := by have := h1.walk; rw [hw] at this; exact (Option.some.inj this).symm
        refine ⟨rfl, fun j x hx => ⟨_, getElem?_set_board (i := w'.dev) (by rw [h3.dev]; exact h1.board) hx, ?_⟩⟩
        rw [h3.dev]
        by_cases h : w1.dev = j
        · have : x = d := by rw [← h, h1.board] at hx; exact (Option.some.inj hx).symm
          subst this
          rw [if_pos h]
          exact .command w1 i hw hr.2 h hf d' h4
        · rw [if_neg h]; exact .refl s j x
      · cases k; exact ⟨rfl, fun j d hd => ⟨d, hd, .refl s j d⟩⟩
    · exact finishFrame_boards k
  · rename_i hw
    unfold busStep at k
    split at k
    · exact agentStep_boards k
    · rename_i i rest hi
      exact takeInput_boards (u := { s with inputs := rest }) hw (by rw [hi]; rfl) k

end Sys2Proof.Machine
end

