-- ==== Sys2Proof/Laws/Stream.lean ====
section
/-! SUPPORT. The codec and the Receiver over whole byte sequences (40_codec.md R110 to R124): how one changed wire byte changes the
unescaped bytes, how a Receiver stores what Unescape gives, and when it emits. -/

namespace Sys2Proof.Machine

/-! ## Checksums and one changed byte -/

theorem checksumOf_append (s t : List Byte) : checksumOf (s ++ t) = checksumOf s + checksumOf t := by
  simp only [checksumOf, List.map_append, List.sum_append]
  rw [BitVec.ofNat_add]

theorem checksumOf_cons (b : Byte) (s : List Byte) : checksumOf (b :: s) = b + checksumOf s := by
  simp only [checksumOf, List.map_cons, List.sum_cons]
  rw [BitVec.ofNat_add, BitVec.ofNat_toNat, BitVec.setWidth_eq]

/-- A field that grows by `x` makes the checksum grow by `x`. -/
theorem checksumOf_change (s t : List Byte) (b x : Byte) :
    checksumOf (s ++ (b + x) :: t) = checksumOf (s ++ b :: t) + x := by
  simp only [checksumOf_append, checksumOf_cons, BitVec.add_assoc]
  rw [BitVec.add_comm x (checksumOf t)]

theorem flatMap_escape_length_ge (l : List Byte) : l.length ≤ (l.flatMap escape).length := by
  induction l with
  | nil => simp
  | cons b l ih =>
    have h : 1 ≤ (escape b).length := by unfold escape; split <;> simp
    rw [List.flatMap_cons, List.length_append, List.length_cons]
    omega

/-- One wire byte that is no MARK, changed to a byte that is neither SYNC nor MARK, changes one unescaped byte by the same
amount and leaves the others. -/
theorem unescape_change (l : List Byte) (p : Nat) (b b' : Byte) (h : (l.flatMap escape)[p]? = some b)
    (hb : b ≠ MARK) (hs : b' ≠ SYNC) (hm : b' ≠ MARK) :
    ∃ l1 x l2, l = l1 ++ x :: l2 ∧ (l1.flatMap escape).length ≤ p ∧
      p < (l1.flatMap escape).length + (escape x).length ∧
      unescape false ((l.flatMap escape).set p b') = .ok (l1 ++ (x + (b' - b)) :: l2) := by
  induction l generalizing p with
  | nil => simp at h
  | cons x l ih =>
    rw [List.flatMap_cons] at h ⊢
    by_cases hx : x = SYNC ∨ x = MARK
    · have he : escape x = [MARK, x - 1] := if_pos hx
      rw [he] at h ⊢
      match p, h with
      | 0, h => exact absurd (Option.some.inj h).symm hb
      | 1, h =>
        have hv : x - 1 = b := Option.some.inj h
        refine ⟨[], x, l, rfl, Nat.zero_le _, by rw [he]; simp, ?_⟩
        have ht := unescape_pair (b := b') hs (unescape_flatMap_escape l)
        have hv' : b' + 1 = x + (b' - b) := by
          rw [← hv]; bv_omega
        rw [← hv']
        exact ht
      | p + 2, h =>
        obtain ⟨l1, y, l2, e, h1, h2, h3⟩ := ih p h
        refine ⟨x :: l1, y, l2, by rw [e]; rfl, ?_, ?_, ?_⟩
        · rw [List.flatMap_cons, he, List.length_append]; simp only [List.length_cons, List.length_nil]; omega
        · rw [List.flatMap_cons, he, List.length_append]; simp only [List.length_cons, List.length_nil]; omega
        · have hne : x - 1 ≠ SYNC := by rcases hx with rfl | rfl <;> decide
          have ht := unescape_pair hne h3
          have hv : x - 1 + 1 = x := by bv_omega
          rw [hv] at ht
          exact ht
    · have he : escape x = [x] := if_neg hx
      obtain ⟨hx1, hx2⟩ := not_or.1 hx
      rw [he] at h ⊢
      match p, h with
      | 0, h =>
        have hv : x = b := Option.some.inj h
        refine ⟨[], x, l, rfl, Nat.zero_le _, by rw [he]; simp, ?_⟩
        have hv' : x + (b' - b) = b' := by rw [hv]; bv_omega
        rw [hv']
        simp [unescape, hs, hm, unescape_flatMap_escape]
      | p + 1, h =>
        obtain ⟨l1, y, l2, e, h1, h2, h3⟩ := ih p h
        refine ⟨x :: l1, y, l2, by rw [e]; rfl, ?_, ?_, ?_⟩
        · rw [List.flatMap_cons, he, List.length_append]; simp only [List.length_cons, List.length_nil]; omega
        · rw [List.flatMap_cons, he, List.length_append]; simp only [List.length_cons, List.length_nil]; omega
        · simp [unescape, hx1, hx2, h3]

/-! ## Unescaping piece by piece -/

/-- The last byte of a sequence that unescapes ends one unescaped byte: by itself, or as the second of a pair. -/
theorem unescape_snoc {w : List Byte} {b : Byte} {u : List Byte} (h : unescape false (w ++ [b]) = .ok u) :
    (∃ v, unescape false w = .ok v ∧ u = v ++ [b]) ∨
      ∃ w' v, w = w' ++ [MARK] ∧ unescape false w' = .ok v ∧ u = v ++ [b + 1] := by
  have both : ∀ (w : List Byte) (u : List Byte),
      (unescape false (w ++ [b]) = .ok u → (∃ v, unescape false w = .ok v ∧ u = v ++ [b]) ∨
        ∃ w' v, w = w' ++ [MARK] ∧ unescape false w' = .ok v ∧ u = v ++ [b + 1]) ∧
      (unescape true (w ++ [b]) = .ok u → (w = [] ∧ u = [b + 1]) ∨ (∃ v, unescape true w = .ok v ∧ u = v ++ [b]) ∨
        ∃ w' v, w = w' ++ [MARK] ∧ unescape true w' = .ok v ∧ u = v ++ [b + 1]) := by
    intro w
    induction w with
    | nil =>
      intro u
      constructor
      · intro h
        left
        simp only [List.nil_append, unescape] at h
        split at h
        · cases h
        · simp only [Bool.false_eq_true, if_false] at h
          split at h
          · cases h
          · cases h; exact ⟨[], rfl, rfl⟩
      · intro h
        left
        simp only [List.nil_append, unescape] at h
        split at h
        · cases h
        · cases h; exact ⟨rfl, rfl⟩
    | cons c w ih =>
      intro u
      constructor
      · intro h
        simp only [List.cons_append, unescape] at h
        split at h
        · cases h
        · rename_i hc
          simp only [Bool.false_eq_true, if_false] at h
          split at h
          · rename_i hm
            subst hm
            rcases (ih u).2 h with ⟨rfl, rfl⟩ | ⟨v, h1, h2⟩ | ⟨w', v, h0, h1, h2⟩
            · exact .inr ⟨[], [], rfl, rfl, rfl⟩
            · exact .inl ⟨v, by simp [unescape, hc, h1], h2⟩
            · exact .inr ⟨MARK :: w', v, by rw [h0]; rfl, by simp [unescape, hc, h1], h2⟩
          · rename_i hm
            split at h
            · rename_i x hx
              cases h
              rcases (ih x).1 hx with ⟨v, h1, h2⟩ | ⟨w', v, h0, h1, h2⟩
              · exact .inl ⟨c :: v, by simp [unescape, hc, hm, h1], by rw [h2]; rfl⟩
              · exact .inr ⟨c :: w', c :: v, by rw [h0]; rfl, by simp [unescape, hc, hm, h1], by rw [h2]; rfl⟩
            · cases h
      · intro h
        right
        simp only [List.cons_append, unescape] at h
        split at h
        · cases h
        · rename_i hc
          simp only [if_true] at h
          split at h
          · rename_i x hx
            cases h
            rcases (ih x).1 hx with ⟨v, h1, h2⟩ | ⟨w', v, h0, h1, h2⟩
            · exact .inl ⟨(c + 1) :: v, by simp [unescape, hc, h1], by rw [h2]; rfl⟩
            · exact .inr ⟨c :: w', (c + 1) :: v, by rw [h0]; rfl, by simp [unescape, hc, h1], by rw [h2]; rfl⟩
          · cases h
  exact (both w u).1 h

/-- A sequence that unescapes to at least one byte starts with the wire form of that byte. -/
theorem unescape_head {w : List Byte} {v : Byte} {u : List Byte} (h : unescape false w = .ok (v :: u)) :
    ∃ p q, w = p ++ q ∧ p ≠ [] ∧ unescape false q = .ok u ∧
      ∀ q' u', unescape false q' = .ok u' → unescape false (p ++ q') = .ok (v :: u') := by
  match w with
  | [] => simp [unescape] at h
  | c :: w =>
    simp only [unescape] at h
    split at h
    · cases h
    · rename_i hc
      simp only [Bool.false_eq_true, if_false] at h
      split at h
      · rename_i hm
        subst hm
        match w with
        | [] => simp [unescape] at h
        | d :: w =>
          simp only [unescape] at h
          split at h
          · cases h
          · rename_i hd
            simp only [if_true] at h
            split at h
            · rename_i x hx
              cases h
              exact ⟨[MARK, d], w, rfl, by simp, hx, fun q' u' hq => unescape_pair hd hq⟩
            · cases h
      · rename_i hm
        split at h
        · rename_i x hx
          cases h
          exact ⟨[v], w, rfl, by simp, hx, fun q' u' hq => by simp [unescape, hc, hm, hq]⟩
        · cases h

theorem sync_not_mem_of_unescape {e : Bool} {w u : List Byte} (h : unescape e w = .ok u) : SYNC ∉ w := by
  induction w generalizing e u with
  | nil => simp
  | cons c w ih =>
    simp only [unescape] at h
    split at h
    · cases h
    · rename_i hc
      have : SYNC ∉ w := by
        split at h
        · split at h
          · rename_i x hx; exact ih hx
          · cases h
        · split at h
          · exact ih h
          · split at h
            · rename_i x hx; exact ih hx
            · cases h
      simp only [List.mem_cons, not_or]
      exact ⟨fun e => hc e.symm, this⟩

/-! ## The Receiver over field values -/

/-- Store field values one by one, and list the events. -/
def Receiver.stores (r : Receiver) : List Byte → Receiver × List RxEvent
  | [] => (r, [])
  | v :: rest => (((r.store v).1.stores rest).1, (r.store v).2.toList ++ ((r.store v).1.stores rest).2)

theorem Receiver.stores_append (r : Receiver) (l m : List Byte) :
    r.stores (l ++ m) = (((r.stores l).1.stores m).1, (r.stores l).2 ++ ((r.stores l).1.stores m).2) := by
  induction l generalizing r with
  | nil => simp [Receiver.stores]
  | cons v l ih => simp [Receiver.stores, ih]

theorem Receiver.run_append (r : Receiver) (l m : List Byte) :
    r.run (l ++ m) = (((r.run l).1.run m).1, (r.run l).2 ++ ((r.run l).1.run m).2) := by
  induction l generalizing r with
  | nil => simp [Receiver.run]
  | cons v l ih => simp [Receiver.run, ih]

theorem Receiver.stores_esc (r : Receiver) (l : List Byte) (h : ∀ (r : Receiver) v, (r.store v).1.esc = r.esc) :
    (r.stores l).1.esc = r.esc := by
  induction l generalizing r with
  | nil => rfl
  | cons v l ih => simp [Receiver.stores, ih, h]

theorem Receiver.store_esc (r : Receiver) (v : Byte) : (r.store v).1.esc = r.esc := by
  unfold Receiver.store
  split <;> try rfl
  split <;> rfl

theorem Receiver.run_idle {r : Receiver} {w : List Byte} (hp : r.phase = .idle) (h : SYNC ∉ w) : r.run w = (r, []) := by
  induction w with
  | nil => rfl
  | cons b w ih =>
    simp only [List.mem_cons, not_or] at h
    have hb : b ≠ SYNC := fun e => h.1 e.symm
    have hs : r.step b = (r, none) := by simp [Receiver.step, hp, hb]
    simp [Receiver.run, hs, ih h.2]

theorem Receiver.stores_idle {r : Receiver} (hp : r.phase = .idle) (l : List Byte) : r.stores l = (r, []) := by
  induction l with
  | nil => rfl
  | cons v l ih =>
    have hs : r.store v = (r, none) := by simp [Receiver.store, hp]
    simp [Receiver.stores, hs, ih]

/-- Fed bytes that unescape, a Receiver stores the unescaped bytes (40_codec.md R120). -/
theorem Receiver.run_eq_stores {r : Receiver} {w u : List Byte} (he : r.esc = false)
    (h : unescape false w = .ok u) : r.run w = r.stores u := by
  have both : ∀ (w : List Byte) (r : Receiver) (u : List Byte), r.esc = false →
      (unescape false w = .ok u → r.run w = r.stores u) ∧
      (r.phase ≠ .idle → unescape true w = .ok u → Receiver.run { r with esc := true } w = r.stores u) := by
    intro w
    induction w with
    | nil =>
      intro r u he
      constructor
      · intro h; cases h; rfl
      · intro _ h; cases h
    | cons b w ih =>
      intro r u he
      constructor
      · intro h
        by_cases hp : r.phase = .idle
        · rw [Receiver.run_idle hp (sync_not_mem_of_unescape h), Receiver.stores_idle hp]
        · simp only [unescape] at h
          split at h
          · cases h
          · rename_i hc
            simp only [Bool.false_eq_true, if_false] at h
            split at h
            · rename_i hm
              have hms : MARK ≠ SYNC := by decide
              have hs : r.step b = ({ r with esc := true }, none) := by simp [Receiver.step, hms, hp, he, hm]
              have := (ih r u he).2 hp h
              simp [Receiver.run, hs, this]
            · rename_i hm
              split at h
              · rename_i x hx
                cases h
                have hs : r.step b = r.store b := by simp [Receiver.step, hc, hp, he, hm]
                have := (ih (r.store b).1 x (by rw [Receiver.store_esc, he])).1 hx
                simp [Receiver.run, hs, this, Receiver.stores]
              · cases h
      · intro hp h
        simp only [unescape] at h
        split at h
        · cases h
        · rename_i hc
          simp only [if_true] at h
          split at h
          · rename_i x hx
            cases h
            have hr : ({ r with esc := false } : Receiver) = r := by rw [← he]
            have hs : Receiver.step { r with esc := true } b = r.store (b + 1) := by
              simp [Receiver.step, hc, hp, hr]
            have := (ih (r.store (b + 1)).1 x (by rw [Receiver.store_esc, he])).1 hx
            rw [Receiver.run, hs, this, Receiver.stores]
          · cases h
  exact (both w r u he).1 h

/-- Fed all but the last byte of a sequence that unescapes, a Receiver has stored all but the last unescaped byte: there is no
event that the last byte did not bring. -/
theorem Receiver.run_init_events {r : Receiver} {w u : List Byte} {b v : Byte} (he : r.esc = false)
    (h : unescape false (w ++ [b]) = .ok (u ++ [v])) : (r.run w).2 = (r.stores u).2 := by
  rcases unescape_snoc h with ⟨x, h1, h2⟩ | ⟨w', x, h0, h1, h2⟩
  · obtain ⟨rfl, _⟩ := List.append_inj' h2 rfl
    rw [Receiver.run_eq_stores he h1]
  · obtain ⟨rfl, _⟩ := List.append_inj' h2 rfl
    subst h0
    rw [Receiver.run_append, Receiver.run_eq_stores he h1]
    have hesc : (r.stores u).1.esc = false := by rw [Receiver.stores_esc _ _ Receiver.store_esc, he]
    have hm : MARK ≠ SYNC := by decide
    have hs : ((r.stores u).1.step MARK).2 = none := by
      by_cases hp : (r.stores u).1.phase = .idle <;> simp [Receiver.step, hm, hp, hesc]
    simp [Receiver.run, hs]

/-! ## The body of a frame -/

/-- The field values that the frame in progress still needs, once its length byte is stored. -/
def Receiver.remaining (r : Receiver) : Nat :=
  match r.phase with
  | .status => r.len.toNat + 1
  | .payload => r.len.toNat - r.expectStatus.toNat - r.payload.length + 1
  | .sum => 1
  | _ => 0

/-- Past the length byte, and in legal form. -/
structure Receiver.InBody (r : Receiver) (e : Bool) : Prop where
  wf : r.Wf e
  esc : r.esc = false
  phase : r.phase = .status ∨ r.phase = .payload ∨ r.phase = .sum

/-- One field value before the checksum is stored without an event. -/
theorem Receiver.InBody.store {r : Receiver} {e : Bool} (h : r.InBody e) (hr : 2 ≤ r.remaining) (v : Byte) :
    (r.store v).2 = none ∧ (r.store v).1.InBody e ∧ (r.store v).1.remaining + 1 = r.remaining ∧
      (r.store v).1.addr = r.addr ∧ (r.store v).1.len = r.len ∧
      (r.store v).1.status.toList ++ (r.store v).1.payload = r.status.toList ++ r.payload ++ [v] := by
  have hw := h.wf.store h.esc v
  have he := Receiver.store_esc r v
  have role := h.wf.role
  rcases h.phase with hp | hp | hp
  · have hst := h.wf.inStatus hp
    have hl := h.wf.length (.inl hp)
    obtain ⟨hpl, hsn⟩ := h.wf.early (.inr (.inr hp))
    subst hst
    simp only [Bool.toNat_true] at hl
    by_cases h1 : r.len.toNat > 1
    · have hs : r.store v =
          ({ r with status := some v, sum := r.sum + v, phase := .payload }, none) := by
        simp [Receiver.store, hp, h1]
      rw [hs] at hw he ⊢
      refine ⟨rfl, ⟨hw, by rw [he, h.esc], .inr (.inl rfl)⟩, ?_, rfl, rfl, by simp [hpl, hsn]⟩
      simp [Receiver.remaining, hp, hpl, role]
      omega
    · have hs : r.store v = ({ r with status := some v, sum := r.sum + v, phase := .sum }, none) := by
        simp [Receiver.store, hp, h1]
      rw [hs] at hw he ⊢
      refine ⟨rfl, ⟨hw, by rw [he, h.esc], .inr (.inr rfl)⟩, ?_, rfl, rfl, by simp [hpl, hsn]⟩
      simp [Receiver.remaining, hp]
      omega
  · have hi := h.wf.inPayload hp
    by_cases h1 : r.payload.length + 1 = r.len.toNat - r.expectStatus.toNat
    · have hs : r.store v =
          ({ r with payload := r.payload ++ [v], sum := r.sum + v, phase := .sum }, none) := by
        simp [Receiver.store, hp, h1]
      rw [hs] at hw he ⊢
      refine ⟨rfl, ⟨hw, by rw [he, h.esc], .inr (.inr rfl)⟩, ?_, rfl, rfl, by simp⟩
      simp [Receiver.remaining, hp]
      omega
    · have hs : r.store v =
          ({ r with payload := r.payload ++ [v], sum := r.sum + v, phase := .payload }, none) := by
        simp [Receiver.store, hp, h1]
      rw [hs] at hw he ⊢
      refine ⟨rfl, ⟨hw, by rw [he, h.esc], .inr (.inl rfl)⟩, ?_, rfl, rfl, by simp⟩
      simp [Receiver.remaining, hp, role] at h1 ⊢
      omega
  · simp [Receiver.remaining, hp] at hr

/-- Field values before the checksum are stored without an event. -/
theorem Receiver.InBody.stores {r : Receiver} {e : Bool} (h : r.InBody e) {l : List Byte}
    (hr : l.length + 1 ≤ r.remaining) :
    (r.stores l).2 = [] ∧ (r.stores l).1.InBody e ∧ (r.stores l).1.remaining + l.length = r.remaining ∧
      (r.stores l).1.addr = r.addr ∧ (r.stores l).1.len = r.len ∧
      (r.stores l).1.status.toList ++ (r.stores l).1.payload = r.status.toList ++ r.payload ++ l := by
  induction l generalizing r with
  | nil => exact ⟨rfl, h, rfl, rfl, rfl, by simp [Receiver.stores]⟩
  | cons v l ih =>
    simp only [List.length_cons] at hr
    obtain ⟨s1, s2, s3, s4, s5, s6⟩ := h.store (by omega) v
    obtain ⟨i1, i2, i3, i4, i5, i6⟩ := ih s2 (by omega)
    simp only [Receiver.stores, List.length_cons]
    refine ⟨by rw [s1, i1]; rfl, i2, by omega, by rw [i4, s4], by rw [i5, s5], ?_⟩
    rw [i6, s6]
    simp

/-- When one value remains the Receiver is at the checksum. -/
theorem Receiver.InBody.atSum {r : Receiver} {e : Bool} (h : r.InBody e) (hr : r.remaining = 1) : r.phase = .sum := by
  have role := h.wf.role
  rcases h.phase with hp | hp | hp
  · have hl := h.wf.length (.inl hp)
    have hst := h.wf.inStatus hp
    subst hst
    simp [Receiver.remaining, hp] at hr hl
    omega
  · have hi := h.wf.inPayload hp
    simp [Receiver.remaining, hp, role] at hr
    omega
  · exact hp

end Sys2Proof.Machine
end

