-- ==== Sys2Proof/Tests/Slice0.lean ====
section
/-! SUPPORT. Tests: the terms the well-formedness checks refuse, one hand-written word for each command, one or two steps a
command with the results that 41_interpreter.md and 95_test_vectors.md give, and for each statement a state that meets its
hypotheses, clause by clause. -/

namespace Sys2Proof.Tests
open Sys2Proof.Machine

/-- Data of `n` bytes. -/
def filled (n : Nat) : List Byte := List.replicate n 0x01

theorem filled_length (n : Nat) : (filled n).length = n := List.length_replicate

/-! ## Ill-formed terms are refused -/

theorem test_wf_readswitch_without_args : (Instr.readswitch none).wf = false := by decide
theorem test_wf_readcoin_without_count : (Instr.readcoin none).wf = false := by decide
theorem test_wf_coinincrease_without_args : (Instr.coinincrease none).wf = false := by decide
theorem test_wf_coindecrease_without_args : (Instr.coindecrease none).wf = false := by decide
theorem test_wf_genericout1_without_data : (Instr.genericout1 none).wf = false := by decide
theorem test_wf_genericout1_over_count : (Instr.genericout1 (some (filled 256))).wf = false := by
  simp only [Instr.wf, Option.any_some, filled_length]; decide
theorem test_wf_reset_without_literal : (Instr.reset none).wf = false := by decide
theorem test_wf_reset_other_literal : (Instr.reset (some 0xD8)).wf = false := by decide
theorem test_wf_setaddr_without_address : (Instr.setaddr none).wf = false := by decide

theorem test_wf_codes_duplicate : CodeTable.wf { CodeTable.standard with cmdrev := 0x10 } = false := by decide
theorem test_wf_codes_manufacturer : CodeTable.wf { CodeTable.standard with setaddr := 0x60 } = false := by decide
theorem test_wf_codes_manufacturer_top : CodeTable.wf { CodeTable.standard with setaddr := 0x7F } = false := by decide
theorem test_wf_codes_reset : CodeTable.wf { CodeTable.standard with reset := 0xF2 } = false := by decide

theorem test_wf_identity_byte : DevConfig.wf { DevConfig.default with identity := [0x41, 0x1F] } = false := by decide
theorem test_wf_identity_byte_top : DevConfig.wf { DevConfig.default with identity := [0x7F] } = false := by decide
theorem test_wf_cmd_version : DevConfig.wf { DevConfig.default with cmdVersion := 0x1A } = false := by decide
theorem test_wf_jvs_version : DevConfig.wf { DevConfig.default with jvsVersion := 0xA0 } = false := by decide
theorem test_wf_comm_version : DevConfig.wf { DevConfig.default with commVersion := 0x0F } = false := by decide
theorem test_wf_feature_end : DevConfig.wf { DevConfig.default with features := [⟨.end_, 0, 0, 0⟩] } = false := by decide
theorem test_wf_feature_p1 : DevConfig.wf { DevConfig.default with features := [⟨.coin, 100, 0, 0⟩] } = false := by decide
theorem test_wf_feature_p2 : DevConfig.wf { DevConfig.default with features := [⟨.coin, 0, 100, 0⟩] } = false := by decide
theorem test_wf_feature_p3 : DevConfig.wf { DevConfig.default with features := [⟨.coin, 0, 0, 100⟩] } = false := by decide

/-! ## One word of each command, written out from 30_encoding.md R86 and R92 -/

theorem test_decode_ioident : decode .standard [0x10] = .ok .ioident := by decide
theorem test_decode_cmdrev : decode .standard [0x11] = .ok .cmdrev := by decide
theorem test_decode_jvsrev : decode .standard [0x12] = .ok .jvsrev := by decide
theorem test_decode_comver : decode .standard [0x13] = .ok .comver := by decide
theorem test_decode_featchk : decode .standard [0x14] = .ok .featchk := by decide
theorem test_decode_readswitch : decode .standard [0x20, 0x02, 0x03] = .ok (.readswitch (some (2, 3))) := by decide
theorem test_decode_readcoin : decode .standard [0x21, 0x02] = .ok (.readcoin (some 2)) := by decide
theorem test_decode_dataretry : decode .standard [0x2F] = .ok .dataretry := by decide
theorem test_decode_coindecrease :
    decode .standard [0x30, 0x01, 0x03, 0xE8] = .ok (.coindecrease (some (1, 1000))) := by decide
theorem test_decode_genericout1 :
    decode .standard [0x32, 0x02, 0xE0, 0xD0, 0x11] = .ok (.genericout1 (some [0xE0, 0xD0])) := by decide
theorem test_decode_coinincrease :
    decode .standard [0x35, 0x02, 0x01, 0x00] = .ok (.coinincrease (some (2, 256))) := by decide
theorem test_decode_reset : decode .standard [0xF0, 0xD9] = .ok (.reset (some 0xD9)) := by decide
theorem test_decode_setaddr : decode .standard [0xF1, 0x05] = .ok (.setaddr (some 5)) := by decide

theorem test_decode_unrecognised : decode .standard [0x22, 0x01] = .error (.unrecognised 0x22) := by decide
theorem test_decode_end : decode .standard [] = .error .endOfPayload := by decide
theorem test_decode_short_args : decode .standard [0x35, 0x01, 0x00] = .ok (.coinincrease none) := by decide
theorem test_decode_short_data : decode .standard [0x32, 0x02, 0x01] = .ok (.genericout1 none) := by decide
/-- The second payload byte of a table word is bits 15 to 8. -/
theorem test_table_word : decodeTableWord 24 0x030220 = some (.readswitch (some (2, 3))) := by decide

/-! ## Small states -/

/-- A board with the default configuration (CFG-A of 95_test_vectors.md), at address 1. -/
def board : Device := { Device.powerUp .default with nodeId := 1, senseOut := true }

/-- A board that was never addressed. -/
def fresh : Device := .powerUp .default

/-- A bus of these boards, where the walk `w` runs. -/
def walking (ds : List Device) (w : Walk) : State := { State.reset with devices := ds, walk := some w }

/-- The walk over payload `p` of the first board's frame, `resp` already reported. -/
def walk (p resp : List Byte) : Walk := { Walk.start 0 p with resp := resp }

/-- A bus of these boards, waiting for its next input. -/
def bus (ds : List Device) (inputs : List Input) : State := { State.reset with devices := ds, inputs := inputs }

/-- What `f` reads in the next state, if there is one. -/
def after {α : Type} (s : State) (f : State → α) : Option α :=
  match step s with
  | .next t => some (f t)
  | _ => none

/-- The refusal a step ends in, if it does. -/
def refusal (s : State) : Option Refusal :=
  match step s with
  | .refused r => some r
  | _ => none

/-- The response after one step of a frame `p` at a board. -/
def respAfter (d : Device) (p : List Byte) : Option (Option (List Byte)) :=
  after (walking [d] (walk p [])) (fun t => t.walk.map (·.resp))

/-- What `f` reads in the board after one step of a frame `p`. -/
def boardAfter {α : Type} (d : Device) (p : List Byte) (f : Device → α) : Option (List α) :=
  after (walking [d] (walk p [])) (fun t => t.devices.map f)

/-! ## One step a command -/

/-- R152's example, identity "AB". -/
theorem test_ioident : respAfter { board with cfg := { DevConfig.default with identity := [0x41, 0x42] } } [0x10] =
    some (some [0x01, 0x41, 0x42, 0x00]) := by decide
/-- V41b, V41c, V41d. -/
theorem test_cmdrev : respAfter board [0x11] = some (some [0x01, 0x13]) := by decide
theorem test_jvsrev : respAfter board [0x12] = some (some [0x01, 0x30]) := by decide
theorem test_comver : respAfter board [0x13] = some (some [0x01, 0x10]) := by decide
/-- V41e. -/
theorem test_featchk : respAfter board [0x14] = some (some [0x01, 0x01, 0x02, 0x02, 0x00, 0x02, 0x02, 0x00, 0x00,
    0x12, 0x16, 0x00, 0x00, 0x00]) := by decide
/-- V41 and V43: all four bytes; the packed read. -/
theorem test_readswitch : respAfter { board with switches := [0x80, 0, 0x40, 0] } [0x20, 2, 2] =
    some (some [0x01, 0, 0x80, 0, 0x40, 0]) := by decide
theorem test_readswitch_packed : respAfter { board with switches := [0x80, 0x01, 0x40, 0], systemSwitches := 0x80 } [0x20, 2, 1] =
    some (some [0x01, 0x80, 0x80, 0x01]) := by decide
/-- W1 and V55. -/
theorem test_readcoin : respAfter { board with coinSlots := [300, 0] } [0x21, 2] =
    some (some [0x01, 0x01, 0x2C, 0, 0]) := by decide
theorem test_readcoin_masked : respAfter { board with coinSlots := [0x4001, 0x3FFF], coinCondition := [.jam, .busy] } [0x21, 2] =
    some (some [0x01, 0x40, 0x01, 0xFF, 0xFF]) := by decide
/-- V58 and V60. -/
theorem test_coinincrease : boardAfter { board with coinSlots := [300, 0] } [0x35, 1, 1, 0] (·.coinSlots) =
    some [[556, 0]] := by decide
theorem test_coinincrease_saturates : boardAfter { board with coinSlots := [0xFFFFFFF0, 0] } [0x35, 1, 0, 0x20] (·.coinSlots) =
    some [[0xFFFFFFFF, 0]] := by decide
/-- V61 and V62. -/
theorem test_coindecrease : boardAfter { board with coinSlots := [300, 7] } [0x30, 2, 0, 5] (·.coinSlots) =
    some [[300, 2]] := by decide
theorem test_coindecrease_clamps : boardAfter { board with coinSlots := [300, 0] } [0x30, 1, 0x03, 0xE8] (·.coinSlots) =
    some [[0, 0]] := by decide
/-- V71 and V72. -/
theorem test_genericout1 : boardAfter board [0x32, 2, 0xE0, 0xD0] (·.outputSlots) = some [[0xE0, 0xD0]] := by decide
theorem test_genericout1_keeps_rest : boardAfter { board with outputSlots := [1, 2] } [0x32, 1, 0x55] (·.outputSlots) =
    some [[0x55, 2]] := by decide
/-- V91 and V93. -/
theorem test_reset : boardAfter { board with coinSlots := [300, 0] } [0xF0, 0xD9] (fun d => (d.nodeId, d.senseOut, d.coinSlots)) =
    some [(0xFE, false, [0, 0])] := by decide
theorem test_reset_malformed : boardAfter board [0xF0, 0xD8] (fun d => (d.nodeId, d.senseOut)) =
    some [(1, true)] := by decide
/-- V96, and V102a on a chain of two. -/
theorem test_setaddr : boardAfter fresh [0xF1, 1] (fun d => (d.nodeId, d.senseOut)) = some [(1, true)] := by decide
theorem test_setaddr_defers :
    after (walking [{ fresh with cfg := { DevConfig.default with senseWired := true } }, fresh] (walk [0xF1, 1] []))
      (fun t => (t.devices.map (·.nodeId), t.walk.map (·.suppress))) = some ([0xFE, 0xFE], some true) := by decide
/-- V82: DATARETRY asks for the resend; the Finish sends the same bytes. -/
theorem test_dataretry : after (walking [{ board with lastSent := some [0xE0, 0, 1, 2, 3] }] (walk [0x2F] []))
    (fun t => t.walk.map (fun w => (w.resend, w.stop))) = some (some (true, true)) := by decide
theorem test_dataretry_finish :
    after (walking [{ board with lastSent := some [0xE0, 0, 1, 2, 3] }] { walk [0x2F] [] with stop := true, resend := true })
      (fun t => (t.walk, t.replies)) = some (none, [[0xE0, 0, 1, 2, 3]]) := by decide
/-- V86: the reply after an unrecognised code. -/
theorem test_unknown_reply :
    after (walking [board] { walk [0x11, 0x22] [0x01, 0x13] with fstatus := .unknownCommand, stop := true })
      (·.replies) = some [[0xE0, 0, 3, 2, 1, 0x13, 0x19]] := by decide
/-- V103f: an unconfigured buffer. -/
theorem test_misconfiguration :
    boardAfter { board with cfg := { DevConfig.default with switchCfg := .unconfigured }, switches := [] } [0x20, 1, 1]
      (·.misconfigFault) = some [true] := by decide
/-- V13 and V19: escaping. -/
theorem test_encode_escapes : encodeFrame (Frame.make 0x01 none [0x32, 0x02, 0xE0, 0xD0]) =
    some [0xE0, 0x01, 0x04, 0x32, 0x02, 0xD0, 0xDF, 0xD0, 0xCF, 0xE9] := by decide
theorem test_encode_address : encodeFrame (Frame.make 0xD0 none []) = some [0xE0, 0xD0, 0xCF, 0x00, 0xD0, 0xCF] := by decide
/-- V37 and V40a. -/
theorem test_decode_raw_sync : decodeFrame [0xE0, 1, 1, 0xE0, 2] false = .error (.framing .rawSync) := by decide
theorem test_decode_wraps : decodeFrame [0xE0, 1, 1, 0xD0, 0xFF, 2] false = .ok ⟨1, none, [0], 2⟩ := by decide
/-- V40k: a SYNC inside a frame ends it and starts the next. -/
theorem test_receiver_resync : ((Receiver.powerUp false).run [0xE0, 1, 2, 0x21, 0xE0, 1, 2, 0x21, 2, 0x26]).2 =
    [.framingError .rawSync, .frame ⟨1, none, [0x21, 2], 0x26⟩] := by decide

/-! ## Witnesses: states and operands that meet the hypotheses of each statement -/

theorem test_witness_DecodeOfEncode : CodeTable.standard.wf = true ∧ (Instr.reset (some 0xD9)).wf = true ∧
    (Instr.genericout1 (some (filled 255))).wf = true :=
  ⟨by decide, by decide, by simp only [Instr.wf, Option.any_some, filled_length]; decide⟩

theorem test_witness_DecodeReadsItsOwnBytes : decode .standard [0x20, 2, 3, 0x10] = .ok (.readswitch (some (2, 3))) := by decide

theorem test_witness_OtherCodesUnrecognised : CodeTable.standard.wf = true ∧ (0x22 : Byte) ∉ CodeTable.standard.toList ∧
    (0x60 ≤ (0x60 : Byte).toNat ∧ (0x60 : Byte).toNat ≤ 0x7F) ∧ (0x60 ≤ (0x7F : Byte).toNat ∧ (0x7F : Byte).toNat ≤ 0x7F) := by decide

theorem test_witness_StepRunsDecodedInstruction :
    (walking [board] (walk [0x11] [])).walk = some (walk [0x11] []) ∧ (walk [0x11] []).stop = false ∧
      decode .standard ((walk [0x11] []).payload.drop (walk [0x11] []).pos) = .ok .cmdrev := by decide

theorem test_witness_StepAtUnrecognisedCode : Params.standard.codes.wf = true ∧
    (walking [board] (walk [0x22] [])).walk = some (walk [0x22] []) ∧ (walk [0x22] []).stop = false ∧
      (walk [0x22] []).payload.drop (walk [0x22] []).pos = [0x22] ∧ (0x22 : Byte) ∉ Params.standard.codes.toList := by decide

/-- Every board and walk of the small states interprets. -/
theorem interpreting (d : Device) (p resp : List Byte) : Interpreting (walking [d] (walk p resp)) (walk p resp) d := ⟨rfl, rfl⟩

theorem test_witness_IoidentReportsIdentity :
    Interpreting (walking [board] (walk [] (filled 247))) (walk [] (filled 247)) board ∧
      (filled 247).length + (board.cfg.identity.length + 2) ≤ 253 ∧
      253 < (filled 248).length + (board.cfg.identity.length + 2) :=
  ⟨interpreting _ _ _, by rw [filled_length]; decide, by rw [filled_length]; decide⟩

theorem test_witness_VersionCommandsReport :
    Interpreting (walking [board] (walk [] (filled 251))) (walk [] (filled 251)) board ∧
      (filled 251).length + 2 ≤ 253 ∧ 253 < (filled 252).length + 2 :=
  ⟨interpreting _ _ _, by rw [filled_length], by rw [filled_length]; decide⟩

theorem test_witness_FeatchkReportsFeatures :
    Interpreting (walking [board] (walk [] (filled 239))) (walk [] (filled 239)) board ∧ board.cfg.wf = true ∧
      (filled 239).length + (4 * board.cfg.features.length + 2) ≤ 253 ∧
      253 < (filled 240).length + (4 * board.cfg.features.length + 2) :=
  ⟨interpreting _ _ _, by decide, by rw [filled_length]; decide, by rw [filled_length]; decide⟩

theorem test_witness_ReadswitchReports :
    Interpreting (walking [board] (walk [] (filled 247))) (walk [] (filled 247)) board ∧
      board.cfg.switchCfg = .configured 4 ∧ (2 : Byte).toNat ≤ limit1 board.cfg .switch ∧
      (2 : Byte).toNat ≤ limit2 board.cfg .switch ∧ (2 : Byte).toNat * (2 : Byte).toNat ≤ board.switches.length ∧
      (0 : Byte).toNat * (2 : Byte).toNat ≤ board.switches.length ∧
      (filled 247).length + ((2 : Byte).toNat * (2 : Byte).toNat + 2) ≤ 253 ∧
      253 < (filled 248).length + ((2 : Byte).toNat * (2 : Byte).toNat + 2) :=
  ⟨interpreting _ _ _, by decide, by decide, by decide, by decide, by decide, by rw [filled_length]; decide, by rw [filled_length]; decide⟩

theorem test_witness_ReadcoinReports :
    Interpreting (walking [fresh] (walk [] (filled 248))) (walk [] (filled 248)) fresh ∧ fresh.Wf ∧
      fresh.cfg.coinCfg = .configured 2 ∧ (2 : Byte).toNat ≤ limit1 fresh.cfg .coin ∧
      (2 : Byte).toNat ≤ fresh.coinSlots.length ∧ (0 : Byte).toNat ≤ fresh.coinSlots.length ∧
      (filled 248).length + (2 * (2 : Byte).toNat + 1) ≤ 253 ∧ 253 < (filled 249).length + (2 * (2 : Byte).toNat + 1) :=
  ⟨interpreting _ _ _, Device.powerUp_wf (by decide), by decide, by decide, by decide, by decide, by rw [filled_length]; decide,
    by rw [filled_length]; decide⟩

theorem test_witness_CoinincreaseAdds :
    Interpreting (walking [{ board with coinSlots := [5, 0xFFFFFFFE] }] (walk [] (filled 252))) (walk [] (filled 252))
      { board with coinSlots := [5, 0xFFFFFFFE] } ∧ board.cfg.coinCfg = .configured 2 ∧
      1 ≤ (1 : Byte).toNat ∧ (2 : Byte).toNat ≤ limit1 board.cfg .coin ∧
      ([5, 0xFFFFFFFE] : List U32)[(1 : Byte).toNat - 1]? = some 5 ∧
      ([5, 0xFFFFFFFE] : List U32)[(2 : Byte).toNat - 1]? = some 0xFFFFFFFE ∧
      (0x10004 : U32).toNat = min ((5 : U32).toNat + (0xFFFF : U16).toNat) 0xFFFFFFFF ∧
      (0xFFFFFFFF : U32).toNat = min ((0xFFFFFFFE : U32).toNat + (2 : U16).toNat) 0xFFFFFFFF ∧
      (filled 252).length + 1 ≤ 253 ∧ 253 < (filled 253).length + 1 :=
  ⟨interpreting _ _ _, by decide, by decide, by decide, by decide, by decide, by decide, by decide, by rw [filled_length],
    by rw [filled_length]; decide⟩

theorem test_witness_CoindecreaseSubtracts :
    Interpreting (walking [{ board with coinSlots := [5, 300] }] (walk [] (filled 252))) (walk [] (filled 252))
      { board with coinSlots := [5, 300] } ∧ board.cfg.coinCfg = .configured 2 ∧
      1 ≤ (1 : Byte).toNat ∧ (2 : Byte).toNat ≤ limit1 board.cfg .coin ∧
      ([5, 300] : List U32)[(1 : Byte).toNat - 1]? = some 5 ∧ ([5, 300] : List U32)[(2 : Byte).toNat - 1]? = some 300 ∧
      (0 : U32).toNat = (5 : U32).toNat - (6 : U16).toNat ∧ (299 : U32).toNat = (300 : U32).toNat - (1 : U16).toNat ∧
      (filled 252).length + 1 ≤ 253 ∧ 253 < (filled 253).length + 1 :=
  ⟨interpreting _ _ _, by decide, by decide, by decide, by decide, by decide, by decide, by decide, by rw [filled_length],
    by rw [filled_length]; decide⟩

theorem test_witness_GenericoutWrites :
    Interpreting (walking [board] (walk [] (filled 252))) (walk [] (filled 252)) board ∧
      board.cfg.outputCfg = .configured 2 ∧
      ([0xE0, 0xD0] : List Byte).length ≤ (limit1 board.cfg .generalOutput + 7) / 8 ∧
      ([0xE0, 0xD0] : List Byte).length ≤ board.outputSlots.length ∧ ([] : List Byte).length ≤ board.outputSlots.length ∧
      (filled 252).length + 1 ≤ 253 ∧ 253 < (filled 253).length + 1 :=
  ⟨interpreting _ _ _, by decide, by decide, by decide, by decide, by rw [filled_length], by rw [filled_length]; decide⟩

theorem test_witness_OverLimitReportsParameterError :
    Interpreting (walking [board] (walk [] (filled 252))) (walk [] (filled 252)) board ∧
      (filled 252).length + 1 ≤ 253 ∧ 253 < (filled 253).length + 1 ∧
      (board.cfg.switchCfg = .configured 4 ∧ limit1 board.cfg .switch < (3 : Byte).toNat ∧
        limit2 board.cfg .switch < (3 : Byte).toNat) ∧
      (board.cfg.coinCfg = .configured 2 ∧ limit1 board.cfg .coin < (3 : Byte).toNat ∧ (0 : Byte).toNat = 0) ∧
      (board.cfg.outputCfg = .configured 2 ∧
        (limit1 board.cfg .generalOutput + 7) / 8 < ([1, 2, 3] : List Byte).length) :=
  ⟨interpreting _ _ _, by rw [filled_length], by rw [filled_length]; decide, by decide, by decide, by decide⟩

theorem test_witness_MissingArgumentsReportDataError :
    Interpreting (walking [board] (walk [] (filled 252))) (walk [] (filled 252)) board ∧
      (filled 252).length + 1 ≤ 253 ∧ 253 < (filled 253).length + 1 :=
  ⟨interpreting _ _ _, by rw [filled_length], by rw [filled_length]; decide⟩

/-- A board with no buffer. -/
def bare : Device :=
  .powerUp { DevConfig.default with switchCfg := .unconfigured, coinCfg := .unconfigured, outputCfg := .unconfigured }

/-- A board whose buffers are one short of what its features declare. -/
def small : Device :=
  .powerUp { DevConfig.default with switchCfg := .configured 3, coinCfg := .configured 1, outputCfg := .configured 1 }

theorem test_witness_MisconfigurationAborts :
    Interpreting (walking [bare] (walk [] [])) (walk [] []) bare ∧ Interpreting (walking [small] (walk [] [])) (walk [] []) small ∧
      bare.cfg.switchCfg = .unconfigured ∧ bare.cfg.coinCfg = .unconfigured ∧ bare.cfg.outputCfg = .unconfigured ∧
      ((2 : Byte).toNat ≤ limit1 small.cfg .switch ∧ (2 : Byte).toNat ≤ limit2 small.cfg .switch ∧
        small.switches.length < (2 : Byte).toNat * (2 : Byte).toNat) ∧
      ((2 : Byte).toNat ≤ limit1 small.cfg .coin ∧ small.coinSlots.length < (2 : Byte).toNat) ∧
      (([1, 2] : List Byte).length ≤ (limit1 small.cfg .generalOutput + 7) / 8 ∧
        small.outputSlots.length < ([1, 2] : List Byte).length) :=
  ⟨interpreting _ _ _, interpreting _ _ _, by decide, by decide, by decide, by decide, by decide, by decide⟩

theorem test_witness_ResetRestoresDefaults :
    Interpreting (walking [board] (walk [0xF0, 0xD9] [])) (walk [0xF0, 0xD9] []) board ∧
      (some 0xD8 : Option Byte) ≠ some 0xD9 ∧ (none : Option Byte) ≠ some 0xD9 :=
  ⟨interpreting _ _ _, by decide, by decide⟩

/-- An unaddressed board with a sense input. -/
def wired : Device := .powerUp { DevConfig.default with senseWired := true }

theorem test_witness_SetaddrClaimsAddress :
    Interpreting (walking [fresh] (walk [] (filled 252))) (walk [] (filled 252)) fresh ∧ fresh.nodeId = 0xFE ∧
      fresh.cfg.senseWired = false ∧
      (Interpreting (walking [wired, board] (walk [] [])) (walk [] []) wired ∧ wired.nodeId = 0xFE ∧
        ∀ next, (walking [wired, board] (walk [] [])).devices[(walk [] []).dev + 1]? = some next → next.senseOut = true) ∧
      (1 ≤ (1 : Byte).toNat ∧ (0xFD : Byte).toNat ≤ 0xFD) ∧ (0xFE : Byte) ∈ ([0x00, 0xFE, 0xFF] : List Byte) ∧
      (filled 252).length + 1 ≤ 253 ∧ 253 < (filled 253).length + 1 :=
  ⟨interpreting _ _ _, by decide, by decide, ⟨⟨rfl, rfl⟩, by decide, by rintro next ⟨⟩; rfl⟩, by decide, by decide,
    by rw [filled_length], by rw [filled_length]; decide⟩

theorem test_witness_SetaddrNotActedOn :
    (Interpreting (walking [board] (walk [] [])) (walk [] []) board ∧ board.nodeId ≠ 0xFE) ∧
    (Interpreting (walking [wired, fresh] (walk [] [])) (walk [] []) wired ∧ wired.cfg.senseWired = true ∧
      ∃ next, (walking [wired, fresh] (walk [] [])).devices[(walk [] []).dev + 1]? = some next ∧ next.senseOut = false) :=
  ⟨⟨interpreting _ _ _, by decide⟩, ⟨rfl, rfl⟩, rfl, fresh, rfl, rfl⟩

/-- A board that sent the frame `E0 00 01 02 03`. -/
def sender : Device := { board with lastSent := some [0xE0, 0, 1, 2, 3] }

theorem test_witness_DataretryAsksForLastFrame :
    Interpreting (walking [board] (walk [] [])) (walk [] []) board ∧ board.lastSent = none ∧
    Interpreting (walking [sender] (walk [] [])) (walk [] []) sender ∧ sender.lastSent.isSome = true :=
  ⟨interpreting _ _ _, rfl, interpreting _ _ _, rfl⟩

/-- The walk of `walk p resp`, stopped. -/
def stopped (p resp : List Byte) : Walk := { walk p resp with stop := true }

theorem test_witness_FinishResendsLastFrame :
    Interpreting (walking [sender] { stopped [] [] with resend := true }) { stopped [] [] with resend := true } sender ∧
      sender.lastSent = some [0xE0, 0, 1, 2, 3] ∧ (walking [sender] (stopped [] [])).oracle.sends = [] ∧
    Interpreting { walking [sender] { stopped [] [] with resend := true } with oracle := ⟨[.writeError], [], []⟩ }
      { stopped [] [] with resend := true } sender :=
  ⟨⟨rfl, rfl⟩, rfl, rfl, ⟨rfl, rfl⟩⟩

theorem test_witness_FinishSendsReply :
    Interpreting (walking [board] (walk [] (filled 253))) (walk [] (filled 253)) board ∧
      (walk [] (filled 253)).pos = (walk [] (filled 253)).payload.length ∧ filled 253 ≠ [] ∧ (filled 253).length ≤ 253 ∧
    Interpreting (walking [board] { stopped [0x22] [] with fstatus := .unknownCommand })
      { stopped [0x22] [] with fstatus := .unknownCommand } board ∧
    ({ walking [board] (walk [] [1]) with oracle := ⟨[.writeError], [], []⟩ } : State).oracle.sends = [.writeError] :=
  ⟨⟨rfl, rfl⟩, rfl, fun h => absurd (congrArg List.length h) (by rw [filled_length]; decide),
    by rw [filled_length], ⟨rfl, rfl⟩, rfl⟩

theorem test_witness_FinishStaysSilent :
    (walking [board] (walk [] [])).walk = some (walk [] []) ∧
      (walk [] []).pos = (walk [] []).payload.length ∧ (walk [] []).resend = false ∧ (walk [] []).resp = [] ∧
      (walk [] []).fstatus = .normal ∧
    (walking [board] (stopped [1] [1]).quiet).walk = some (stopped [1] [1]).quiet ∧ (stopped [1] [1]).quiet.stop = true ∧
      (stopped [1] [1]).quiet.suppress = true := by decide

/-- A bus of one board in legal form, where it interprets a frame. -/
theorem legal (p : List Byte) (h : p.length ≤ 254) : (walking [fresh] (walk p [])).Inv where
  codes := rfl
  host :=
    { rx := Receiver.powerUp_wf true, count := Nat.zero_le _, directory := by simp [walking, State.reset, HostEngine.powerUp],
      records := by simp [walking, State.reset, HostEngine.powerUp],
      lastSent := by simp [walking, State.reset, HostEngine.powerUp], idle := fun _ => rfl,
      busy := fun h => absurd rfl h, sent := by simp [walking, State.reset, HostEngine.powerUp],
      pending := by simp [walking, State.reset, HostEngine.powerUp],
      resetting := by simp [walking, State.reset, HostEngine.powerUp],
      exchanging := by simp [walking, State.reset, HostEngine.powerUp] }
  devices := by
    intro d hd
    simp only [walking, List.mem_singleton] at hd
    subst hd
    exact Device.powerUp_wf (by decide)
  walk := by
    rintro w ⟨⟩
    exact Walk.start_wf Nat.zero_lt_one h
  line := by simp [walking, State.reset]
  replies := by simp [walking, State.reset]

theorem test_witness_InterpretingNeverStops :
    (walking [fresh] (walk [0x11] [])).Inv ∧ (walking [fresh] (walk [0x11] [])).walk.isSome = true :=
  ⟨legal _ (by decide), rfl⟩

theorem test_witness_WalkAlwaysEnds :
    (walking [fresh] (walk (filled 254) [])).Inv ∧
      (walking [fresh] (walk (filled 254) [])).walk = some (walk (filled 254) []) ∧
      (walk [0x11] []).stop = false ∧ (walk [0x11] []).pos < (walk [0x11] []).payload.length :=
  ⟨legal _ (by rw [filled_length]), rfl, rfl, by decide⟩

theorem test_witness_CommandTouchesOnlyItsState :
    (∃ t, exec (.genericout1 (some [1])) (walking [board, fresh] (walk [] [])) = .next t) ∧
      Instr.genericout1 (some [1]) ≠ .reset (some 0xD9) := ⟨⟨_, rfl⟩, by decide⟩

theorem test_witness_ReadcoinSeesEarlierIncrease :
    Interpreting (walking [board] (Walk.start 0 [0x35, 0x01, 0x01, 0x2C, 0x21, 0x01]))
        (Walk.start 0 [0x35, 0x01, 0x01, 0x2C, 0x21, 0x01]) board ∧
      (walking [board] (walk [] [])).params.codes = .standard ∧ board.cfg.coinCfg = .configured 2 ∧
      1 ≤ limit1 board.cfg .coin ∧ board.coinSlots = [0, 0] ∧ board.coinCondition = [.normal, .normal] ∧
      (300 : U32).toNat = min ((0 : U32).toNat + (256 * (0x01 : Byte).toNat + (0x2C : Byte).toNat)) 0xFFFFFFFF :=
  ⟨⟨rfl, rfl⟩, rfl, rfl, by decide, by decide, by decide, by decide⟩

theorem test_witness_StepKeepsLegalForm :
    (walking [fresh] (walk [0x11] [])).Inv ∧ ∃ t, step (walking [fresh] (walk [0x11] [])) = .next t :=
  ⟨legal _ (by decide), _, rfl⟩

/-- A power-up in a board's place, and one at the far end. -/
theorem test_witness_ResetStateValues :
    (bus [board] [.powerUp 0 .default]).Takes (.powerUp 0 .default) [] ∧ 0 < (bus [board] []).devices.length ∧
    (bus [board] [.powerUp 1 .default]).Takes (.powerUp 1 .default) [] ∧ 1 = (bus [board] []).devices.length ∧
    DevConfig.default.wf = true := ⟨⟨rfl, rfl⟩, by decide, ⟨rfl, rfl⟩, rfl, by decide⟩

theorem test_witness_FaultFlagIsSticky :
    (∃ t, step (walking [{ board with misconfigFault := true }] (walk [0xF0, 0xD9] [])) = .next t) ∧
    (∃ t, step (bus [{ board with misconfigFault := true }] [.addressLoss 0]) = .next t) ∧
    (bus [{ board with misconfigFault := true }] [.addressLoss 0]).devices[0]? = some { board with misconfigFault := true } ∧
    ∀ cfg, (bus [board] [.addressLoss 0]).inputs.head? ≠ some (.powerUp 0 cfg) :=
  ⟨⟨_, rfl⟩, ⟨_, rfl⟩, rfl, by simp [bus]⟩

theorem test_witness_ConfigurationIsFixed :
    (∃ t, step (bus [board] [.addressLoss 0]) = .next t) ∧ (bus [board] [.addressLoss 0]).devices[0]? = some board ∧
    ∀ cfg, (bus [board] [.addressLoss 0]).inputs.head? ≠ some (.powerUp 0 cfg) :=
  ⟨⟨_, rfl⟩, rfl, by simp [bus]⟩

/-- One witness a trigger. -/
theorem test_witness_ResetHasThreeTriggers :
    (after (walking [board] (walk [0xF0, 0xD9] [])) (fun t => t.devices.map (·.nodeId)) = some [0xFE]) ∧
    (after (bus [board] [.addressLoss 0]) (fun t => t.devices.map (·.nodeId)) = some [0xFE]) ∧
    (after (bus [board] [.powerUp 0 .default]) (fun t => t.devices.map (·.nodeId)) = some [0xFE]) ∧
    board.nodeId ≠ 0xFE := by decide

theorem test_witness_FrameIsNotInterrupted :
    (walking [board, fresh] (walk [0x11] [])).walk = some (walk [0x11] []) ∧
      ∃ t, step (walking [board, fresh] (walk [0x11] [])) = .next t := ⟨rfl, _, rfl⟩

/-- The bus of `bus`, with its link open. -/
def linked (ds : List Device) (inputs : List Input) : State :=
  { bus ds inputs with host := { HostEngine.powerUp with linkOpen := true } }

/-- The bus of `linked`, its host's operation at `phase`, with the stack `ts`, after the frame `{01, none, [11]}`. -/
def running (ds : List Device) (inputs : List Input) (phase : HostPhase) (ts : List Task) : State :=
  { bus ds inputs with host := { HostEngine.powerUp with
      linkOpen := true, phase := phase, tasks := ts, lastSent := some (Frame.make 1 none [0x11]) } }

theorem takes (ds : List Device) (i : Input) : (bus ds [i]).Takes i [] := ⟨rfl, rfl⟩
theorem linked_takes (ds : List Device) (i : Input) : (linked ds [i]).Takes i [] := ⟨rfl, rfl⟩

/-- One witness a clause, with the refusal it ends in. -/
theorem test_witness_CallerErrorsAreRefused :
    refusal (bus [board] [.poll 0 false (.systemSwitches 1)]) = some .unsynchronisedWrite ∧
    refusal (bus [board] [.interpret .host (Frame.make 1 none [])]) = some .interpretInHostRole ∧
    refusal (bus [board] [.call (.device 0) .reset]) = some .hostOpInDeviceRole ∧
    (HostOp.reset ≠ .close ∧ (running [board] [.call .host .reset] .waiting []).host.phase ≠ .idle) ∧
    refusal (running [board] [.call .host .reset] .waiting []) = some .operationRunning ∧
    refusal (linked [board] [.call .host (.exchange (Frame.make 1 (some 1) []))]) = some .frameHasStatus ∧
    refusal (linked [board] [.call .host (.open_ "" 0 .off)]) = some .linkAlreadyOpen ∧
    refusal (bus [board] [.powerUp 0 { DevConfig.default with cmdVersion := 0x1A }]) = some .illFormedConfig ∧
    refusal (bus [board] [.interpret (.device 0) (Frame.make 1 (some 1) [])]) = some .unverifiedFrame ∧
    refusal (bus [board] [.interpret (.device 0) ⟨1, none, [0x11], 0x14⟩]) = some .unverifiedFrame := by decide
theorem test_witness_CallerErrorsAreRefused_oversize :
    254 < (Frame.make 1 none (filled 255)).payload.length ∧
      (linked [board] [.call .host (.exchange (Frame.make 1 none (filled 255)))]).Takes
        (.call .host (.exchange (Frame.make 1 none (filled 255)))) [] :=
  ⟨by simp only [Frame.make, filled_length]; decide, linked_takes _ _⟩

theorem test_witness_AddressLossResets :
    (bus [board] [.addressLoss 0]).Takes (.addressLoss 0) [] ∧ (bus [board] [.addressLoss 0]).devices[0]? = some board :=
  ⟨takes _ _, rfl⟩

/-- A board with two analog values. -/
def analogBoard : Device := .powerUp { DevConfig.default with analogCfg := .configured 2 }

theorem test_witness_PollWritesOnePlace :
    (bus [analogBoard] [.poll 0 true (.switches 2 [1, 2])]).Takes (.poll 0 true (.switches 2 [1, 2])) [] ∧
      2 + ([1, 2] : List Byte).length ≤ analogBoard.switches.length ∧
    (bus [analogBoard] [.poll 0 true (.systemSwitches 1)]).Takes (.poll 0 true (.systemSwitches 1)) [] ∧
    (bus [analogBoard] [.poll 0 true (.coinSlot 1 7)]).Takes (.poll 0 true (.coinSlot 1 7)) [] ∧
      1 < analogBoard.coinSlots.length ∧
    (bus [analogBoard] [.poll 0 true (.coinCondition 1 .jam)]).Takes (.poll 0 true (.coinCondition 1 .jam)) [] ∧
      1 < analogBoard.coinCondition.length ∧
    (bus [analogBoard] [.poll 0 true (.analog 1 7)]).Takes (.poll 0 true (.analog 1 7)) [] ∧
      1 < analogBoard.analog.length :=
  ⟨takes _ _, by decide, takes _ _, takes _ _, by decide, takes _ _, by decide, takes _ _, by decide⟩

theorem test_witness_CodecRoundTrip :
    (Frame.make 1 none (filled 254)).payload.length + (none : Option Byte).toList.length ≤ 254 ∧
    (Frame.make 0 (some 1) (filled 253)).payload.length + (some (1 : Byte)).toList.length ≤ 254 :=
  ⟨by simp only [Frame.make, filled_length]; decide,
    by simp only [Frame.make, filled_length]; decide⟩

theorem test_witness_EncodedFrameIsEscaped :
    encodeFrame (Frame.make 0xD0 none []) = some [0xE0, 0xD0, 0xCF, 0x00, 0xD0, 0xCF] ∧
      ([0xE0, 0xD0, 0xCF, 0x00, 0xD0, 0xCF] : List Byte)[4]? = some 0xD0 := by decide

theorem test_witness_EncodedFrameLength : encodeFrame (Frame.make 0x01 none []) = some [0xE0, 0x01, 0x00, 0x01] := by decide

/-- A flip in the address, and one in the second byte of a pair. -/
theorem test_witness_SingleFlipIsDetected :
    encodeFrame (Frame.make 0x01 none [0xD0]) = some [0xE0, 0x01, 0x01, 0xD0, 0xCF, 0xD2] ∧
      ([0xE0, 0x01, 0x01, 0xD0, 0xCF, 0xD2] : List Byte)[1]? = some 0x01 ∧ (0x01 : Byte) ≠ 0xD0 ∧
      (0x01 : Byte) ^^^ (1#8 <<< 7) ≠ 0xE0 ∧ (0x01 : Byte) ^^^ (1#8 <<< 7) ≠ 0xD0 ∧ 1 < 1 + (escape 0x01).length ∧
      ([0xE0, 0x01, 0x01, 0xD0, 0xCF, 0xD2] : List Byte)[4]? = some 0xCF ∧ (0xCF : Byte) ^^^ (1#8 <<< 0) ≠ 0xE0 ∧
      (0xCF : Byte) ^^^ (1#8 <<< 0) ≠ 0xD0 ∧
      1 + (escape 0x01).length + (escape (BitVec.ofNat 8 (1 + (none : Option Byte).toList.length))).length ≤ 4 := by decide

/-- A Receiver in legal form, one byte before the end of the frame `E0 01 00 01`. -/
def almost : Receiver := { Receiver.powerUp false with phase := .sum, addr := 0x01, len := 0x00, sum := 0x01 }

theorem almost_wf : almost.Wf false where
  role := rfl
  idleEsc := by simp [almost]
  bound := by simp [almost, Receiver.powerUp]
  early := by simp [almost]
  length := by simp [almost]
  inStatus := by simp [almost]
  stored := by simp [almost, Receiver.powerUp]
  inPayload := by simp [almost]
  inSum := by simp [almost, Receiver.powerUp]
  checksum := fun _ => by decide

/-- An unaddressed board, one byte before the end of the frame `E0 FF 00 FF`. -/
def heard : Device := { fresh with rx := { almost with addr := 0xFF, sum := 0xFF } }

theorem heard_wf : heard.Wf :=
  { Device.powerUp_wf (c := .default) (by decide) with
    rx := { almost_wf with
      checksum := fun _ => by decide
      idleEsc := by simp [heard, almost]
      early := by simp [heard, almost]
      inStatus := by simp [heard, almost]
      inPayload := by simp [heard, almost] } }

theorem test_witness_OnlyVerifiedFrames :
    decodeFrame [0xE0, 0x01, 0x00, 0x01] false = .ok ⟨0x01, none, [], 0x01⟩ ∧ almost.Wf false ∧
      (almost.step 0x01).2 = some (.frame ⟨0x01, none, [], 0x01⟩) ∧
    (∀ f, (bus [board] [.interpret (.device 0) f]).Takes (.interpret (.device 0) f) [] ∧
      (bus [board] [.interpret (.device 0) f]).devices[0]? = some board) ∧
    ((0x13 : Byte) = checksumOf (Frame.body ⟨1, none, [0x11], 0x13⟩) ∧ (1 : Byte) = board.nodeId) ∧
    ((0x14 : Byte) = checksumOf (Frame.body ⟨2, none, [0x11], 0x14⟩) ∧ (2 : Byte) ≠ board.nodeId ∧ (2 : Byte) ≠ 0xFF) :=
  ⟨by decide, almost_wf, by decide, fun _ => ⟨⟨rfl, rfl⟩, rfl⟩, by decide, by decide⟩

/-- A bus of one board in legal form, with bytes on the line for it and no frame interpreted. -/
theorem legal_bus {d : Device} (h : d.Wf) (i : List Input) (b : List Byte) :
    ({ bus [d] i with line := b.map (fun x => (0, x)) } : State).Inv where
  codes := rfl
  host := (legal [] (Nat.zero_le _)).host
  devices := by
    intro x hx
    simp only [bus, List.mem_singleton] at hx
    exact hx ▸ h
  walk := by rintro w ⟨⟩
  line := by
    intro e he
    obtain ⟨x, _, rfl⟩ := List.mem_map.1 he
    exact Nat.zero_lt_one
  replies := by simp [bus, State.reset]

/-- A legal bus whose next step starts a walk: at the last byte of a broadcast frame, and at a call of Interpret. -/
theorem test_witness_OnlyVerifiedFrames_walk :
    ({ bus [heard] [] with line := [0xFF].map (fun x => (0, x)) } : State).Inv ∧
    (after { bus [heard] [] with line := [0xFF].map (fun x => (0, x)) } (fun t => t.walk.map (·.payload))) = some (some []) ∧
    ({ bus [fresh] [.interpret (.device 0) (Frame.make 0xFF none [0x11])] with line := [].map (fun x => (0, x)) } : State).Inv ∧
    (after (bus [fresh] [.interpret (.device 0) (Frame.make 0xFF none [0x11])]) (fun t => t.walk.map (·.payload))) =
      some (some [0x11]) :=
  ⟨legal_bus heard_wf _ _, by decide, legal_bus (Device.powerUp_wf (by decide)) _ [], by decide⟩

/-- One sequence an outcome. -/
theorem test_witness_ReceiverAgreesWithDecode :
    (Receiver.powerUp false).Wf false ∧ (Receiver.powerUp false).phase = .idle ∧ almost.Wf false ∧
      almost.phase ≠ .idle ∧ (0x01 : Byte) ≠ 0xE0 ∧
      unescape false [0x01, 0x01, 0xD0, 0xDF, 0xE2] = .ok [0x01, 0x01, 0xE0, 0xE2] ∧
      ((0x01 : Byte).toNat ≤ 254 → ([0xE0, 0xE2] : List Byte).length ≤ (0x01 : Byte).toNat + 1) ∧
      decodeFrame [0xE0, 0x01, 0x01, 0xD0, 0xDF, 0xE2] false = .ok ⟨0x01, none, [0xE0], 0xE2⟩ ∧
      decodeFrame [0xE0, 0x01, 0x00, 0x02] false = .error (.checksumMismatch 0x01) ∧
      decodeFrame [0xE0, 0x01, 0xFF, 0x00] false = .error (.framing .badLength) ∧
      decodeFrame [0xE0, 0x01, 0x00] false = .error .truncated :=
  ⟨Receiver.powerUp_wf false, rfl, almost_wf, by decide, by decide, by decide, by decide, by decide, by decide, by decide,
    by decide⟩

/-- A board about to receive the last byte of the frame `E0 a 00 sum`. -/
def hearing (a sum : Byte) : Device := { board with rx := { almost with addr := a, sum := sum } }

/-- The bus where that byte is on the line. -/
def arriving (a sum b : Byte) : State := { bus [hearing a sum] [] with line := [(0, b)] }

/-- Each way a byte comes to a board. -/
theorem test_hears (a sum b : Byte) :
    (arriving a sum b).Hears 0 b (bus [hearing a sum] []) ∧
    State.Hears { arriving a sum b with inputs := [.tick] } 0 b (bus [hearing a sum] []) ∧
    State.Hears { arriving a sum b with inputs := [.drain] } 0 b (bus [hearing a sum] [.drain]) ∧
    (bus [hearing a sum] [.byte 0 b]).Hears 0 b (bus [hearing a sum] []) :=
  ⟨.line [] rfl rfl rfl, .tick [] [] ⟨rfl, rfl⟩ rfl, .drain [] [] ⟨rfl, rfl⟩ rfl, .byte [] ⟨rfl, rfl⟩⟩

theorem test_witness_AddressFilter :
    (∀ a, (bus [hearing a a] [.byte 0 a]).Hears 0 a (bus [hearing a a] []) ∧
      (bus [hearing a a] [.byte 0 a]).devices[0]? = some (hearing a a)) ∧
    ((hearing 1 1).rx.step 1).2 = some (.frame ⟨1, none, [], 1⟩) ∧
    ((hearing 0xFF 0xFF).rx.step 0xFF).2 = some (.frame ⟨0xFF, none, [], 0xFF⟩) ∧
    ((hearing 2 2).rx.step 2).2 = some (.frame ⟨2, none, [], 2⟩) ∧ (1 : Byte) = board.nodeId ∧
    (2 : Byte) ≠ board.nodeId :=
  ⟨fun a => ⟨(test_hears a a a).2.2.2, rfl⟩, by decide, by decide, by decide, by decide, by decide⟩

theorem test_witness_BadFramesAtABoard :
    ((arriving 1 1 2).Hears 0 2 (bus [hearing 1 1] []) ∧ (arriving 1 1 2).devices[0]? = some (hearing 1 1) ∧
      (arriving 1 1 2).oracle.sends = []) ∧
    State.Hears { arriving 1 1 2 with oracle := ⟨[.writeError], [], []⟩ } 0 2
      { bus [hearing 1 1] [] with oracle := ⟨[.writeError], [], []⟩ } ∧
    ((hearing 1 1).rx.step 2).2 = some (.checksumMismatch (hearing 1 1).nodeId) ∧
    ((hearing 0xFF 0xFF).rx.step 2).2 = some (.checksumMismatch 0xFF) ∧ (0xFF : Byte) ≠ board.nodeId ∧
    ((hearing 1 1).rx.step 0xE0).2 = some (.framingError .rawSync) ∧ (board.rx.step 1).2 = none :=
  ⟨⟨(test_hears 1 1 2).1, rfl, rfl⟩, .line [] rfl rfl rfl, by decide, by decide, by decide, by decide, by decide⟩

theorem test_witness_OpenStartsASession :
    (bus [board] [.call .host (.open_ "" 115200 .off)]).Takes (.call .host (.open_ "" 115200 .off)) [] ∧
      (bus [board] []).host.phase = .idle ∧ (bus [board] []).host.linkOpen = false ∧ (bus [board] []).oracle.opens = [] ∧
      ([true] : List Bool).head? = some true ∧
      ({ bus [board] [.call .host (.open_ "" 0 .off)] with oracle := ⟨[], [], [false]⟩ } : State).oracle.opens.head? =
        some false := ⟨takes _ _, rfl, rfl, rfl, rfl, rfl⟩

theorem test_witness_CloseAndClosedLink :
    (running [board] [.call .host .close] .waiting []).Takes (.call .host .close) [] ∧
      (running [board] [.call .host .close] .waiting []).host.phase ≠ .idle ∧
    (linked [board] [.call .host .close]).Takes (.call .host .close) [] ∧
      (linked [board] [.call .host .close]).host.phase = .idle ∧
    (bus [board] [.call .host .close]).Takes (.call .host .close) [] ∧
      (bus [board] [.call .host .close]).host.phase = .idle ∧
    (bus [board] [.call .host .enumerate]).Takes (.call .host .enumerate) [] ∧
      (bus [board] [.call .host .enumerate]).host.phase = .idle ∧
      (bus [board] [.call .host .enumerate]).host.linkOpen = false ∧
    (bus [board] [.call .host (.exchange (Frame.make 1 none [0x11]))]).Takes
      (.call .host (.exchange (Frame.make 1 none [0x11]))) [] ∧ (Frame.make 1 none [0x11]).statusCode = none :=
  ⟨⟨rfl, rfl⟩, by decide, ⟨rfl, rfl⟩, rfl, takes _ _, rfl, takes _ _, rfl, rfl, takes _ _, rfl⟩

/-- A transport whose next Send fails. -/
def failing (s : State) : State := { s with oracle := ⟨[.writeError], [], []⟩ }

theorem test_witness_HostResetSendsTwice :
    (linked [board] [.call .host .reset]).Takes (.call .host .reset) [] ∧
      (linked [board] [.call .host .reset]).host.phase = .idle ∧ (linked [board] [.call .host .reset]).host.linkOpen = true ∧
      (linked [board] [.call .host .reset]).oracle.sends = [] ∧
      (linked [board] [.call .host .reset]).params.codes = .standard ∧
    (running [board] [] .settle []).OnlyHost ∧ (running [board] [] .settle []).host.phase = .settle ∧
    (running [board] [] .resetDrain [.connectReset]).OnlyHost ∧
    (running [board] [] .resetDrain []).OnlyHost ∧ (running [board] [] .resetDrain []).host.tasks = [] ∧
    (failing (linked [board] [.call .host .reset])).Takes (.call .host .reset) [] ∧
      (failing (linked [board] [.call .host .reset])).oracle.sends = [.writeError] ∧
    (failing (running [board] [] .settle [])).OnlyHost :=
  ⟨⟨rfl, rfl⟩, rfl, rfl, rfl, rfl, ⟨rfl, rfl, rfl⟩, rfl, ⟨rfl, rfl, rfl⟩, ⟨rfl, rfl, rfl⟩, rfl, ⟨rfl, rfl⟩, rfl,
    ⟨rfl, rfl, rfl⟩⟩

theorem test_witness_ExchangeSendsAndWaits :
    (linked [board] [.call .host (.exchange (Frame.make 1 none [0x11]))]).Takes
        (.call .host (.exchange (Frame.make 1 none [0x11]))) [] ∧
      (linked [board] []).host.phase = .idle ∧ (linked [board] []).host.linkOpen = true ∧
      (Frame.make 1 none [0x11]).statusCode = none ∧ (Frame.make 1 none (filled 254)).payload.length ≤ 254 ∧
      (linked [board] []).oracle.sends = [] ∧ (failing (linked [board] [])).oracle.sends = [.writeError] :=
  ⟨⟨rfl, rfl⟩, rfl, rfl, rfl, by simp only [Frame.make, filled_length]; decide, rfl, rfl⟩

/-- A host that waits, the replies `rs` sent, late bytes `l` on their way, and the oracle's answers `o`. -/
def waiting (rs : List (List Byte)) (l : List Byte) (o : List WaitChoice) : State :=
  { running [board] [] .waiting [] with replies := rs, inFlight := l, oracle := ⟨[], o, []⟩ }

/-- Each way a wait ends: one reply in time, by default or by choice, after a late one, late, lost, changed, a collision. -/
theorem test_wait_ends (a b l : List Byte) :
    WaitEnds (waiting [b] [] []) b (waiting [] [] []) ∧
    WaitEnds (waiting [b] [] [.deliver]) b (waiting [] [] []) ∧
    WaitEnds (waiting [b] l []) (l ++ b) (waiting [] [] []) ∧
    WaitEnds (waiting [b] [] [.late]) [] (waiting [] b []) ∧
    WaitEnds (waiting [b] [] [.lost]) [] (waiting [] [] []) ∧
    WaitEnds (waiting [b] [] [.altered a]) a (waiting [] [] []) ∧
    WaitEnds (waiting [a, b] [] []) (Config.collisionBytes 0) { waiting [] [] [] with freeCount := 1 } :=
  ⟨⟨b, 0, [], .one b rfl, .byDefault, rfl⟩, ⟨b, 0, [], .one b rfl, .deliver, rfl⟩, ⟨b, 0, [], .one b rfl, .byDefault, rfl⟩,
    ⟨b, 0, b, .one b rfl, .late, rfl⟩, ⟨b, 0, [], .one b rfl, .lost, rfl⟩, ⟨b, 0, [], .one b rfl, .altered a, rfl⟩,
    ⟨_, 1, [], .collision (Nat.le_refl 2), .byDefault, rfl⟩⟩

/-- With `test_wait_ends`: no byte, 4 bytes, and 5 bytes of a longer frame. -/
theorem test_witness_WaitWithoutAReply :
    (waiting [] [] []).OnlyHost ∧ (waiting [] [] []).host.phase = .waiting ∧
      WaitEnds (waiting [] [] []) [] (waiting [] [] []) ∧ ([0xE0, 0, 1, 1] : List Byte).length < 5 ∧
      5 ≤ ([0xE0, 0, 3, 1, 1] : List Byte).length ∧ ((waiting [] [] []).host.rx.feed [0xE0, 0, 3, 1, 1]).2 = none :=
  ⟨⟨rfl, rfl, rfl⟩, rfl, ⟨[], 0, [], .silence rfl, .byDefault, rfl⟩, by decide, by decide, by decide⟩

/-- With `test_wait_ends`: the reply of V131, one with status Overflow (V139), and a framing error (V141). -/
theorem test_witness_ReplyClassification :
    (∀ b, (waiting [b] [] []).OnlyHost ∧ (waiting [b] [] []).host.phase = .waiting ∧
      (waiting [b] [] []).host.rx = .powerUp true ∧ WaitEnds (waiting [b] [] []) b (waiting [] [] [])) ∧
    ((Receiver.powerUp true).feed [0xE0, 0, 3, 1, 1, 0x13, 0x18]).2 = some (.frame ⟨0, some 1, [1, 0x13], 0x18⟩) ∧
    ((Receiver.powerUp true).feed [0xE0, 0, 1, 4, 5]).2 = some (.frame ⟨0, some 4, [], 5⟩) ∧
    ((Receiver.powerUp true).feed [0xE0, 0, 0, 0, 0x11]).2 = some (.framingError .badLength) :=
  ⟨fun b => ⟨⟨rfl, rfl, rfl⟩, rfl, rfl, (test_wait_ends [] b []).1⟩, by decide, by decide, by decide⟩

/-- With `test_wait_ends`: V143 and V144. -/
theorem test_witness_ChecksumFailureResendsOnce :
    ((Receiver.powerUp true).feed [0xE0, 0, 3, 1, 1, 0x13, 0x19]).2 = some (.checksumMismatch 0) ∧
    ((Receiver.powerUp true).feed [0xE0, 0, 1, 3, 4]).2 = some (.frame ⟨0, some 3, [], 4⟩) ∧
    (waiting [] [] []).host.mismatchPending = false ∧
    (waiting [] [] []).host.lastSent = some (Frame.make 1 none [0x11]) ∧ (waiting [] [] []).oracle.sends = [] ∧
    (failing (waiting [[0xE0, 0, 1, 3, 4]] [] [])).OnlyHost ∧
      (failing (waiting [[0xE0, 0, 1, 3, 4]] [] [])).oracle.sends = [.writeError] ∧
    ({ (waiting [] [] []).host with mismatchPending := true } : HostEngine).mismatchPending = true ∧
    (running [board] [] .resentDrain []).OnlyHost ∧ (running [board] [] .resentDrain []).host.phase = .resentDrain :=
  ⟨by decide, by decide, rfl, rfl, rfl, ⟨rfl, rfl, rfl⟩, rfl, rfl, ⟨rfl, rfl, rfl⟩, rfl⟩

/-- R185: what a board replied to the resent frame is dropped, and Exchange returns Resent. -/
theorem test_resent_drops_reply :
    after { running [board] [] .resentDrain [] with replies := [[0xE0, 0, 3, 1, 1, 0x13, 0x18]] }
      (fun t => (t.replies, t.inFlight, t.host.result)) = some ([], [], some .resent) := by decide

theorem test_witness_RetryOnceAfterResent :
    (linked [board] []).host.linkOpen = true ∧ (Frame.make 1 none [0x11]).statusCode = none ∧
      (Frame.make 1 none [0x11]).payload.length ≤ 254 ∧ (linked [board] []).oracle.sends = [] ∧
      HostResult.error .noBytes ≠ .resent := by decide

/-- The bus of `linked`, with the sense mode `m`. -/
def sensing (m : SenseMode) (ds : List Device) : State :=
  { linked ds [.call .host .enumerate] with host := { HostEngine.powerUp with linkOpen := true, senseMode := m } }

theorem test_witness_EnumerateGoesOn :
    (sensing .off [fresh]).Takes (.call .host .enumerate) [] ∧ (sensing .off [fresh]).host.phase = .idle ∧
      (sensing .off [fresh]).host.linkOpen = true ∧ (sensing .off [fresh]).oracle.sends = [] ∧
      (sensing .off [fresh]).host.assignedCount.toNat < 14 ∧ 15 ≤ (15 : Byte).toNat ∧ (14 : Byte).toNat < 15 ∧
      (sensing .off [fresh]).host.senseMode = .off ∧ (sensing .carrierDetect [fresh]).host.senseMode ≠ .off ∧
    (Frame.make 0 (some 1) [1]).statusCode = some 0x01 ∧ (Frame.make 0 (some 1) [1]).payload.head? = some 0x01 ∧
    (Frame.make 0 (some 1) [2]).payload.head? ≠ some 0x01 ∧
    (∃ d, (sensing .carrierDetect [fresh]).devices[0]? = some d ∧ d.senseOut = false) ∧
    (∀ d, (sensing .carrierDetect [board]).devices[0]? = some d → d.senseOut = true) :=
  ⟨⟨rfl, rfl⟩, rfl, rfl, rfl, by decide, by decide, by decide, rfl, by decide, rfl, rfl, by decide, ⟨fresh, rfl, rfl⟩,
    by rintro d ⟨⟩; rfl⟩

/-- R213: the second failure in a row is raised with the address of the bad reply. -/
theorem test_mismatch_address :
    after { waiting [[0xE0, 5, 3, 1, 1, 0x13, 0x19]] [] [] with
        host := { (waiting [] [] []).host with mismatchPending := true } }
      (fun t => (t.host.result, t.host.mismatchPending)) = some (some (.error (.checksumMismatch 5)), false) := by decide

/-- R189: with 15 addresses given, Enumerate gives no sixteenth. -/
theorem test_enumerate_stops_at_15 :
    after { linked [fresh] [.call .host .enumerate] with
        host := { HostEngine.powerUp with linkOpen := true, assignedCount := 15 } }
      (fun t => (t.host.result, t.line)) = some (some (.count 15), []) := by decide

theorem test_witness_QueryRecordsWhatABoardReports : DevConfig.default.wf = true ∧
    -- 7 bytes; a report that is not Normal; no End; a cut group; an unknown type
    ([1, 0x13, 1, 0x30, 1, 0x10, 1] : List Byte).length < 8 ∧
    ([1, 0x13, 2, 0x30, 1, 0x10, 1, 0] : List Byte)[2]? ≠ some 0x01 ∧
    (([1, 0x13, 1, 0x30, 1, 0x10, 1, 1, 2, 2, 0] : List Byte).length ≤ 7 + 4 * 1 ∧
      ∀ m, m < 1 → ([1, 0x13, 1, 0x30, 1, 0x10, 1, 1, 2, 2, 0] : List Byte)[7 + 4 * m]? ≠ some 0x00) ∧
    (([1, 0x13, 1, 0x30, 1, 0x10, 1, 2, 2, 0] : List Byte).length ≤ 7 + 4 * 0 + 3 ∧
      ([1, 0x13, 1, 0x30, 1, 0x10, 1, 2, 2, 0] : List Byte)[7 + 4 * 0]? = some 2) ∧
    (([1, 0x13, 1, 0x30, 1, 0x10, 1, 0x20, 0, 0, 0, 0] : List Byte)[7 + 4 * 0]? = some 0x20 ∧
      ∀ ty, featureCode ty ≠ 0x20) :=
  ⟨by decide, by decide, by decide, by decide, by decide, by decide, fun ty => by cases ty <;> decide⟩

theorem test_witness_QueryIdentity :
    (linked [board] [.call .host (.query 1)]).Takes (.call .host (.query 1)) [] ∧
      (linked [board] [.call .host (.query 1)]).host.phase = .idle ∧ (linked [board] []).host.linkOpen = true ∧
      (linked [board] []).oracle.sends = [] ∧ (0x00 : Byte) ∉ ([0x41, 0x42] : List Byte) ∧
      ([0x00, 0x43] : List Byte).head? = some 0x00 ∧ (Frame.make 0 (some 2) []).statusCode ≠ some 0x01 :=
  ⟨⟨rfl, rfl⟩, rfl, rfl, rfl, by decide, rfl, by decide⟩

theorem test_witness_ConnectGoesOn :
    0x21 ≤ (0x21 : Byte).toNat ∧ 1 ≤ (1 : Byte).toNat ∧ (0x20 : Byte).toNat < 0x21 ∧
      (linked [board] []).host.linkOpen = true ∧ (linked [board] []).oracle.sends = [] ∧
      (1 : Byte).toNat < (2 : Byte).toNat ∧ (2 : Byte).toNat ≤ (2 : Byte).toNat ∧
      (linked [board] [.call .host .connect]).Takes (.call .host .connect) [] ∧
      (linked [board] [.call .host .connect]).host.phase = .idle ∧
      (linked [board] [.call .host .connect]).params.codes = .standard :=
  ⟨by decide, by decide, by decide, rfl, rfl, by decide, by decide, ⟨rfl, rfl⟩, rfl, rfl⟩

theorem test_witness_SendersSendOneFrame :
    (linked [board] [.call .host (.send (.readCoins 1 2))]).Takes (.call .host (.send (.readCoins 1 2))) [] ∧
      (linked [board] []).host.phase = .idle ∧ (linked [board] []).host.linkOpen = true ∧
      (linked [board] []).oracle.sends = [] ∧ (linked [board] []).params.codes = .standard ∧
      (1 ≤ (1 : Byte).toNat ∧ (0xFD : Byte).toNat ≤ 0xFD ∧ ((2 : Byte) != 0) = true) ∧
      (((0 : Byte) != 0) = false ∧ (0 : Byte).toNat = 0 ∧ 0xFD < (0xFE : Byte).toNat) :=
  ⟨⟨rfl, rfl⟩, rfl, rfl, rfl, rfl, by decide, by decide⟩

end Sys2Proof.Tests
end

section
/-! The scope of the machine (00_scope.md R14): a frame being interpreted never stops it, no step changes what is configured,
and a caller's errors are refused by name. -/

namespace Sys2Proof.Machine

/-! ## Encode and Send: when they answer -/

/-- Encode refuses exactly the frames whose length byte is too large (40_codec.md R113). -/
theorem encodeFrame_eq_none {f : Frame} : encodeFrame f = none ↔ MAX_LEN < f.lengthByte := by
  simp [encodeFrame]

/-- A reply that Encode accepts is sent or fails at the transport; neither stops the machine (60_exceptions.md R219). -/
theorem sendReply_answers (i : Nat) {f : Frame} (s : State) (h : f.lengthByte ≤ MAX_LEN) :
    ∃ t, sendReply i f s = .next t := by
  simp only [sendReply, encodeFrame_of_le h]
  split <;> exact ⟨_, rfl⟩

/-! ## A frame being interpreted (41_interpreter.md R143, R146) -/

theorem Walk.Wf.interpreting {s : State} {w : Walk} (hw : s.walk = some w) (h : w.Wf s.devices.length) :
    ∃ d, Interpreting s w d :=
  ⟨_, hw, List.getElem?_eq_getElem h.dev⟩

/-- Finish always answers: the response and its status byte fit the length byte (R145). -/
theorem finishFrame_answers {s : State} {w : Walk} {d : Device} (hi : Interpreting s w d)
    (hr : w.resp.length ≤ MAX_RESP) : ∃ t, finishFrame w s = .next t := by
  have fits : (Frame.make ADDR_HOST (some w.fstatus.code) w.resp).lengthByte ≤ MAX_LEN := by
    simp only [lengthByte_make, Option.toList_some, List.length_singleton, MAX_LEN, MAX_RESP] at hr ⊢
    omega
  simp only [finishFrame, hi.board]
  split
  · split <;> exact ⟨_, rfl⟩
  · split
    · exact ⟨_, rfl⟩
    · split
      · exact sendReply_answers _ _ fits
      · exact ⟨_, rfl⟩

/-- Each step of a walk in legal form answers: a command, an unrecognised code or Finish (R143). -/
theorem walkStep_answers {s : State} {w : Walk} (hw : s.walk = some w) (h : w.Wf s.devices.length) :
    ∃ t, walkStep w s = .next t := by
  obtain ⟨d, hi⟩ := h.interpreting hw
  unfold walkStep
  split
  · split
    · exact exec_answers hi _
    · exact ⟨_, rfl⟩
  · exact finishFrame_answers hi h.resp

/-- Settles O25: the interpreting board is on the chain, so every command runs, and the response is within its bound, so the
reply of Finish can be encoded. -/
theorem interpretingNeverStops : Obligations.InterpretingNeverStops := by
  intro s hs hsome
  obtain ⟨w, hw⟩ := Option.isSome_iff_exists.1 hsome
  simpa only [step, hw] using walkStep_answers hw (hs.walk w hw)

/-! ## What is configured (10_state.md R24, R44, R49) -/

@[simp] theorem Receiver.store_expectStatus (r : Receiver) (v : Byte) :
    (r.store v).1.expectStatus = r.expectStatus := by
  cases hp : r.phase with
  | len => simp only [Receiver.store, hp]; split <;> rfl
  | idle | addr | status | payload | sum => simp only [Receiver.store, hp]

/-- No byte changes a Receiver's direction. -/
@[simp] theorem Receiver.step_expectStatus (r : Receiver) (b : Byte) :
    (r.step b).1.expectStatus = r.expectStatus := by
  unfold Receiver.step
  split
  · rfl
  · split
    · rfl
    · split
      · exact Receiver.store_expectStatus _ _
      · split
        · rfl
        · exact Receiver.store_expectStatus _ _

/-- `d'` has the configuration of `d`, its Receiver's direction and its buffer sizes. -/
structure Device.SameMake (d d' : Device) : Prop where
  cfg : d'.cfg = d.cfg
  direction : d'.rx.expectStatus = d.rx.expectStatus
  switches : d'.switches.length = d.switches.length
  coinSlots : d'.coinSlots.length = d.coinSlots.length
  coinCondition : d'.coinCondition.length = d.coinCondition.length
  outputSlots : d'.outputSlots.length = d.outputSlots.length
  analog : d'.analog.length = d.analog.length

theorem deviceReset_sameMake (d : Device) : d.SameMake (deviceReset d) := by
  constructor <;> simp

theorem pollDevice_sameMake {d d' : Device} {p : PollWrite} (h : pollDevice d p = some d') : d.SameMake d' := by
  obtain ⟨cfg, -, -, outputs, -, -, rx, switches, slots, conditions, analog⟩ := pollDevice_keeps h
  exact ⟨cfg, by rw [rx], switches, slots, conditions, by rw [outputs], analog⟩

/-- A command changes what the buffers hold, never their sizes (R46, 20_memory.md R68). -/
theorem BoardEffect.sameMake {i : Instr} {d d' : Device} (e : BoardEffect i d d') : d.SameMake d' := by
  cases e with
  | same | misconfigured | addressed => exact ⟨rfl, rfl, rfl, rfl, rfl, rfl, rfl⟩
  | reset => exact deviceReset_sameMake d
  | coins slots len => exact ⟨rfl, rfl, rfl, len, rfl, rfl, rfl⟩
  | outputs bytes len => exact ⟨rfl, rfl, rfl, rfl, rfl, len, rfl⟩

/-- Of all that a step can do to a board, only its power-up gives it a new make (70_reset_and_hazards.md R241). -/
theorem BoardStep.sameMake {s : State} {j : Nat} {d d' : Device} (h : BoardStep s j d d')
    (on : s.walk = none → ∀ cfg, s.inputs.head? ≠ some (.powerUp j cfg)) : d.SameMake d' := by
  cases h with
  | command _ _ _ _ _ _ _ effect => exact effect.sameMake
  | sent => exact ⟨rfl, rfl, rfl, rfl, rfl, rfl, rfl⟩
  | byte b => exact ⟨rfl, d.rx.step_expectStatus b, rfl, rfl, rfl, rfl, rfl⟩
  | poll _ _ write => exact pollDevice_sameMake write
  | addressLoss => exact deviceReset_sameMake d
  | powerUp walk cfg input => exact absurd input (on walk cfg)

/-- Settles O33, from what one step can do to a board. -/
theorem configurationIsFixed : Obligations.ConfigurationIsFixed := by
  intro s t j d hstep hd on
  obtain ⟨params, boards⟩ := step_boards hstep
  obtain ⟨d', hd', hb⟩ := boards j d hd
  obtain ⟨cfg, direction, switches, slots, conditions, outputs, analog⟩ := hb.sameMake on
  exact ⟨params, d', hd', cfg, direction, switches, slots, conditions, outputs, analog⟩

/-! ## Inputs that are refused -/

/-- With no frame interpreted, the next input is what the step takes (60_exceptions.md R223). -/
theorem State.Takes.step {s : State} {i : Input} {rest : List Input} (h : s.Takes i rest) :
    Machine.step s = takeInput i { s with inputs := rest } := by
  simp only [Machine.step, h.walk, busStep, h.inputs]

/-- A host operation called on the host is its `hostCall` (60_exceptions.md R225). -/
theorem State.Takes.step_call {s : State} {op : HostOp} {rest : List Input} (h : s.Takes (.call .host op) rest) :
    Machine.step s = hostCall op { s with inputs := rest } := h.step

theorem whenIdle_of_idle {s : State} (h : s.host.phase = .idle) (r : Host.Outcome State Fault Refusal) :
    whenIdle s r = r := if_pos h

theorem whenIdle_of_busy {s : State} (h : s.host.phase ≠ .idle) (r : Host.Outcome State Fault Refusal) :
    whenIdle s r = .refused .operationRunning := if_neg h

/-- Only Close is allowed while an operation runs (42_link_manager.md R199). -/
theorem hostCall_of_busy {s : State} {op : HostOp} (h : s.host.phase ≠ .idle) (hop : op ≠ .close) :
    hostCall op s = .refused .operationRunning := by
  cases op with
  | close => exact absurd rfl hop
  | open_ | reset | exchange | exchangeRetry | enumerate | query | connect | send => exact whenIdle_of_busy h _

/-- An Exchange of a frame with a status is refused before anything is encoded (42_link_manager.md R182). -/
theorem hostCall_exchange_of_status {s : State} {f : Frame} (idle : s.host.phase = .idle)
    (h : f.statusCode.isSome = true) : hostCall (.exchange f) s = .refused .frameHasStatus :=
  (whenIdle_of_idle idle _).trans (if_pos h)

/-- An Exchange of an oversize frame is refused, on an open link and on a closed one (40_codec.md R113). -/
theorem hostCall_exchange_of_oversize {s : State} {f : Frame} (idle : s.host.phase = .idle) (hst : f.statusCode = none)
    (hlen : MAX_LEN < f.payload.length) : hostCall (.exchange f) s = .refused .oversize := by
  have refused : encodeFrame f = none := encodeFrame_eq_none.2 (by simpa [Frame.lengthByte, hst] using hlen)
  simp [hostCall, whenIdle_of_idle idle, startExchange, hst, refused]

/-- A link is opened once (42_link_manager.md R198). -/
theorem hostCall_open_of_open {s : State} {port : String} {baud : Nat} {mode : SenseMode}
    (idle : s.host.phase = .idle) (h : s.host.linkOpen = true) :
    hostCall (.open_ port baud mode) s = .refused .linkAlreadyOpen :=
  (whenIdle_of_idle idle _).trans (if_pos h)

theorem powerUpInput_of_illFormed {cfg : DevConfig} (h : cfg.wf = false) (i : Nat) (s : State) :
    powerUpInput i cfg s = .refused .illFormedConfig := if_neg (by simp [h])

/-- A board's interpreter is called with a verified frame only (log entry 27). -/
theorem interpretCall_of_unverified {s : State} {i : Nat} {d : Device} {f : Frame} (hd : s.devices[i]? = some d)
    (h : f.verified ≠ true) : interpretCall (.device i) f s = .refused .unverifiedFrame := by
  simp only [interpretCall, hd, if_neg h]

/-- Each of the three defects keeps a frame from being verified (10_state.md R23). -/
theorem Frame.not_verified_of_defect {f : Frame}
    (h : f.statusCode.isSome = true ∨ MAX_LEN < f.payload.length ∨ f.checksum ≠ checksumOf f.body) :
    f.verified ≠ true := by
  rw [Ne, Frame.verified_iff]
  rintro ⟨status, bound, sum⟩
  rcases h with h | h | h
  · simp [status] at h
  · omega
  · exact h sum

/-- Settles O36: the step takes the input, and the operation's own check refuses it. -/
theorem callerErrorsAreRefused : Obligations.CallerErrorsAreRefused := by
  intro s rest
  refine ⟨fun j p h => ?poll, fun f h => ?interpretHost, fun j op h => ?opOnBoard, fun op h hop busy => ?running,
    fun f h idle status => ?status, fun f h idle status len => ?oversize, fun port baud mode h idle isOpen => ?reopen,
    fun j cfg h bad => ?config, fun j f d h hd defect => ?unverified⟩
  case poll => exact h.step
  case interpretHost => exact h.step
  case opOnBoard => exact h.step
  case running => exact h.step_call.trans (hostCall_of_busy busy hop)
  case status => exact h.step_call.trans (hostCall_exchange_of_status idle status)
  case oversize => exact h.step_call.trans (hostCall_exchange_of_oversize idle status len)
  case reopen => exact h.step_call.trans (hostCall_open_of_open idle isOpen)
  case config => exact h.step.trans (powerUpInput_of_illFormed bad j _)
  case unverified => exact h.step.trans (interpretCall_of_unverified hd (Frame.not_verified_of_defect defect))

end Sys2Proof.Machine
end

section
/-! The legal form of the bus: the reset state has it, and every step keeps it (10_state.md R21 to R44). The parts of
`State.Inv` are independent of one another but for the length of the chain, so each agent's step is shown to keep the parts
it writes. -/

namespace Sys2Proof.Machine

/-! ## One change of a legal bus -/

/-- A walk stays in legal form on a longer chain. -/
theorem Walk.Wf.mono {w : Walk} {m n : Nat} (h : w.Wf m) (le : m ≤ n) : w.Wf n :=
  ⟨Nat.lt_of_lt_of_le h.dev le, h.payload, h.pos, h.resp, h.fstatus, h.stopped⟩

theorem State.Inv.board {s : State} {i : Nat} {d : Device} (h : s.Inv) (hd : s.devices[i]? = some d) : d.Wf :=
  h.devices d (List.mem_of_getElem? hd)

/-- The legal form reads no input. -/
theorem State.Inv.withInputs {s : State} (h : s.Inv) (rest : List Input) : State.Inv { s with inputs := rest } :=
  ⟨h.codes, h.host, h.devices, h.walk, h.line, h.replies⟩

theorem State.Inv.withWalk {s : State} {w : Walk} (h : s.Inv) (hw : w.Wf s.devices.length) :
    State.Inv { s with walk := some w } :=
  ⟨h.codes, h.host, h.devices, by rintro _ ⟨⟩; exact hw, h.line, h.replies⟩

theorem State.Inv.endWalk {s : State} (h : s.Inv) : State.Inv { s with walk := none } :=
  ⟨h.codes, h.host, h.devices, by simp, h.line, h.replies⟩

/-- The boards may change, and boards may join at the far end of the chain. -/
theorem State.Inv.withBoards {s : State} {ds : List Device} (h : s.Inv) (le : s.devices.length ≤ ds.length)
    (hd : ∀ d ∈ ds, d.Wf) : State.Inv { s with devices := ds } :=
  ⟨h.codes, h.host, hd, fun w hw => (h.walk w hw).mono le, fun e he => Nat.lt_of_lt_of_le (h.line e he) le, h.replies⟩

theorem State.Inv.setBoard {s : State} {d : Device} (h : s.Inv) (i : Nat) (hd : d.Wf) :
    State.Inv { s with devices := s.devices.set i d } :=
  h.withBoards (by simp) (all_set_board h.devices hd)

theorem State.Inv.modifyDevice {s : State} {f : Device → Device} (h : s.Inv) (i : Nat) (hf : ∀ d, d.Wf → (f d).Wf) :
    (s.modifyDevice i f).Inv :=
  h.withBoards (by simp) (all_modify_board h.devices hf)

/-- A board's `Send`: bytes for boards of the chain, and one more reply. -/
theorem State.Inv.withSent {s : State} {l : List (Nat × Byte)} {w : List Byte} (h : s.Inv)
    (hl : ∀ e ∈ l, e.1 < s.devices.length) (hw : WireForm w) (o : Oracle) :
    State.Inv { s with line := s.line ++ l, oracle := o, replies := s.replies ++ [w] } :=
  ⟨h.codes, h.host, h.devices, h.walk, List.forall_mem_append.2 ⟨h.line, hl⟩,
    List.forall_mem_append.2 ⟨h.replies, by simpa using hw⟩⟩

theorem State.Inv.withOracle {s : State} (h : s.Inv) (o : Oracle) : State.Inv { s with oracle := o } :=
  ⟨h.codes, h.host, h.devices, h.walk, h.line, h.replies⟩

/-- The host's own steps keep the bus in legal form. -/
theorem State.Inv.ofHost {s t : State} (h : s.Inv) (k : HostKeeps s t) : t.Inv := by
  obtain ⟨frame, host⟩ := k
  obtain ⟨l, line, bound⟩ := frame.line
  refine ⟨frame.params ▸ h.codes, host, frame.devices ▸ h.devices, ?_, ?_, ?_⟩
  · rw [frame.walk, frame.devices]
    exact h.walk
  · rw [line, frame.devices]
    exact List.forall_mem_append.2 ⟨h.line, bound⟩
  · rcases frame.replies with replies | replies <;> rw [replies]
    · exact h.replies
    · simp

/-! ## A frame being interpreted (41_interpreter.md R143, R146) -/

theorem deviceSend_inv {s : State} {w : List Byte} (h : s.Inv) (i : Nat) (hw : WireForm w) : (deviceSend i w s).2.Inv := by
  obtain ⟨l, o, bound, ⟨-, sent⟩ | ⟨-, failed⟩⟩ := deviceSend_cases i w s
  · rw [sent]
    exact h.withSent bound hw o
  · rw [failed]
    exact h.withOracle o

/-- A reply is in wire form, whatever it says, because Encode answered it. -/
theorem sendReply_inv {i : Nat} {f : Frame} {s t : State} (k : sendReply i f s = .next t) (h : s.Inv) : t.Inv := by
  obtain ⟨w, l, o, encoded, bound, rfl | rfl⟩ := sendReply_next k
  · have form := wireForm_of_encodeFrame encoded
    exact (h.withSent bound form o).modifyDevice i (fun _ hd => hd.withLastSent form)
  · exact h.withOracle o

theorem finishFrame_inv {w : Walk} {s t : State} (k : finishFrame w s = .next t) (h : s.Inv) : t.Inv := by
  rcases finishFrame_next k with rfl | ⟨-, d, b, hd, last, rfl⟩ | ⟨-, -, -, reply⟩
  · exact h.endWalk
  · exact deviceSend_inv h.endWalk w.dev ((h.board hd).lastSent b last)
  · exact sendReply_inv reply h.endWalk

/-- A command that fits the payload keeps the legal form: it writes its board and the working registers only. -/
theorem exec_inv {i : Instr} {s t : State} (k : exec i s = .next t) (h : s.Inv)
    (fits : ∀ w, s.walk = some w → w.pos + i.size ≤ w.payload.length) : t.Inv := by
  obtain ⟨w, d, w', d', interpreting, rfl, walk, board⟩ := exec_effect k
  have hd : d'.Wf := board.wf (h.board interpreting.board)
  have hw : w'.Wf s.devices.length := walk.wf (h.walk w interpreting.walk) (fits w interpreting.walk)
  exact (h.setBoard w'.dev hd).withWalk (by simpa using hw)

theorem walkStep_inv {w : Walk} {s t : State} (hw : s.walk = some w) (k : walkStep w s = .next t) (h : s.Inv) :
    t.Inv := by
  have wf := h.walk w hw
  unfold walkStep at k
  split at k
  · split at k
    · rename_i i fetched
      refine exec_inv k h fun v hv => ?_
      obtain rfl : w = v := Option.some.inj (hw.symm.trans hv)
      exact fetch_fits fetched wf.pos
    · cases k
      exact h.withWalk (Walk.unknown_wf wf)
  · exact finishFrame_inv k h

/-! ## A board's reception (41_interpreter.md R140 to R142) -/

/-- An event at a board of the chain; a frame's payload is one that a length byte can give. -/
theorem deviceEvent_inv {i : Nat} {d : Device} {e : RxEvent} {s t : State} (k : deviceEvent i d e s = .next t) (h : s.Inv)
    (on : i < s.devices.length) (short : ∀ f, e = .frame f → f.payload.length ≤ MAX_LEN) : t.Inv := by
  cases e with
  | frame f =>
    simp only [deviceEvent] at k
    split at k <;> cases k
    · exact h.withWalk (Walk.start_wf on (short f rfl))
    · exact h
  | checksumMismatch a =>
    simp only [deviceEvent] at k
    split at k
    · exact sendReply_inv k h
    · cases k
      exact h
  | framingError reason =>
    cases k
    exact h

theorem deviceByte_inv {i : Nat} {b : Byte} {s t : State} (k : deviceByte i b s = .next t) (h : s.Inv) : t.Inv := by
  unfold deviceByte at k
  split at k
  · cases k
  · rename_i d hd
    have wf := h.board hd
    have heard : State.Inv { s with devices := s.devices.set i { d with rx := (d.rx.step b).1 } } :=
      h.setBoard i (wf.withRx b)
    simp only at k
    split at k
    · cases k
      exact heard
    · rename_i e event
      obtain ⟨on, -⟩ := List.getElem?_eq_some_iff.1 hd
      refine deviceEvent_inv k heard (by simpa using on) ?_
      rintro f rfl
      exact wf.rx.frame_payload event

/-! ## The bus between frames (60_exceptions.md R223, R229) -/

theorem agentStep_inv {s t : State} (k : agentStep s = .next t) (h : s.Inv) : t.Inv := by
  unfold agentStep at k
  split at k
  · rename_i i b rest line
    have taken : State.Inv { s with line := rest } :=
      ⟨h.codes, h.host, h.devices, h.walk, fun e he => h.line e (line ▸ List.mem_cons_of_mem _ he), h.replies⟩
    exact deviceByte_inv k taken
  · split at k
    case h_1 =>
      cases k
      exact h
    case h_2 phase => exact h.ofHost (secondReset_keeps k h.host phase)
    case h_3 phase => exact h.ofHost (finishReset_keeps k h.host phase)
    case h_4 phase => exact h.ofHost (endWait_keeps k h.host phase)
    case h_5 phase => exact h.ofHost (endResent_keeps k h.host phase)

theorem interpretCall_inv {a : Agent} {f : Frame} {s t : State} (k : interpretCall a f s = .next t) (h : s.Inv) :
    t.Inv := by
  obtain ⟨i, d, -, hd, verified, ⟨-, rfl⟩ | ⟨-, rfl⟩⟩ := interpretCall_next k
  · obtain ⟨-, short, -⟩ := Frame.verified_iff.1 verified
    obtain ⟨on, -⟩ := List.getElem?_eq_some_iff.1 hd
    exact h.withWalk (Walk.start_wf on short)
  · exact h

theorem addressLossInput_inv {i : Nat} {s t : State} (k : addressLossInput i s = .next t) (h : s.Inv) : t.Inv := by
  unfold addressLossInput at k
  split at k <;> cases k
  rename_i d hd
  exact h.setBoard i (deviceReset_wf (h.board hd))

theorem pollInput_inv {i : Nat} {locked : Bool} {p : PollWrite} {s t : State} (k : pollInput i locked p s = .next t)
    (h : s.Inv) : t.Inv := by
  unfold pollInput at k
  split at k
  · split at k
    · cases k
    · rename_i d hd
      split at k <;> cases k
      rename_i d' written
      exact h.setBoard i (pollDevice_wf written (h.board hd))
  · cases k

/-- Only a well-formed configuration powers up (10_state.md R24). -/
theorem powerUpInput_inv {i : Nat} {cfg : DevConfig} {s t : State} (k : powerUpInput i cfg s = .next t) (h : s.Inv) :
    t.Inv := by
  unfold powerUpInput at k
  split at k
  · rename_i legal
    have wf := Device.powerUp_wf legal
    split at k
    · cases k
      exact h.setBoard i wf
    · split at k <;> cases k
      exact h.withBoards (by simp) (List.forall_mem_append.2 ⟨h.devices, by simpa using wf⟩)
  · cases k

theorem takeInput_inv {i : Input} {s t : State} (k : takeInput i s = .next t) (h : s.Inv) : t.Inv := by
  cases i with
  | tick => exact agentStep_inv k h
  | drain =>
    simp only [takeInput] at k
    split at k
    · cases k
      exact h
    · exact agentStep_inv k (h.withInputs _)
  | call agent op =>
    cases agent with
    | host => exact h.ofHost (hostCall_keeps k h.host)
    | device => cases k
  | interpret => exact interpretCall_inv k h
  | byte => exact deviceByte_inv k h
  | addressLoss => exact addressLossInput_inv k h
  | poll => exact pollInput_inv k h
  | powerUp => exact powerUpInput_inv k h

/-- Settles O29: a command or Finish keeps the legal form, and so do each input and the agents' own steps. -/
theorem stepKeepsLegalForm : Obligations.StepKeepsLegalForm := by
  intro s t h k
  unfold step at k
  split at k
  · rename_i w hw
    exact walkStep_inv hw k h
  · unfold busStep at k
    split at k
    · exact agentStep_inv k h
    · exact takeInput_inv k (h.withInputs _)

/-! ## Reset and power-up (70_reset_and_hazards.md R241, R242) -/

/-- A host at power-up has a closed link, no address given, and no operation. -/
theorem HostEngine.powerUp_wf : HostEngine.powerUp.Wf := by
  constructor <;> simp [HostEngine.powerUp, Receiver.powerUp_wf]

/-- Settles O30, from the legal form of a host and of a board at power-up. -/
theorem resetStateIsLegal : Obligations.ResetStateIsLegal where
  codes := by decide
  host := HostEngine.powerUp_wf
  devices := List.forall_mem_singleton.2 (Device.powerUp_wf (by decide))
  walk := by rintro w ⟨⟩
  line := by simp [State.reset]
  replies := by simp [State.reset]

theorem powerUpInput_of_chain {s : State} {j : Nat} {cfg : DevConfig} (legal : cfg.wf = true)
    (on : j < s.devices.length) :
    powerUpInput j cfg s = .next { s with devices := s.devices.set j (.powerUp cfg) } := by
  rw [powerUpInput, if_pos legal, if_pos on]

theorem powerUpInput_of_end {s : State} {j : Nat} {cfg : DevConfig} (legal : cfg.wf = true)
    (far : j = s.devices.length) :
    powerUpInput j cfg s = .next { s with devices := s.devices ++ [.powerUp cfg] } := by
  rw [powerUpInput, if_pos legal, if_neg (by omega), if_pos far]

/-- Settles O31: the reset state's board and every board that powers up are `Device.powerUp` of their configuration. -/
theorem resetStateValues : Obligations.ResetStateValues := by
  constructor
  · exact ⟨.powerUp .default, by decide⟩
  · intro s rest j cfg takes legal
    refine ⟨.powerUp cfg, fun on => ?chain, fun far => ?far, ?values⟩
    case chain => exact takes.step.trans (powerUpInput_of_chain legal on)
    case far => exact takes.step.trans (powerUpInput_of_end legal far)
    case values => simp [ADDR_UNASSIGNED]

end Sys2Proof.Machine
end

section
/-! What reaches a board's state: the bytes a command is decoded from, what a command leaves alone, the fault flag that
nothing clears, and the verified frames that alone start a walk (10_state.md R22, R23, R37, R46). -/

namespace Sys2Proof

/-! ## The bytes of a decoded command (10_state.md R22, 30_encoding.md R86, R87) -/

theorem bytes1_take1_prefix (l : List Byte) : bytes1 (take1 l) <+: l := by
  cases l <;> simp [take1, bytes1]

theorem bytes2_take2_prefix (l : List Byte) : bytes2 (take2 l) <+: l := by
  match l with
  | [] | [_] => exact List.nil_prefix
  | a :: b :: rest => exact List.prefix_append [a, b] rest

theorem bytesSlotAmount_takeSlotAmount_prefix (l : List Byte) : bytesSlotAmount (takeSlotAmount l) <+: l := by
  match l with
  | [] | [_] | [_, _] => exact List.nil_prefix
  | s :: h :: l :: rest =>
    simp only [takeSlotAmount, bytesSlotAmount, amountHi_amountOf, amountLo_amountOf]
    exact List.prefix_append [s, h, l] rest

/-- The count byte of the data taken is the one that was read. -/
theorem bytesCounted_takeCounted_prefix (l : List Byte) : bytesCounted (takeCounted l) <+: l := by
  match taken : takeCounted l with
  | none => exact List.nil_prefix
  | some d =>
    obtain ⟨n, rest, rfl, rfl, enough⟩ := takeCounted_eq_some taken
    have count : BitVec.ofNat 8 (rest.take n.toNat).length = n := by
      rw [List.length_take, Nat.min_eq_left enough, BitVec.ofNat_toNat, BitVec.setWidth_eq]
    rw [bytesCounted, count]
    exact (List.prefix_cons_inj n).2 (List.take_prefix _ _)

theorem cons_prefix_of_eq {c code : Byte} {operand args : List Byte} (hc : c = code) (h : operand <+: args) :
    code :: operand <+: c :: args :=
  hc ▸ (List.prefix_cons_inj c).2 h

/-- One comparison of the decoder's chain: the command is this one, or a later comparison gives it. -/
theorem decode_arm {p : Prop} [Decidable p] {a i : Instr} {other : Except Reject Instr}
    (h : (if p then .ok a else other) = .ok i) : (p ∧ a = i) ∨ other = .ok i := by
  split at h
  · exact .inl ⟨by assumption, Except.ok.inj h⟩
  · exact .inr h

/-- A code byte the decoder recognises is the command's own under the table, and the operand is what the bytes after it
give. The cases are the decoder's, in the order of the code table (30_encoding.md R92). -/
theorem encodeWith_prefix_of_decode {t : CodeTable} {c : Byte} {args : List Byte} {i : Instr}
    (h : decode t (c :: args) = .ok i) : encodeWith t i <+: c :: args := by
  unfold decode at h
  obtain ⟨code, rfl⟩ | h := decode_arm h
  · exact cons_prefix_of_eq code List.nil_prefix
  obtain ⟨code, rfl⟩ | h := decode_arm h
  · exact cons_prefix_of_eq code List.nil_prefix
  obtain ⟨code, rfl⟩ | h := decode_arm h
  · exact cons_prefix_of_eq code List.nil_prefix
  obtain ⟨code, rfl⟩ | h := decode_arm h
  · exact cons_prefix_of_eq code List.nil_prefix
  obtain ⟨code, rfl⟩ | h := decode_arm h
  · exact cons_prefix_of_eq code List.nil_prefix
  obtain ⟨code, rfl⟩ | h := decode_arm h
  · exact cons_prefix_of_eq code (bytes2_take2_prefix args)
  obtain ⟨code, rfl⟩ | h := decode_arm h
  · exact cons_prefix_of_eq code (bytes1_take1_prefix args)
  obtain ⟨code, rfl⟩ | h := decode_arm h
  · exact cons_prefix_of_eq code List.nil_prefix
  obtain ⟨code, rfl⟩ | h := decode_arm h
  · exact cons_prefix_of_eq code (bytesSlotAmount_takeSlotAmount_prefix args)
  obtain ⟨code, rfl⟩ | h := decode_arm h
  · exact cons_prefix_of_eq code (bytesCounted_takeCounted_prefix args)
  obtain ⟨code, rfl⟩ | h := decode_arm h
  · exact cons_prefix_of_eq code (bytesSlotAmount_takeSlotAmount_prefix args)
  obtain ⟨code, rfl⟩ | h := decode_arm h
  · exact cons_prefix_of_eq code (bytes1_take1_prefix args)
  obtain ⟨code, rfl⟩ | h := decode_arm h
  · exact cons_prefix_of_eq code (bytes1_take1_prefix args)
  cases h

/-- Settles O2: the code byte is the command's own, and each operand reader starts at the byte after it. -/
theorem decodeReadsItsOwnBytes : Obligations.DecodeReadsItsOwnBytes := by
  intro t bs i h
  cases bs with
  | nil => cases h
  | cons c args =>
    obtain ⟨rest, whole⟩ := encodeWith_prefix_of_decode h
    exact ⟨rest, whole.symm⟩

end Sys2Proof

namespace Sys2Proof.Machine

/-! ## A step runs the command at the cursor (41_interpreter.md R143) -/

/-- A command is decoded only from bytes that are there, so the walk is not at the end of the payload. -/
theorem running_of_decode {t : CodeTable} {w : Walk} {i : Instr} (going : w.stop = false)
    (h : decode t (w.payload.drop w.pos) = .ok i) : w.running = true := by
  have inside : w.pos < w.payload.length := by
    by_contra past
    rw [List.drop_eq_nil_of_le (by omega)] at h
    cases h
  simp [Walk.running, inside, going]

/-- Settles O5: the walk is running, and the step of a running walk is the fetched command. -/
theorem stepRunsDecodedInstruction : Obligations.StepRunsDecodedInstruction := by
  intro s w i hw going h
  simp only [step, hw, walkStep, running_of_decode going h, if_true, fetch, h]

/-! ## What a command leaves alone (10_state.md R46, 20_memory.md R69, R74) -/

/-- Every command but the well-formed RESET keeps the board's configuration, inputs, last frame and Receiver. -/
theorem BoardEffect.keeps {i : Instr} {d d' : Device} (e : BoardEffect i d d') (h : i ≠ .reset (some RESET_ARG)) :
    d'.cfg = d.cfg ∧ d'.systemSwitches = d.systemSwitches ∧ d'.switches = d.switches ∧
      d'.coinCondition = d.coinCondition ∧ d'.analog = d.analog ∧ d'.lastSent = d.lastSent ∧ d'.rx = d.rx := by
  cases e with
  | reset code => exact absurd code h
  | same | misconfigured | addressed | coins | outputs => exact ⟨rfl, rfl, rfl, rfl, rfl, rfl, rfl⟩

/-- Settles O27: a command writes back the interpreting board and the working registers only, and that board by one of the
effects of `BoardEffect`. -/
theorem commandTouchesOnlyItsState : Obligations.CommandTouchesOnlyItsState := by
  intro i s t h hi
  obtain ⟨w, d, w', d', interpreting, rfl, walk, board⟩ := exec_effect h
  refine ⟨w, w', interpreting.walk, rfl, walk.dev, walk.payload, rfl, by simp, fun j x hx => ?_⟩
  rw [putWalk_devices, walk.dev, getElem?_set_board interpreting.board hx]
  refine ⟨_, rfl, fun other => if_neg (Ne.symm other), ?_⟩
  split
  · rename_i here
    subst here
    obtain rfl : d = x := Option.some.inj (interpreting.board.symm.trans hx)
    exact board.keeps hi
  · exact ⟨rfl, rfl, rfl, rfl, rfl, rfl, rfl⟩

/-! ## The sticky fault flag (10_state.md R37, 60_exceptions.md R216) -/

/-- A command sets the fault flag or keeps it; DeviceReset keeps it (70_reset_and_hazards.md R240). -/
theorem BoardEffect.fault {i : Instr} {d d' : Device} (e : BoardEffect i d d') (h : d.misconfigFault = true) :
    d'.misconfigFault = true := by
  cases e with
  | misconfigured => rfl
  | same | reset | addressed | coins | outputs => exact h

theorem pollDevice_fault {d d' : Device} {p : PollWrite} (h : pollDevice d p = some d') :
    d'.misconfigFault = d.misconfigFault := by
  obtain ⟨-, -, -, -, -, fault, -⟩ := pollDevice_keeps h
  exact fault

/-- Of all that a step can do to a board, only its power-up clears the flag. -/
theorem BoardStep.fault {s : State} {j : Nat} {d d' : Device} (h : BoardStep s j d d') (raised : d.misconfigFault = true)
    (on : s.walk = none → ∀ cfg, s.inputs.head? ≠ some (.powerUp j cfg)) : d'.misconfigFault = true := by
  cases h with
  | command _ _ _ _ _ _ _ effect => exact effect.fault raised
  | sent | byte | addressLoss => exact raised
  | poll _ _ write => exact (pollDevice_fault write).trans raised
  | powerUp walk cfg input => exact absurd input (on walk cfg)

/-- Settles O32, from what one step can do to a board. -/
theorem faultFlagIsSticky : Obligations.FaultFlagIsSticky := by
  intro s t j d hstep hd raised on
  obtain ⟨-, boards⟩ := step_boards hstep
  obtain ⟨d', hd', change⟩ := boards j d hd
  exact ⟨d', hd', change.fault raised on⟩

end Sys2Proof.Machine
end

section
/-! Verified frames: what Decode answers and what a Receiver emits, and that nothing else starts a board's walk
(10_state.md R23, 40_codec.md R115, R122, 41_interpreter.md R140). -/

namespace Sys2Proof.Machine

/-! ## Frames from Decode and from a Receiver -/

/-- A frame of a known direction that carries the checksum of its fields and a legal length byte. -/
structure Frame.Checked (f : Frame) (expectStatus : Bool) : Prop where
  sum : f.checksum = checksumOf f.body
  bound : f.payload.length + f.statusCode.toList.length ≤ MAX_LEN
  status : f.statusCode.isSome = expectStatus

/-- A frame with no status is checked exactly where it is verified. -/
theorem Frame.Checked.verified {f : Frame} (h : f.Checked false) : f.verified = true := by
  have absent : f.statusCode = none := by simpa using h.status
  have bound := h.bound
  rw [absent] at bound
  exact Frame.verified_iff.2 ⟨absent, bound, h.sum⟩

/-- A frame made of the fields that its length byte counts has those fields as its body. -/
theorem Frame.body_eq {addr len sum : Byte} {status : Option Byte} {payload : List Byte}
    (h : payload.length + status.toList.length = len.toNat) :
    Frame.body ⟨addr, status, payload, sum⟩ = addr :: len :: (status.toList ++ payload) := by
  simp only [Frame.body, Frame.lengthByte, h, BitVec.ofNat_toNat, BitVec.setWidth_eq]

/-- The status and the payload that `parseFrame` cuts the `n` counted bytes into are those bytes again. -/
theorem parsedFields_append {e : Bool} {rest : List Byte} {n : Nat} (status : e.toNat ≤ n) (counted : n < rest.length) :
    (if e then rest.head? else none).toList ++ (rest.take n).drop e.toNat = rest.take n ∧
      (if e then rest.head? else none).isSome = e := by
  cases e with
  | false => simp
  | true =>
    obtain ⟨m, rfl⟩ : ∃ m, n = m + 1 := ⟨n - 1, by simp only [Bool.toNat_true] at status; omega⟩
    obtain ⟨x, rest, rfl⟩ := List.exists_cons_of_length_pos (by omega : 0 < rest.length)
    simp

/-- One check of R115 that a parsed frame has passed. -/
theorem parse_check {p : Prop} [Decidable p] {error : DecodeError} {next : Except DecodeError Frame} {f : Frame}
    (h : (if p then .error error else next) = .ok f) : ¬ p ∧ next = .ok f := by
  split at h
  · cases h
  · exact ⟨by assumption, h⟩

/-- The fields of a parsed frame are the counted bytes, whose checksum was compared last (40_codec.md R116). -/
theorem parseFrame_checked {e : Bool} {u : List Byte} {f : Frame} (h : parseFrame e u = .ok f) : f.Checked e := by
  unfold parseFrame at h
  split at h
  · rename_i addr len rest
    obtain ⟨long, h⟩ := parse_check h
    obtain ⟨short, h⟩ := parse_check h
    obtain ⟨truncated, h⟩ := parse_check h
    obtain ⟨trailing, h⟩ := parse_check h
    obtain ⟨sum, h⟩ := parse_check h
    cases h
    obtain ⟨fields, isSome⟩ := parsedFields_append (e := e) (rest := rest) (n := len.toNat) (by omega) (by omega)
    have counted := congrArg List.length fields
    rw [List.length_append, List.length_take, Nat.min_eq_left (by omega), Nat.add_comm] at counted
    refine ⟨?_, ?_, isSome⟩
    · rw [Frame.body_eq counted, fields]
      exact (not_not.1 sum).symm
    · exact counted.le.trans (by omega)
  · cases h

theorem decodeFrame_checked {w : List Byte} {e : Bool} {f : Frame} (h : decodeFrame w e = .ok f) : f.Checked e := by
  unfold decodeFrame at h
  split at h
  · cases h
  · split at h
    · cases h
    · split at h
      · cases h
      · exact parseFrame_checked h

/-- At the checksum byte a Receiver in legal form has stored exactly the fields its running checksum covers. -/
theorem Receiver.Wf.step_frame_checked {r : Receiver} {e : Bool} (h : r.Wf e) {b : Byte} {f : Frame}
    (emitted : (r.step b).2 = some (.frame f)) : f.Checked e := by
  obtain ⟨atSum, rfl⟩ := Receiver.step_frame emitted
  have stored := h.stored (.inr atSum)
  have counted : r.payload.length + r.status.toList.length = r.len.toNat := by
    rw [← h.inSum atSum, ← stored]
    cases r.status <;> rfl
  obtain ⟨bound, -⟩ := h.length (.inr (.inr atSum))
  refine ⟨?_, counted.le.trans bound, stored⟩
  rw [Frame.body_eq counted, h.checksum (by simp [atSum])]
  simp only [Receiver.covered, atSum]

/-! ## What starts a walk -/

/-- The address filter, as an equivalence (R140). -/
theorem accepts_iff {d : Device} {f : Frame} :
    accepts d f = true ↔ f.nodeAddress = d.nodeId ∨ f.nodeAddress = ADDR_BCAST := by
  simp [accepts]

/-- A verified frame that a caller gives to a board's interpreter starts its walk. -/
theorem interpretCall_of_accepts {s : State} {i : Nat} {d : Device} {f : Frame} (hd : s.devices[i]? = some d)
    (hv : f.verified = true) (ha : accepts d f = true) :
    interpretCall (.device i) f s = .next { s with walk := some (Walk.start i f.payload) } := by
  simp only [interpretCall, hd, hv, deviceEvent, ha, if_true]

/-- A verified frame for another board is dropped. -/
theorem interpretCall_of_not_accepts {s : State} {i : Nat} {d : Device} {f : Frame} (hd : s.devices[i]? = some d)
    (hv : f.verified = true) (ha : ¬ accepts d f = true) : interpretCall (.device i) f s = .next s := by
  simp only [interpretCall, hd, hv, deviceEvent, if_neg ha, if_true]

theorem sendReply_walk {i : Nat} {f : Frame} {s t : State} (k : sendReply i f s = .next t) : t.walk = s.walk := by
  obtain ⟨w, l, o, -, -, rfl | rfl⟩ := sendReply_next k <;> rfl

/-- Where no walk runs, a byte starts one only by completing an accepted frame at its board. -/
theorem deviceByte_starts {i : Nat} {b : Byte} {s t : State} {w : Walk} (k : deviceByte i b s = .next t)
    (quiet : s.walk = none) (started : t.walk = some w) :
    ∃ d f, s.devices[i]? = some d ∧ (d.rx.step b).2 = some (.frame f) ∧ accepts d f = true ∧
      w = Walk.start i f.payload := by
  have absent : t.walk ≠ none := by simp [started]
  unfold deviceByte at k
  split at k
  · cases k
  · rename_i d hd
    simp only at k
    split at k
    · cases k
      exact absurd quiet absent
    · rename_i e event
      unfold deviceEvent at k
      split at k
      · rename_i f
        split at k <;> cases k
        · rename_i passes
          exact ⟨d, f, hd, event, passes, (Option.some.inj started).symm⟩
        · exact absurd quiet absent
      · split at k
        · exact absurd ((sendReply_walk k).trans quiet) absent
        · cases k
          exact absurd quiet absent
      · cases k
        exact absurd quiet absent

/-- The agents start a walk only by taking a byte of the line; the host's own steps start none. -/
theorem agentStep_starts {s t : State} {w : Walk} (k : agentStep s = .next t) (quiet : s.walk = none)
    (started : t.walk = some w) : ∃ i b rest, s.line = (i, b) :: rest ∧ deviceByte i b { s with line := rest } = .next t := by
  have host : ¬ HostStep s t := fun frame => by simp [frame.walk, quiet] at started
  unfold agentStep at k
  split at k
  · rename_i i b rest line
    exact ⟨i, b, rest, line, k⟩
  · split at k
    · cases k
      exact absurd (.refl s) host
    · exact absurd (secondReset_step k) host
    · exact absurd (finishReset_step k) host
    · exact absurd (endWait_step k) host
    · exact absurd (endResent_step k) host

theorem addressLossInput_walk {i : Nat} {s t : State} (k : addressLossInput i s = .next t) : t.walk = s.walk := by
  unfold addressLossInput at k
  split at k <;> cases k
  rfl

theorem pollInput_walk {i : Nat} {locked : Bool} {p : PollWrite} {s t : State} (k : pollInput i locked p s = .next t) :
    t.walk = s.walk := by
  unfold pollInput at k
  split at k
  · split at k
    · cases k
    · split at k <;> cases k
      rfl
  · cases k

theorem powerUpInput_walk {i : Nat} {cfg : DevConfig} {s t : State} (k : powerUpInput i cfg s = .next t) :
    t.walk = s.walk := by
  unfold powerUpInput at k
  split_ifs at k <;> cases k <;> rfl

/-- A step that starts a walk gave a board's Receiver a byte, or took a caller's Interpret. -/
theorem step_starts {s t : State} {w : Walk} (k : step s = .next t) (quiet : s.walk = none) (started : t.walk = some w) :
    (∃ i b u, s.Hears i b u ∧ deviceByte i b u = .next t) ∨
      ∃ a f rest, s.Takes (.interpret a f) rest ∧ interpretCall a f { s with inputs := rest } = .next t := by
  have moved : t.walk ≠ s.walk := by simp [started, quiet]
  match inputs : s.inputs with
  | [] =>
    have k : agentStep s = .next t := by simpa only [step, quiet, busStep, inputs] using k
    obtain ⟨i, b, l, line, byte⟩ := agentStep_starts k quiet started
    exact .inl ⟨i, b, _, .line l quiet inputs line, byte⟩
  | input :: rest =>
    have takes : s.Takes input rest := ⟨quiet, inputs⟩
    rw [takes.step] at k
    cases input with
    | tick =>
      obtain ⟨i, b, l, line, byte⟩ := agentStep_starts k quiet started
      exact .inl ⟨i, b, _, .tick rest l takes line, byte⟩
    | drain =>
      simp only [takeInput] at k
      split at k
      · cases k
        exact absurd rfl moved
      · obtain ⟨i, b, l, line, byte⟩ := agentStep_starts k quiet started
        exact .inl ⟨i, b, _, .drain rest l takes line, by rw [inputs]; exact byte⟩
    | call agent op =>
      cases agent with
      | host => exact absurd (hostCall_step k).walk moved
      | device => cases k
    | interpret a f => exact .inr ⟨a, f, rest, takes, k⟩
    | byte i b => exact .inl ⟨i, b, _, .byte rest takes, k⟩
    | addressLoss => exact absurd (addressLossInput_walk k) moved
    | poll => exact absurd (pollInput_walk k) moved
    | powerUp => exact absurd (powerUpInput_walk k) moved

/-- Settles O43: a Receiver in legal form stores the fields it checks, and a walk starts from a frame that it emits or that
Interpret finds verified. -/
theorem onlyVerifiedFrames : Obligations.OnlyVerifiedFrames := by
  refine ⟨fun w e f h => ?decoded, fun r e b f wf h => ?emitted, fun s rest j d f takes hd status bound sum => ?called,
    fun s t w inv quiet k started => ?started⟩
  case decoded =>
    obtain ⟨sum, bound, status⟩ := decodeFrame_checked h
    exact ⟨sum, bound, status⟩
  case emitted =>
    obtain ⟨sum, bound, status⟩ := wf.step_frame_checked h
    exact ⟨sum, bound, status⟩
  case called =>
    have verified := Frame.verified_iff.2 ⟨status, bound, sum⟩
    refine ⟨fun own => takes.step.trans (interpretCall_of_accepts hd verified (accepts_iff.2 own)), fun other bcast => ?_⟩
    have dropped : ¬ accepts d f = true := fun h => (accepts_iff.1 h).elim other bcast
    exact takes.step.trans (interpretCall_of_not_accepts hd verified dropped)
  case started =>
    rcases step_starts k quiet started with ⟨i, b, u, hears, byte⟩ | ⟨a, f, rest, takes, call⟩
    · obtain ⟨-, bus⟩ := hears.bus
      obtain ⟨d, f, hd, event, passes, rfl⟩ := deviceByte_starts byte (by rw [bus]; exact quiet) started
      have hd : s.devices[i]? = some d := by rw [bus] at hd; exact hd
      have verified := ((inv.board hd).rx.step_frame_checked event).verified
      obtain ⟨status, bound, sum⟩ := Frame.verified_iff.1 verified
      exact ⟨f, d, hd, .inl ⟨b, u, hears, event⟩, accepts_iff.1 passes, status, bound, sum, rfl⟩
    · obtain ⟨i, d, rfl, hd, verified, ⟨passes, rfl⟩ | ⟨-, rfl⟩⟩ := interpretCall_next call
      · obtain ⟨status, bound, sum⟩ := Frame.verified_iff.1 verified
        obtain rfl : Walk.start i f.payload = w := Option.some.inj started
        exact ⟨f, d, hd, .inr (by rw [takes.inputs]; rfl), accepts_iff.1 passes, status, bound, sum, rfl⟩
      · simp [quiet] at started

end Sys2Proof.Machine
end

section
/-! Memory while one frame is interpreted (20_memory.md R70, R72): a READCOIN reads the counter that a COININCREASE before it
in the frame has written, and nothing outside the interpreting board moves. -/

namespace Sys2Proof.Machine

/-! ## Amounts and the coin slot word (30_encoding.md R87, R93) -/

/-- The two bytes of an amount do not overlap, so "or" is addition (R87). -/
theorem amountOf_toNat (h l : Byte) : (amountOf h l).toNat = 256 * h.toNat + l.toNat := by
  have disjoint : (h.toNat <<< 8) ||| l.toNat = h.toNat <<< 8 + l.toNat := (Nat.shiftLeft_add_eq_or_of_lt l.isLt _).symm
  have fits : h.toNat <<< 8 < 2 ^ 16 := by rw [Nat.shiftLeft_eq]; omega
  simp only [amountOf, BitVec.toNat_or, BitVec.toNat_shiftLeft, BitVec.toNat_setWidth,
    Nat.mod_eq_of_lt (show h.toNat < 2 ^ 16 by omega), Nat.mod_eq_of_lt (show l.toNat < 2 ^ 16 by omega),
    Nat.mod_eq_of_lt fits, disjoint]
  omega

/-- The slot word of a counter in condition Normal is its low 14 bits, high byte first. -/
theorem coinWord_normal (v : U32) :
    coinWord .normal v = [BitVec.ofNat 8 (v.toNat % 16384 / 256), BitVec.ofNat 8 (v.toNat % 256)] := by
  have low14 : (v &&& 0x3FFF).toNat = v.toNat % 16384 := Nat.and_two_pow_sub_one_eq_mod v.toNat 14
  have hi : ((v &&& 0x3FFF) >>> 8).setWidth 8 = BitVec.ofNat 8 (v.toNat % 16384 / 256) := by
    apply BitVec.eq_of_toNat_eq
    simp only [BitVec.toNat_setWidth, BitVec.toNat_ushiftRight, low14, Nat.shiftRight_eq_div_pow, BitVec.toNat_ofNat]
  have lo : (v &&& 0x3FFF).setWidth 8 = BitVec.ofNat 8 (v.toNat % 256) := by
    apply BitVec.eq_of_toNat_eq
    simp only [BitVec.toNat_setWidth, low14, BitVec.toNat_ofNat]
    omega
  have normal (b : Byte) : conditionCode .normal <<< 6 ||| b = b := BitVec.zero_or
  simp only [coinWord, hi, lo, normal]

theorem coinIncrease_eq {v v' : U32} {amount : U16} (h : v'.toNat = min (v.toNat + amount.toNat) 0xFFFFFFFF) :
    coinIncrease v amount = v' := by
  rw [coinIncrease, ← h, BitVec.ofNat_toNat, BitVec.setWidth_eq]

/-! ## The coin commands, where every check passes and the response fits (41_interpreter.md R158, R159) -/

theorem exec_coinincrease_of_fits {s : State} {w : Walk} {d : Device} {slot : Byte} {amount : U16} {n : Nat} {v v' : U32}
    (hi : Interpreting s w d) (cfg : d.cfg.coinCfg = .configured n) (first : 1 ≤ slot.toNat)
    (limit : slot.toNat ≤ limit1 d.cfg .coin) (counter : d.coinSlots[slot.toNat - 1]? = some v)
    (sum : v'.toNat = min (v.toNat + amount.toNat) 0xFFFFFFFF) (room : w.resp.length + 1 ≤ MAX_RESP) :
    exec (.coinincrease (some (slot, amount))) s = .next (s.putWalk
      { w with resp := w.resp ++ [REPORT_NORMAL], pos := w.pos + 4 }
      { d with coinSlots := d.coinSlots.set (slot.toNat - 1) v' }) := by
  have inRange : ¬ (slot.toNat < 1 ∨ slot.toNat > limit1 d.cfg .coin) := by omega
  obtain ⟨inside, here⟩ := List.getElem?_eq_some_iff.1 counter
  have stored : ¬ slot.toNat > d.coinSlots.length := by omega
  simp only [exec, execCoinincrease, runCommand_of hi, updateCoin, cfg, if_neg inRange, if_neg stored]
  rw [commit_of_fits (by simpa using room), slotIndex, List.modify_eq_set_get _ inside, List.get_eq_getElem, here,
    coinIncrease_eq sum]

theorem exec_readcoin_of_fits {s : State} {w : Walk} {d : Device} {count : Byte} {n : Nat}
    (hi : Interpreting s w d) (cfg : d.cfg.coinCfg = .configured n)
    (limit : count.toNat ≤ limit1 d.cfg .coin) (stored : count.toNat ≤ d.coinSlots.length)
    (room : w.resp.length + (REPORT_NORMAL :: coinWords d count.toNat).length ≤ MAX_RESP) :
    exec (.readcoin (some count)) s = .next (s.putWalk
      { w with resp := w.resp ++ REPORT_NORMAL :: coinWords d count.toNat, pos := w.pos + 2 } d) := by
  simp only [exec, execReadcoin, runCommand_of hi, cfg, if_neg (Nat.not_lt.2 limit), if_neg (Nat.not_lt.2 stored)]
  rw [commit_of_fits room]

theorem coinWords_one {d : Device} {c : CoinCondition} {v : U32} {conds : List CoinCondition} {rest : List U32}
    (condition : d.coinCondition = c :: conds) (slots : d.coinSlots = v :: rest) : coinWords d 1 = coinWord c v := by
  simp [coinWords, condition, slots]

/-- The board a command writes back is the one that interprets at the next step. -/
theorem Interpreting.putWalk {s : State} {w w' : Walk} {d : Device} (hi : Interpreting s w d) (dev : w'.dev = w.dev)
    (d' : Device) : Interpreting (s.putWalk w' d') w' d' := by
  refine ⟨rfl, ?_⟩
  rw [putWalk_devices, dev, getElem?_set_board hi.board hi.board, if_pos rfl]

theorem stepsTo_two {s t u : State} (first : step s = .next t) (second : step t = .next u) : stepsTo 2 s = some u := by
  simp only [stepsTo, first, second]

/-- Settles O28: the first step writes the increased counter to the board, and the second reads the slot word from that
board. -/
theorem readcoinSeesEarlierIncrease : Obligations.ReadcoinSeesEarlierIncrease := by
  intro s d j n h l v v' rest conds hi codes cfg limit slots conditions sum
  have first := (stepRunsDecodedInstruction s _ (.coinincrease (some (0x01, amountOf h l))) hi.walk rfl
    (by rw [codes]; rfl)).trans (exec_coinincrease_of_fits hi cfg (by decide) limit (by rw [slots]; rfl)
      (by rw [amountOf_toNat]; exact sum) (by simp [MAX_RESP]))
  rw [slots] at first
  have next := hi.putWalk (w' := { Walk.start j [0x35, 0x01, h, l, 0x21, 0x01] with resp := [REPORT_NORMAL], pos := 4 })
    rfl { d with coinSlots := v' :: rest }
  have word : coinWords { d with coinSlots := v' :: rest } (0x01 : Byte).toNat = _ :=
    (coinWords_one (by exact conditions) (by rfl)).trans (coinWord_normal v')
  have second := (stepRunsDecodedInstruction _ _ (.readcoin (some 0x01)) next.walk rfl
    (by rw [putWalk_params, codes]; rfl)).trans (exec_readcoin_of_fits next cfg limit (by simp)
      (by rw [word]; simp [MAX_RESP]))
  rw [word] at second
  exact ⟨_, _, stepsTo_two first second, rfl, rfl⟩

/-! ## What a walk leaves alone (20_memory.md R70, 60_exceptions.md R223) -/

/-- From `s` to `t` only board `i`, the working registers, the line, the replies and the oracle may have moved. -/
structure OnlyBoard (i : Nat) (s t : State) : Prop where
  host : t.host = s.host
  inputs : t.inputs = s.inputs
  inFlight : t.inFlight = s.inFlight
  freeCount : t.freeCount = s.freeCount
  params : t.params = s.params
  others : ∀ j, j ≠ i → t.devices[j]? = s.devices[j]?

/-- A change of the working registers, the line, the replies and the oracle alone. -/
theorem OnlyBoard.ofBus (i : Nat) (s : State) (w : Option Walk) (l : List (Nat × Byte)) (r : List (List Byte)) (o : Oracle) :
    OnlyBoard i s { s with walk := w, line := l, replies := r, oracle := o } :=
  ⟨rfl, rfl, rfl, rfl, rfl, fun _ _ => rfl⟩

theorem OnlyBoard.ofPutWalk {i : Nat} {s : State} {w : Walk} (dev : w.dev = i) (d : Device) :
    OnlyBoard i s (s.putWalk w d) :=
  ⟨rfl, rfl, rfl, rfl, rfl, fun _ other => List.getElem?_set_ne (by rw [dev]; exact Ne.symm other)⟩

/-- Finish ends the walk; the one board it may change is the one that keeps the reply it sent (R146). -/
theorem finishFrame_onlyBoard {w : Walk} {s t : State} (k : finishFrame w s = .next t) :
    OnlyBoard w.dev s t ∧ t.walk = none := by
  rcases finishFrame_next k with rfl | ⟨_, d, b, _, _, rfl⟩ | ⟨_, _, _, reply⟩
  · exact ⟨.ofBus _ s none _ _ _, rfl⟩
  · obtain ⟨l, o, _, ⟨_, sent⟩ | ⟨_, failed⟩⟩ := deviceSend_cases w.dev b { s with walk := none }
    · rw [sent]
      exact ⟨.ofBus _ s none _ _ _, rfl⟩
    · rw [failed]
      exact ⟨.ofBus _ s none _ _ _, rfl⟩
  · obtain ⟨b, l, o, _, _, rfl | rfl⟩ := sendReply_next reply
    · exact ⟨⟨rfl, rfl, rfl, rfl, rfl, fun _ other => List.getElem?_modify_ne _ _ (Ne.symm other)⟩, rfl⟩
    · exact ⟨.ofBus _ s none _ _ _, rfl⟩

/-- A step while a frame is interpreted runs a command, stops at an unrecognised code, or is Finish (41_interpreter.md
R143). -/
theorem walkStep_next {w : Walk} {s t : State} (k : walkStep w s = .next t) :
    (∃ i, exec i s = .next t) ∨ t = { s with walk := some w.unknown } ∨ finishFrame w s = .next t := by
  unfold walkStep at k
  split at k
  · split at k
    · exact .inl ⟨_, k⟩
    · exact .inr (.inl (Host.Outcome.next.inj k).symm)
  · exact .inr (.inr k)

/-- Settles O35, by what the step was: a command writes back its board and the working registers, an unrecognised code changes
the working registers alone, and Finish, which alone sends, ends the walk. -/
theorem frameIsNotInterrupted : Obligations.FrameIsNotInterrupted := by
  intro s t w hw hstep
  have k : walkStep w s = .next t := by simpa only [step, hw] using hstep
  have frame : OnlyBoard w.dev s t ∧ (t.walk = none ∨ ∃ w', t.walk = some w' ∧ w'.dev = w.dev ∧
      w'.payload = w.payload ∧ t.line = s.line ∧ t.replies = s.replies ∧ t.oracle = s.oracle) := by
    rcases walkStep_next k with ⟨i, command⟩ | rfl | finish
    · obtain ⟨v, d, w', d', interpreting, rfl, effect, -⟩ := exec_effect command
      obtain rfl : v = w := Option.some.inj (interpreting.walk.symm.trans hw)
      exact ⟨.ofPutWalk effect.dev d', .inr ⟨w', rfl, effect.dev, effect.payload, rfl, rfl, rfl⟩⟩
    · exact ⟨.ofBus _ s _ _ _ _, .inr ⟨w.unknown, rfl, rfl, rfl, rfl, rfl, rfl⟩⟩
    · obtain ⟨only, ended⟩ := finishFrame_onlyBoard finish
      exact ⟨only, .inl ended⟩
  obtain ⟨⟨host, inputs, inFlight, freeCount, params, others⟩, ending⟩ := frame
  exact ⟨host, inputs, inFlight, freeCount, params, others, ending⟩

end Sys2Proof.Machine
end

section
/-! The round trip of the command stream (30_encoding.md R85 to R87, R92, R95): the decoder looks its code byte up in the
table of the 13 commands, whose codes are distinct, so a command's own code finds that command and no other code finds any. -/

namespace Sys2Proof

/-! ## The argument bytes of a complete operand read back to it (10_state.md R22) -/

@[simp] theorem take1_bytes1_some (a : Byte) (rest : List Byte) : take1 (bytes1 (some a) ++ rest) = some a := rfl

@[simp] theorem take2_bytes2_some (p : Byte × Byte) (rest : List Byte) : take2 (bytes2 (some p) ++ rest) = some p := rfl

@[simp] theorem takeSlotAmount_bytesSlotAmount_some (p : Byte × U16) (rest : List Byte) :
    takeSlotAmount (bytesSlotAmount (some p) ++ rest) = some p :=
  congrArg (fun amount => some (p.1, amount)) (amountOf_hi_lo p.2)

/-- The count byte is the number of data bytes only while that number fits it. -/
theorem takeCounted_bytesCounted_some {d : List Byte} (fits : d.length ≤ 255) (rest : List Byte) :
    takeCounted (bytesCounted (some d) ++ rest) = some d := by
  have count : (BitVec.ofNat 8 d.length).toNat = d.length := by
    rw [BitVec.toNat_ofNat]
    omega
  simp [bytesCounted, takeCounted, count]

/-! ## The decoder as a lookup in the code table (30_encoding.md R92) -/

/-- Each command's code under `t`, with the command that the bytes `args` after the code give. -/
def CodeTable.commands (t : CodeTable) (args : List Byte) : List (Byte × Instr) :=
  [(t.ioident, .ioident), (t.cmdrev, .cmdrev), (t.jvsrev, .jvsrev), (t.comver, .comver), (t.featchk, .featchk),
   (t.readswitch, .readswitch (take2 args)), (t.readcoin, .readcoin (take1 args)), (t.dataretry, .dataretry),
   (t.coindecrease, .coindecrease (takeSlotAmount args)), (t.genericout1, .genericout1 (takeCounted args)),
   (t.coinincrease, .coinincrease (takeSlotAmount args)), (t.reset, .reset (take1 args)),
   (t.setaddr, .setaddr (take1 args))]

theorem CodeTable.commands_codes (t : CodeTable) (args : List Byte) : (t.commands args).map Prod.fst = t.toList := rfl

/-- The decoder's answer to the code byte `c`, from what its lookup found. -/
def decodeFound (c : Byte) : Option Instr → Except Reject Instr
  | some i => .ok i
  | none => .error (.unrecognised c)

@[simp] theorem decodeFound_some (c : Byte) (i : Instr) : decodeFound c (some i) = .ok i := rfl

@[simp] theorem decodeFound_none (c : Byte) : decodeFound c none = .error (.unrecognised c) := rfl

/-- One comparison of the decoder's chain is one entry of the lookup. -/
theorem decodeFound_lookup_cons (c code : Byte) (i : Instr) (others : List (Byte × Instr)) :
    decodeFound c (((code, i) :: others).lookup c) = if c = code then .ok i else decodeFound c (others.lookup c) := by
  by_cases h : c = code
  · rw [if_pos h, h, List.lookup_cons_self]
    rfl
  · rw [if_neg h, List.lookup_cons, beq_false_of_ne h]

theorem decode_cons_eq_lookup (t : CodeTable) (c : Byte) (args : List Byte) :
    decode t (c :: args) = decodeFound c ((t.commands args).lookup c) := by
  simp only [decode, CodeTable.commands, decodeFound_lookup_cons, List.lookup_nil, decodeFound_none]

/-- In a list whose keys are distinct, each entry is the one its key finds. -/
theorem lookup_eq_some_of_mem {l : List (Byte × Instr)} (distinct : (l.map Prod.fst).Nodup) {c : Byte} {i : Instr}
    (h : (c, i) ∈ l) : l.lookup c = some i := by
  obtain ⟨before, after, rfl⟩ := List.mem_iff_append.1 h
  refine List.lookup_eq_some_iff.2 ⟨before, after, rfl, fun p hp => bne_iff_ne.2 ?_⟩
  rintro rfl
  rw [List.map_append, List.map_cons, List.nodup_middle, List.nodup_cons] at distinct
  have listed : p.1 ∈ before.map Prod.fst := List.mem_map_of_mem hp
  exact distinct.1 (List.mem_append_left _ listed)

/-- The two conditions of R92 on an admitted table: its codes are distinct, and none is manufacturer-specific. -/
theorem CodeTable.codes_of_wf {t : CodeTable} (h : t.wf = true) :
    t.toList.Nodup ∧ ∀ c ∈ t.toList, c.toNat < 0x60 ∨ 0x7F < c.toNat := by
  simp only [CodeTable.wf, Bool.and_eq_true, decide_eq_true_eq, List.all_eq_true] at h
  exact h.1

/-- A code of the table decodes to its own command. -/
theorem decode_of_mem_commands {t : CodeTable} (h : t.wf = true) {c : Byte} {args : List Byte} {i : Instr}
    (mem : (c, i) ∈ t.commands args) : decode t (c :: args) = .ok i := by
  have distinct : ((t.commands args).map Prod.fst).Nodup := (CodeTable.codes_of_wf h).1
  rw [decode_cons_eq_lookup, lookup_eq_some_of_mem distinct mem, decodeFound_some]

/-- A byte that is no code of the table is unrecognised; the table may be any (R95). -/
theorem decode_of_not_mem_codes {t : CodeTable} {c : Byte} (other : c ∉ t.toList) (args : List Byte) :
    decode t (c :: args) = .error (.unrecognised c) := by
  have missing : (t.commands args).lookup c = none := by
    refine List.lookup_eq_none_iff.2 fun p hp => bne_iff_ne.2 ?_
    rintro rfl
    exact other (List.mem_map_of_mem (f := Prod.fst) hp)
  rw [decode_cons_eq_lookup, missing, decodeFound_none]

/-! ## The statements -/

/-- The encoding of a well-formed command is its code followed by bytes from which the table's entry for that code gives the
command back (R86). The cases are the commands; those with an operand turn on how the operand reads back. -/
theorem encodeWith_mem_commands (t : CodeTable) {i : Instr} (h : i.wf = true) (rest : List Byte) :
    ∃ c args, encodeWith t i ++ rest = c :: args ∧ (c, i) ∈ t.commands args := by
  cases i with
  | ioident | cmdrev | jvsrev | comver | featchk | dataretry => exact ⟨_, _, rfl, by simp [CodeTable.commands]⟩
  | readswitch operand | coindecrease operand | coinincrease operand | readcoin operand | setaddr operand =>
    obtain ⟨p, rfl⟩ := Option.isSome_iff_exists.1 h
    exact ⟨_, _, rfl, by simp [CodeTable.commands]⟩
  | reset literal =>
    obtain rfl : literal = some RESET_ARG := eq_of_beq h
    exact ⟨_, _, rfl, by simp [CodeTable.commands]⟩
  | genericout1 data =>
    obtain ⟨d, rfl, fits⟩ := (Option.any_eq_true _ _).1 h
    exact ⟨_, _, rfl, by simp [CodeTable.commands, takeCounted_bytesCounted_some (of_decide_eq_true fits)]⟩

/-- Settles O1: the encoding starts with a code of the table, that code finds its command and no other, and the command's
operand reads back from the bytes after it. -/
theorem decodeOfEncode : Obligations.DecodeOfEncode := by
  intro t i rest admitted wf
  obtain ⟨c, args, bytes, mem⟩ := encodeWith_mem_commands t wf rest
  rw [bytes]
  exact decode_of_mem_commands admitted mem

/-- Settles O3: a byte in the manufacturer range is no code of an admitted table, and a byte that is no code finds nothing. -/
theorem otherCodesUnrecognised : Obligations.OtherCodesUnrecognised := by
  intro t c args admitted h
  refine decode_of_not_mem_codes ?_ args
  rcases h with other | ⟨low, high⟩
  · exact other
  · intro mem
    have outside := (CodeTable.codes_of_wf admitted).2 c mem
    omega

/-- A word that is the encoding of a well-formed command under the default table decodes to it. -/
theorem decode_standard_of_encode {i : Instr} {word : List Byte} (wf : i.wf = true) (bytes : encode i = word) :
    decode .standard word = .ok i := by
  have roundTrip := decodeOfEncode .standard i [] (by decide) wf
  rwa [List.append_nil, ← encode, bytes] at roundTrip

/-- Settles O4: each word is the encoding of the command it is said to decode to. -/
theorem writtenWordsDecode : Obligations.WrittenWordsDecode :=
  ⟨decode_standard_of_encode (by decide) (by decide), decode_standard_of_encode (by decide) (by decide),
   decode_standard_of_encode (by decide) (by decide), decode_standard_of_encode (by decide) (by decide),
   decode_standard_of_encode (by decide) (by decide), decode_standard_of_encode (by decide) (by decide)⟩

end Sys2Proof
end

section
/-! The codec on whole frames (40_codec.md R110 to R127): what Decode's checks make of the bytes that a length byte counts, the
form and the length of what Encode answers, the round trip, and the flipped bit that the checksum finds. -/

namespace Sys2Proof.Machine

/-! ## Decode, where exactly the counted bytes and a checksum follow the length byte (R115) -/

/-- With a legal length byte and nothing missing or left over, Decode turns on the checksum alone. -/
theorem parseFrame_counted {e : Bool} {addr len sum : Byte} {fields : List Byte} (counted : fields.length = len.toNat)
    (bound : len.toNat ≤ MAX_LEN) (status : e.toNat ≤ len.toNat) :
    parseFrame e (addr :: len :: (fields ++ [sum])) =
      if checksumOf (addr :: len :: fields) = sum then
        .ok ⟨addr, if e then fields.head? else none, fields.drop e.toNat, sum⟩
      else .error (.checksumMismatch addr) := by
  have last : (fields ++ [sum]).getD len.toNat 0 = sum := by simp [← counted]
  have init : (fields ++ [sum]).take len.toNat = fields := by simp [← counted]
  have first : (if e then (fields ++ [sum]).head? else none) = if e then fields.head? else none := by
    cases e with
    | false => rfl
    | true =>
      obtain ⟨x, fields, rfl⟩ := List.exists_cons_of_length_pos (counted ▸ status : 0 < fields.length)
      rfl
  have full : (fields ++ [sum]).length = len.toNat + 1 := by simp [counted]
  simp only [parseFrame, last, init, first, full, Nat.not_lt.2 bound, Nat.not_lt.2 status, lt_irrefl, if_false,
    ne_eq, ite_not]

/-- Decode gives back the status and the payload that the counted bytes were made of. -/
theorem parseFrame_fields {addr len sum : Byte} {status : Option Byte} {payload : List Byte}
    (counted : payload.length + status.toList.length = len.toNat) (bound : len.toNat ≤ MAX_LEN) :
    parseFrame status.isSome (addr :: len :: (status.toList ++ payload ++ [sum])) =
      if checksumOf (addr :: len :: (status.toList ++ payload)) = sum then .ok ⟨addr, status, payload, sum⟩
      else .error (.checksumMismatch addr) := by
  have first : status.isSome.toNat ≤ len.toNat := by rw [← counted]; cases status <;> simp
  rw [parseFrame_counted (by rw [← counted, List.length_append, Nat.add_comm]) bound first]
  cases status <;> rfl

theorem decodeFrame_of_unescape {rest u : List Byte} {e : Bool} (h : unescape false rest = .ok u) :
    decodeFrame (SYNC :: rest) e = parseFrame e u := by
  simp [decodeFrame, h]

/-! ## What Encode answers (R112, R113) -/

theorem toNat_ofNat_of_le_maxLen {n : Nat} (h : n ≤ MAX_LEN) : (BitVec.ofNat 8 n).toNat = n := by
  rw [BitVec.toNat_ofNat, Nat.mod_eq_of_lt (by rw [MAX_LEN] at h; omega)]

/-- Settles O39: Unescape undoes Escape, and the fields of the body parse back under the checksum that Encode computed. -/
theorem codecRoundTrip : Obligations.CodecRoundTrip := by
  intro f bound
  refine ⟨_, encodeFrame_of_le bound, ?_⟩
  rw [decodeFrame_of_unescape (unescape_flatMap_escape _)]
  have length := toNat_ofNat_of_le_maxLen bound
  exact (parseFrame_fields length.symm (by rwa [length])).trans (if_pos rfl)

/-- The only MARKs of an escaped sequence are those that Escape puts before the byte below an escaped one (R111). -/
theorem mark_starts_pair {l : List Byte} {k : Nat} (h : (l.flatMap escape)[k]? = some MARK) :
    (l.flatMap escape)[k + 1]? = some 0xDF ∨ (l.flatMap escape)[k + 1]? = some 0xCF := by
  induction l generalizing k with
  | nil => simp at h
  | cons x l ih =>
    rw [List.flatMap_cons] at h ⊢
    by_cases hs : x = SYNC
    · rw [hs, escape_sync] at h ⊢
      match k, h with
      | 0, _ => exact .inl rfl
      | k + 2, h => exact ih h
    · by_cases hm : x = MARK
      · rw [hm, escape_mark] at h ⊢
        match k, h with
        | 0, _ => exact .inr rfl
        | k + 2, h => exact ih h
      · rw [escape_other hs hm] at h ⊢
        match k, h with
        | 0, h => exact absurd (Option.some.inj h) hm
        | k + 1, h => exact ih h

/-- Settles O40: Encode puts one SYNC before an escaped sequence, which holds no SYNC and only paired MARKs. -/
theorem encodedFrameIsEscaped : Obligations.EncodedFrameIsEscaped := by
  intro f w encoded
  obtain ⟨-, rfl⟩ := encodeFrame_eq_some.1 encoded
  refine ⟨rfl, fun k hk sync => ?_, fun k hk mark => ?_⟩
  all_goals obtain ⟨k, rfl⟩ := Nat.exists_eq_add_of_le' hk
  · exact sync_not_mem_flatMap_escape _ (List.mem_of_getElem? sync)
  · exact mark_starts_pair mark

/-- Settles O41: the address, the length byte and the checksum join the `N` counted bytes, each of them one or two wire bytes
after the SYNC. -/
theorem encodedFrameLength : Obligations.EncodedFrameLength := by
  intro f
  constructor
  · rw [Option.isSome_iff_ne_none, ne_eq, encodeFrame_eq_none, Nat.not_lt]
    rfl
  · intro w encoded
    have wire := (wireForm_of_encodeFrame encoded).bound
    obtain ⟨-, rfl⟩ := encodeFrame_eq_some.1 encoded
    have atLeast := flatMap_escape_length_ge (f.body ++ [checksumOf f.body])
    have atMost := flatMap_escape_length_le (f.body ++ [checksumOf f.body])
    rw [List.length_append, body_length, Frame.lengthByte, List.length_singleton] at atLeast atMost
    rw [List.length_cons] at wire ⊢
    omega

/-! ## One changed byte (R127) -/

theorem flip_ne (b : Byte) {k : Nat} (h : k < 8) : b ^^^ (1#8 <<< k) ≠ b := by
  have bit : ∀ k < 8, 1#8 <<< k ≠ 0#8 := by decide
  rw [ne_eq, ← BitVec.xor_right_inj b, ← BitVec.xor_assoc, BitVec.xor_self, BitVec.zero_xor]
  exact bit k h

/-- Where one field value other than the length byte is changed by `d`, the checksum no longer fits. -/
theorem parseFrame_changed {e : Bool} {addr len x d : Byte} {fields l₁ l₂ : List Byte} (counted : fields.length = len.toNat)
    (bound : len.toNat ≤ MAX_LEN) (status : e.toNat ≤ len.toNat)
    (values : addr :: len :: (fields ++ [checksumOf (addr :: len :: fields)]) = l₁ ++ x :: l₂) (place : l₁.length ≠ 1)
    (hd : d ≠ 0) : ∃ a, parseFrame e (l₁ ++ (x + d) :: l₂) = .error (.checksumMismatch a) := by
  have grows {c : Byte} : c + d ≠ c := fun h => hd (by simpa using h)
  match l₁, values, place with
  | [], values, _ =>
    simp only [List.nil_append, List.cons.injEq] at values
    obtain ⟨rfl, rfl⟩ := values
    refine ⟨addr + d, (parseFrame_counted counted bound status).trans (if_neg ?_)⟩
    exact fun h => grows ((checksumOf_change [] _ addr d).symm.trans h)
  | a :: n :: m, values, _ =>
    simp only [List.cons_append, List.cons.injEq] at values
    obtain ⟨rfl, rfl, values⟩ := values
    refine ⟨addr, ?_⟩
    rcases List.eq_nil_or_concat' l₂ with rfl | ⟨m', sum, rfl⟩
    · obtain ⟨rfl, last⟩ := List.append_inj' values rfl
      obtain ⟨rfl, -⟩ := List.cons.inj last
      exact (parseFrame_counted counted bound status).trans (if_neg grows.symm)
    · rw [← List.cons_append, ← List.append_assoc] at values
      obtain ⟨rfl, last⟩ := List.append_inj' values rfl
      obtain ⟨rfl, -⟩ := List.cons.inj last
      have changed := parseFrame_counted (addr := addr) (sum := checksumOf (addr :: len :: (m ++ x :: m')))
        (fields := m ++ (x + d) :: m') (by simpa using counted) bound status
      rw [List.append_assoc] at changed
      refine changed.trans (if_neg fun h => grows ((checksumOf_change (addr :: len :: m) m' x d).symm.trans h))

/-- Settles O42: the flipped wire byte changes one unescaped byte by an amount other than zero and leaves the others
(`unescape_change`); by its place that byte is not the length byte, so every check up to the checksum passes as before. -/
theorem singleFlipIsDetected : Obligations.SingleFlipIsDetected := by
  intro f w j k b encoded hj hb hk notMark notSync notNewMark place
  obtain ⟨bound, rfl⟩ := encodeFrame_eq_some.1 encoded
  obtain ⟨p, rfl⟩ := Nat.exists_eq_add_of_le' hj
  obtain ⟨l₁, x, l₂, values, lower, upper, changed⟩ := unescape_change _ p b _ hb notMark notSync notNewMark
  rw [List.set_cons_succ, decodeFrame_of_unescape changed]
  have length := toNat_ofNat_of_le_maxLen bound
  refine parseFrame_changed (fields := f.statusCode.toList ++ f.payload) ?_ (by rwa [length]) ?_ values ?_
    (sub_ne_zero.2 (flip_ne b hk))
  · rw [length, Frame.lengthByte, List.length_append, Nat.add_comm]
  · rw [length, Frame.lengthByte]
    cases f.statusCode <;> simp
  · intro atLength
    obtain ⟨a, rfl⟩ := List.length_eq_one_iff.1 atLength
    simp only [Frame.body, List.cons_append, List.nil_append, List.cons.injEq] at values
    obtain ⟨rfl, rfl, -⟩ := values
    simp only [List.flatMap_cons, List.flatMap_nil, List.append_nil] at lower upper
    rw [Frame.lengthByte] at upper
    omega

end Sys2Proof.Machine
end

section
/-! The Receiver against Decode (40_codec.md R118 to R124): after a SYNC a Receiver stores the values that Unescape gives, and
where Decode's checks on those values end decides in which phase, and with which event, the Receiver ends. -/

namespace Sys2Proof.Machine

/-! ## A SYNC in any phase (R118, R119) -/

theorem Receiver.step_idle {r : Receiver} {b : Byte} (idle : r.phase = .idle) (other : b ≠ SYNC) : r.step b = (r, none) := by
  simp only [Receiver.step, if_neg other, if_pos idle]

theorem Receiver.step_sync (r : Receiver) : r.step SYNC = r.startFrame := if_pos rfl

/-- What a SYNC says of the frame it cuts off: a framing error, or nothing in `idle` (R119). -/
theorem Receiver.startFrame_events (r : Receiver) :
    r.startFrame.2.toList = if r.phase = .idle then [] else [.framingError .rawSync] := by
  unfold Receiver.startFrame
  split <;> rfl

/-- After a SYNC, bytes that unescape store their field values into the new frame. -/
theorem Receiver.run_sync {r : Receiver} {w u : List Byte} (h : unescape false w = .ok u) :
    r.run (SYNC :: w) = ((r.startFrame.1.stores u).1, r.startFrame.2.toList ++ (r.startFrame.1.stores u).2) := by
  rw [Receiver.run, Receiver.step_sync, Receiver.run_eq_stores rfl h]

/-- Without the last wire byte, the events are those of the field values but the last. -/
theorem Receiver.run_sync_init {r : Receiver} {w u : List Byte} {b v : Byte} (h : unescape false (w ++ [b]) = .ok (u ++ [v])) :
    (r.run (SYNC :: w)).2 = r.startFrame.2.toList ++ (r.startFrame.1.stores u).2 := by
  rw [Receiver.run, Receiver.step_sync, Receiver.run_init_events rfl h]

theorem exists_last_of_unescape {w u : List Byte} {v : Byte} (h : unescape false w = .ok (u ++ [v])) :
    ∃ w' b, w = w' ++ [b] := by
  rcases List.eq_nil_or_concat' w with rfl | last
  · simp [unescape] at h
  · exact last

/-- The wire bytes up to the unescaped length byte, the last of them by itself. -/
theorem exists_lengthByte_of_unescape {w tail : List Byte} {a n : Byte} (h : unescape false w = .ok (a :: n :: tail)) :
    ∃ before b after, w = before ++ b :: after ∧ unescape false (before ++ [b]) = .ok [a, n] := by
  obtain ⟨wa, w, rfl, -, h, putAddr⟩ := unescape_head h
  obtain ⟨wn, after, rfl, -, -, putLength⟩ := unescape_head h
  have both : unescape false (wa ++ wn) = .ok ([a] ++ [n]) := putAddr _ _ (by simpa using putLength [] [] rfl)
  obtain ⟨before, b, last⟩ := exists_last_of_unescape both
  refine ⟨before, b, after, ?_, last ▸ both⟩
  rw [← List.append_assoc, last, List.append_assoc, List.singleton_append]

/-! ## The length byte (R115, R121) -/

/-- A length byte that Decode accepts in the direction `e`. -/
def LegalLength (e : Bool) (n : Byte) : Prop := n.toNat ≤ MAX_LEN ∧ e.toNat ≤ n.toNat

theorem legalLength_iff {e : Bool} {n : Byte} : LegalLength e n ↔ ¬ (n.toNat > MAX_LEN ∨ n.toNat < e.toNat) := by
  rw [LegalLength, not_or, not_lt, not_lt]

theorem parseFrame_of_not_legal {e : Bool} {a n : Byte} {tail : List Byte} (h : ¬ LegalLength e n) :
    parseFrame e (a :: n :: tail) = .error (.framing .badLength) := by
  rw [legalLength_iff, not_not] at h
  rw [parseFrame]
  split
  · rfl
  · rename_i small
    rw [if_pos (h.resolve_left small)]

theorem parseFrame_of_short {e : Bool} {a n : Byte} {tail : List Byte} (h : LegalLength e n)
    (short : tail.length < n.toNat + 1) : parseFrame e (a :: n :: tail) = .error .truncated := by
  rw [parseFrame, if_neg (not_lt.2 h.1), if_neg (not_lt.2 h.2), if_pos short]

theorem Receiver.store_addr {r : Receiver} (h : r.phase = .addr) (v : Byte) :
    r.store v = ({ r with addr := v, sum := v, phase := .len }, none) := by
  simp only [Receiver.store, h]

theorem Receiver.store_bad_length {r : Receiver} {v : Byte} (h : r.phase = .len) (bad : ¬ LegalLength r.expectStatus v) :
    r.store v = ({ r with phase := .idle }, some (.framingError .badLength)) := by
  rw [legalLength_iff, not_not] at bad
  simp only [Receiver.store, h, if_pos bad]

theorem Receiver.store_legal_length {r : Receiver} {v : Byte} (h : r.phase = .len) (legal : LegalLength r.expectStatus v) :
    r.store v = ({ r with len := v, sum := r.sum + v,
                          phase := if r.expectStatus then .status else if v.toNat > 0 then .payload else .sum }, none) := by
  simp only [Receiver.store, h, if_neg (legalLength_iff.1 legal)]

/-- A new frame ends at a length byte that Decode refuses. -/
theorem Receiver.stores_bad_length {r : Receiver} {n : Byte} (h : r.phase = .addr) (bad : ¬ LegalLength r.expectStatus n)
    (a : Byte) (tail : List Byte) : (r.stores (a :: n :: tail)).2 = [.framingError .badLength] := by
  have refused := Receiver.store_bad_length (r := { r with addr := a, sum := a, phase := .len }) rfl bad
  simp only [Receiver.stores, Receiver.store_addr h, refused, Receiver.stores_idle]
  rfl

/-! ## Past the length byte (R121, R122) -/

/-- A Receiver past the length byte `n` of a frame for `a` has stored `fields` of the `n` values it counts. -/
structure Receiver.Holds (r : Receiver) (e : Bool) (a n : Byte) (fields : List Byte) : Prop where
  body : r.InBody e
  remaining : r.remaining + fields.length = n.toNat + 1
  addr : r.addr = a
  len : r.len = n
  stored : r.status.toList ++ r.payload = fields

/-- A Receiver in legal form takes a legal length byte of a new frame without an event. -/
theorem Receiver.Wf.holds_of_legal_length {r : Receiver} {e : Bool} {n : Byte} (wf : r.Wf e) (h : r.phase = .addr)
    (noEsc : r.esc = false) (legal : LegalLength e n) (a : Byte) :
    (r.stores [a, n]).2 = [] ∧ (r.stores [a, n]).1.Holds e a n [] := by
  have role := wf.role
  subst role
  obtain ⟨noPayload, noStatus⟩ := wf.early (.inl h)
  have wfAddr := wf.store noEsc a
  rw [Receiver.store_addr h] at wfAddr
  have wfLength := wfAddr.store noEsc n
  have taken := Receiver.store_legal_length (r := { r with addr := a, sum := a, phase := .len }) rfl legal
  rw [taken] at wfLength
  simp only [Receiver.stores, Receiver.store_addr h, taken]
  refine ⟨rfl, ⟨wfLength, noEsc, ?_⟩, ?_, rfl, rfl, by simp [noStatus, noPayload]⟩
  all_goals
    dsimp only [Receiver.remaining]
    split_ifs <;> simp_all

/-- A new frame takes its address, a legal length byte and values up to the last counted one without an event. -/
theorem Receiver.Wf.stores_fields {r : Receiver} {e : Bool} {n : Byte} {fields : List Byte} (wf : r.Wf e) (h : r.phase = .addr)
    (noEsc : r.esc = false) (legal : LegalLength e n) (counted : fields.length ≤ n.toNat) (a : Byte) :
    (r.stores (a :: n :: fields)).2 = [] ∧ (r.stores (a :: n :: fields)).1.Holds e a n fields := by
  obtain ⟨quiet, start⟩ := wf.holds_of_legal_length h noEsc legal a
  have nothing := start.remaining
  rw [List.length_nil, Nat.add_zero] at nothing
  obtain ⟨quiet', body, remaining, addr, len, stored⟩ := start.body.stores (l := fields) (by omega)
  have pieces := Receiver.stores_append r [a, n] fields
  rw [quiet, quiet'] at pieces
  rw [show r.stores (a :: n :: fields) = _ from pieces]
  exact ⟨rfl, body, by rw [remaining, nothing], addr.trans start.addr, len.trans start.len,
    by rw [stored, start.stored, List.nil_append]⟩

theorem Receiver.Holds.phase_ne_idle {r : Receiver} {e : Bool} {a n : Byte} {fields : List Byte} (h : r.Holds e a n fields) :
    r.phase ≠ .idle := by
  rcases h.body.phase with here | here | here <;> simp [here]

/-- With every counted value stored, the checksum byte brings the event that Decode answers for the same values (R122). -/
theorem Receiver.Holds.store_sum {r : Receiver} {e : Bool} {a n : Byte} {fields : List Byte} (h : r.Holds e a n fields)
    (counted : fields.length = n.toNat) (s : Byte) :
    (∃ f, (r.store s).2 = some (.frame f) ∧ parseFrame e (a :: n :: (fields ++ [s])) = .ok f) ∨
      ((r.store s).2 = some (.checksumMismatch a) ∧
        parseFrame e (a :: n :: (fields ++ [s])) = .error (.checksumMismatch a)) := by
  obtain ⟨body, remaining, rfl, rfl, rfl⟩ := h
  have atSum : r.phase = .sum := body.atSum (by omega)
  have sum : r.sum = checksumOf (r.addr :: r.len :: (r.status.toList ++ r.payload)) := by
    rw [body.wf.checksum (by simp [atSum])]
    simp only [Receiver.covered, atSum]
  obtain ⟨bound, -⟩ := body.wf.length (.inr (.inr atSum))
  have parsed := parseFrame_fields (addr := r.addr) (sum := s)
    (by rw [← counted, List.length_append, Nat.add_comm] : r.payload.length + r.status.toList.length = r.len.toNat) bound
  rw [body.wf.stored (.inr atSum), ← sum] at parsed
  rw [parsed]
  simp only [Receiver.store, atSum]
  by_cases hit : s = r.sum
  · exact .inl ⟨_, by rw [if_pos hit], if_pos hit.symm⟩
  · exact .inr ⟨by rw [if_neg hit], if_neg (Ne.symm hit)⟩

/-! ## Whole sequences (R124) -/

/-- Fed a whole frame, a Receiver emits what Decode answers, and with the last wire byte only. -/
theorem Receiver.Wf.run_whole {r : Receiver} {e : Bool} {rest fields : List Byte} {a n s : Byte} (wf : r.Wf e)
    (unescaped : unescape false rest = .ok (a :: n :: (fields ++ [s]))) (legal : LegalLength e n)
    (counted : fields.length = n.toNat) :
    (r.run (SYNC :: rest).dropLast).2 = r.startFrame.2.toList ∧
      ((∃ f, decodeFrame (SYNC :: rest) e = .ok f ∧ (r.run (SYNC :: rest)).2 = r.startFrame.2.toList ++ [.frame f]) ∨
        (decodeFrame (SYNC :: rest) e = .error (.checksumMismatch a) ∧
          (r.run (SYNC :: rest)).2 = r.startFrame.2.toList ++ [.checksumMismatch a])) := by
  obtain ⟨quiet, holds⟩ := wf.startFrame.stores_fields rfl rfl legal counted.le a
  have closing := Receiver.stores_append r.startFrame.1 (a :: n :: fields) [s]
  rw [quiet, List.cons_append, List.cons_append] at closing
  rw [decodeFrame_of_unescape unescaped, Receiver.run_sync unescaped, closing]
  constructor
  · obtain ⟨w, b, rfl⟩ := exists_last_of_unescape (u := a :: n :: fields) unescaped
    rw [← List.cons_append, List.dropLast_concat, Receiver.run_sync_init (u := a :: n :: fields) unescaped, quiet,
      List.append_nil]
  · rcases holds.store_sum counted s with ⟨f, emitted, parsed⟩ | ⟨emitted, parsed⟩
    · exact .inl ⟨f, parsed, by rw [Receiver.stores, emitted]; rfl⟩
    · exact .inr ⟨parsed, by rw [Receiver.stores, emitted]; rfl⟩

/-- Fed values that are too few for Decode, where storing them brings no event, a Receiver waits for the rest. -/
theorem Receiver.run_incomplete {r : Receiver} {e : Bool} {rest u : List Byte} (unescaped : unescape false rest = .ok u)
    (few : parseFrame e u = .error .truncated) (quiet : (r.startFrame.1.stores u).2 = [])
    (waits : (r.startFrame.1.stores u).1.phase ≠ .idle) :
    decodeFrame (SYNC :: rest) e = .error .truncated ∧ (r.run (SYNC :: rest)).2 = r.startFrame.2.toList ∧
      (r.run (SYNC :: rest)).1.phase ≠ .idle := by
  rw [decodeFrame_of_unescape unescaped, Receiver.run_sync unescaped, quiet]
  exact ⟨few, List.append_nil _, waits⟩

/-- Fed a refused length byte, a Receiver emits the framing error with the last wire byte of it and nothing after. -/
theorem Receiver.Wf.run_bad_length {r : Receiver} {e : Bool} {rest tail : List Byte} {a n : Byte} (wf : r.Wf e)
    (unescaped : unescape false rest = .ok (a :: n :: tail)) (bad : ¬ LegalLength e n) :
    decodeFrame (SYNC :: rest) e = .error (.framing .badLength) ∧
      (r.run (SYNC :: rest)).2 = r.startFrame.2.toList ++ [.framingError .badLength] ∧
      ∃ before b after, rest = before ++ b :: after ∧ unescape false (before ++ [b]) = .ok [a, n] ∧
        (r.run (SYNC :: before)).2 = r.startFrame.2.toList ∧
        (r.run (SYNC :: (before ++ [b]))).2 = r.startFrame.2.toList ++ [.framingError .badLength] := by
  have refused : ¬ LegalLength r.startFrame.1.expectStatus n := by rwa [wf.startFrame.role]
  have ends {w l : List Byte} (h : unescape false w = .ok (a :: n :: l)) :
      (r.run (SYNC :: w)).2 = r.startFrame.2.toList ++ [.framingError .badLength] := by
    rw [Receiver.run_sync h, Receiver.stores_bad_length rfl refused]
  obtain ⟨before, b, after, bytes, ofLength⟩ := exists_lengthByte_of_unescape unescaped
  refine ⟨by rw [decodeFrame_of_unescape unescaped, parseFrame_of_not_legal bad], ends unescaped, before, b, after, bytes,
    ofLength, ?_, ends ofLength⟩
  exact (Receiver.run_sync_init (u := [a]) ofLength).trans (List.append_nil _)

/-- Settles O44: a SYNC starts a new frame, and of the values that Unescape then gives there are too few for a length byte, or
the length byte is refused, or too few follow it, or exactly those it counts and a checksum. -/
theorem receiverAgreesWithDecode : Obligations.ReceiverAgreesWithDecode := by
  refine ⟨fun r b => Receiver.step_idle, Receiver.step_sync, fun r e rest u pre wf hpre unescaped whole => ?_⟩
  rw [← r.startFrame_events] at hpre
  subst hpre
  match u, unescaped, whole with
  | [], unescaped, _ | [_], unescaped, _ =>
    obtain ⟨decoded, waits⟩ := Receiver.run_incomplete (r := r) unescaped rfl rfl nofun
    rw [show decodeFrame (0xE0 :: rest) e = _ from decoded]
    exact waits
  | a :: n :: tail, unescaped, whole =>
    by_cases legal : LegalLength e n
    · rcases Nat.lt_or_eq_of_le (whole a n tail rfl legal.1) with short | full
      · obtain ⟨quiet, holds⟩ := wf.startFrame.stores_fields rfl rfl legal (Nat.le_of_lt_succ short) a
        obtain ⟨decoded, waits⟩ :=
          Receiver.run_incomplete unescaped (parseFrame_of_short legal short) quiet holds.phase_ne_idle
        rw [show decodeFrame (0xE0 :: rest) e = _ from decoded]
        exact waits
      · obtain ⟨fields, s, rfl⟩ := (List.eq_nil_or_concat' tail).resolve_left (by rintro rfl; simp at full)
        obtain ⟨init, ⟨f, decoded, emitted⟩ | ⟨decoded, emitted⟩⟩ := wf.run_whole unescaped legal (by simpa using full)
        all_goals
          rw [show decodeFrame (0xE0 :: rest) e = _ from decoded]
          exact ⟨emitted, init⟩
    · obtain ⟨decoded, emitted, before, b, after, bytes, ofLength, init, upTo⟩ := wf.run_bad_length unescaped legal
      rw [show decodeFrame (0xE0 :: rest) e = _ from decoded]
      exact ⟨rfl, emitted, before, b, after, a, n, bytes, ofLength, init, upTo⟩

end Sys2Proof.Machine
end

section
/-! The end of every walk (41_interpreter.md R165, R166): a command or an unrecognised code moves the cursor forward or stops
the walk, so the payload bytes left bound the steps to Finish. -/

namespace Sys2Proof.Machine

/-- Every command takes at least its code byte. -/
theorem one_le_size (i : Instr) : 1 ≤ i.size := by
  cases i with
  | ioident => exact Laws.Size.ioident.2
  | cmdrev => exact Laws.Size.cmdrev.2
  | jvsrev => exact Laws.Size.jvsrev.2
  | comver => exact Laws.Size.comver.2
  | featchk => exact Laws.Size.featchk.2
  | readswitch args => exact (Laws.Size.readswitch args).2
  | readcoin count => exact (Laws.Size.readcoin count).2
  | dataretry => exact Laws.Size.dataretry.2
  | coindecrease args => exact (Laws.Size.coindecrease args).2
  | genericout1 data => exact (Laws.Size.genericout1 data).2
  | coinincrease args => exact (Laws.Size.coinincrease args).2
  | reset literal => exact (Laws.Size.reset literal).2
  | setaddr address => exact (Laws.Size.setaddr address).2

theorem running_iff {w : Walk} : w.running = true ↔ w.stop = false ∧ w.pos < w.payload.length := by
  simp [Walk.running, and_comm]

theorem not_running_of_ended {w : Walk} (ended : w.stop = true ∨ w.payload.length ≤ w.pos) : ¬ w.running = true := by
  rw [running_iff]
  rcases ended with stopped | atEnd
  · simp [stopped]
  · omega

/-- The step of a walk that has stopped or is at the end of the payload is Finish (R143). -/
theorem step_of_ended {s : State} {w : Walk} (hw : s.walk = some w) (ended : w.stop = true ∨ w.payload.length ≤ w.pos) :
    step s = finishFrame w s := by
  simp only [step, hw, walkStep, if_neg (not_running_of_ended ended)]

/-- A walk has gone on from `w` to `w'`: on the same payload, forward or to a stop (R165). -/
structure Walk.Advances (w w' : Walk) : Prop where
  payload : w'.payload = w.payload
  forward : w.pos < w'.pos ∨ w'.stop = true

/-- A command goes past its own code byte, or stops the walk. -/
theorem WalkEffect.advances {i : Instr} {w w' : Walk} (e : WalkEffect i w w') : w.Advances w' := by
  refine ⟨e.payload, ?_⟩
  have := one_le_size i
  rcases e.progress with ⟨-, -, -, -, pos⟩ | ⟨stop, -⟩
  · exact .inl (by omega)
  · exact .inr stop

theorem step_advances {s : State} {w : Walk} (h : s.Inv) (hw : s.walk = some w) (running : w.running = true) :
    ∃ t w', step s = .next t ∧ t.walk = some w' ∧ w.Advances w' := by
  obtain ⟨t, next⟩ := interpretingNeverStops s h (by rw [hw]; rfl)
  have k := next
  simp only [step, hw, walkStep, running, if_true] at k
  split at k
  · obtain ⟨v, d, w', d', interpreting, rfl, effect, -⟩ := exec_effect k
    obtain rfl : v = w := Option.some.inj (interpreting.walk.symm.trans hw)
    exact ⟨_, w', next, rfl, effect.advances⟩
  · cases k
    exact ⟨_, w.unknown, next, rfl, rfl, .inr rfl⟩

theorem finish_ends {s : State} {w : Walk} (h : s.Inv) (hw : s.walk = some w)
    (ended : w.stop = true ∨ w.payload.length ≤ w.pos) : ∃ t, step s = .next t ∧ t.walk = none := by
  obtain ⟨t, next⟩ := interpretingNeverStops s h (by rw [hw]; rfl)
  exact ⟨t, next, (finishFrame_onlyBoard ((step_of_ended hw ended).symm.trans next)).2⟩

theorem stepsTo_succ {k : Nat} {s t : State} (next : step s = .next t) : stepsTo (k + 1) s = stepsTo k t := by
  simp only [stepsTo, next]

/-- The walk of a legal bus ends after at most one step for each payload byte left, and Finish. The induction is over the
payload bytes left; a walk that a command stops needs Finish alone. -/
theorem walk_ends {n : Nat} {s : State} {w : Walk} (h : s.Inv) (hw : s.walk = some w)
    (left : w.payload.length - w.pos ≤ n) : ∃ k t, k ≤ n + 1 ∧ stepsTo k s = some t ∧ t.walk = none := by
  induction n generalizing s w with
  | zero =>
    obtain ⟨t, next, gone⟩ := finish_ends h hw (.inr (by omega))
    exact ⟨1, t, le_rfl, stepsTo_succ next, gone⟩
  | succ n ih =>
    by_cases running : w.running = true
    · obtain ⟨t, w', next, hw', payload, forward⟩ := step_advances h hw running
      have legal : t.Inv := stepKeepsLegalForm s t h next
      rcases forward with further | stopped
      · obtain ⟨k, u, bound, steps, gone⟩ := ih legal hw' (by rw [payload]; omega)
        exact ⟨k + 1, u, by omega, (stepsTo_succ next).trans steps, gone⟩
      · obtain ⟨u, last, gone⟩ := finish_ends legal hw' (.inl stopped)
        exact ⟨2, u, by omega, stepsTo_two next last, gone⟩
    · have ended : w.stop = true ∨ w.payload.length ≤ w.pos := by
        rw [running_iff, not_and_or] at running
        simpa using running
      obtain ⟨t, next, gone⟩ := finish_ends h hw ended
      exact ⟨1, t, by omega, stepsTo_succ next, gone⟩

/-- Settles O26: each step of a running walk advances it, and the payload bytes left are the measure. -/
theorem walkAlwaysEnds : Obligations.WalkAlwaysEnds := by
  intro s w h hw
  refine ⟨fun going inside => ?_, (h.walk w hw).payload, walk_ends h hw le_rfl⟩
  obtain ⟨t, w', next, hw', advances⟩ := step_advances h hw (running_iff.2 ⟨going, inside⟩)
  exact ⟨t, w', next, hw', advances.forward⟩

end Sys2Proof.Machine
end

section
/-! What each command answers where its board interprets a frame (41_interpreter.md R144, R145, R149 to R162). A command's answer
is a walk and a board that it writes back: those of Commit, Short, Abort or a quiet stop. The commands that use a buffer check a
request in one order (R149), which `checkedCommit` says once for all five. -/

namespace Sys2Proof.Machine

/-! ## Answers -/

/-- The command answers a next state, in which it has written back the walk and the board of `x`. -/
def State.Answers (s : State) (i : Instr) (x : Walk × Device) : Prop := exec i s = .next (s.putWalk x.1 x.2)

section
variable {s : State} {w : Walk} {d d' : Device} {i : Instr} {r : List Byte} {n m p : Nat}

/-- A command that ends in Commit responds, moves past itself and takes effect where the response fits, and else overflows with
no effect (R145). -/
theorem State.Answers.commit_outcomes (h : s.Answers i (commit r n w d d')) (len : r.length = m) (past : w.pos + 1 + n = p) :
    (w.resp.length + m ≤ 253 → exec i s = .next (s.putWalk { w with resp := w.resp ++ r, pos := p } d')) ∧
    (253 < w.resp.length + m → exec i s = .next (s.putWalk { w with fstatus := .overflow, stop := true } d)) := by
  subst len past
  refine ⟨fun fits => ?_, fun overflows => ?_⟩
  · rwa [State.Answers, commit_of_fits fits] at h
  · rwa [State.Answers, commit_of_overflow overflows] at h

/-- A command that ends in Short reports DataError and stops, or overflows (R144). -/
theorem State.Answers.short_outcomes {reports : ReportCodes} (h : s.Answers i (w.short reports, d)) :
    (w.resp.length + 1 ≤ 253 →
      exec i s = .next (s.putWalk { w with resp := w.resp ++ [reports.dataError], stop := true } d)) ∧
    (253 < w.resp.length + 1 → exec i s = .next (s.putWalk { w with fstatus := .overflow, stop := true } d)) := by
  refine ⟨fun fits => ?_, fun overflows => ?_⟩
  · rwa [State.Answers, short_of_fits fits] at h
  · rwa [State.Answers, short_of_overflow overflows] at h

end

/-! ## The identification commands (R152 to R156) -/

section
variable {s : State} {w : Walk} {d : Device} (hi : Interpreting s w d)
include hi

theorem answers_ioident : s.Answers .ioident (commit (REPORT_NORMAL :: (d.cfg.identity ++ [0x00])) 0 w d d) :=
  (runCommand_of hi _ : execIoident s = _)

theorem answers_cmdrev : s.Answers .cmdrev (commit [REPORT_NORMAL, d.cfg.cmdVersion] 0 w d d) :=
  (runCommand_of hi _ : execCmdrev s = _)

theorem answers_jvsrev : s.Answers .jvsrev (commit [REPORT_NORMAL, d.cfg.jvsVersion] 0 w d d) :=
  (runCommand_of hi _ : execJvsrev s = _)

theorem answers_comver : s.Answers .comver (commit [REPORT_NORMAL, d.cfg.commVersion] 0 w d d) :=
  (runCommand_of hi _ : execComver s = _)

theorem answers_featchk : s.Answers .featchk (commit (REPORT_NORMAL :: featureListBytes d.cfg.features) 0 w d d) :=
  (runCommand_of hi _ : execFeatchk s = _)

end

/-- Settles O7: IOIDENT is one Commit, with no effect on the board. -/
theorem ioidentReportsIdentity : Obligations.IoidentReportsIdentity :=
  fun _ _ _ hi => (answers_ioident hi).commit_outcomes (by simp) rfl

/-- Settles O8: the three commands differ in the version byte alone. -/
theorem versionCommandsReport : Obligations.VersionCommandsReport := by
  intro s w d hi i v which
  have answers : s.Answers i (commit [REPORT_NORMAL, v] 0 w d d) := by
    rcases which with ⟨rfl, rfl⟩ | ⟨rfl, rfl⟩ | ⟨rfl, rfl⟩
    · exact answers_cmdrev hi
    · exact answers_jvsrev hi
    · exact answers_comver hi
  exact answers.commit_outcomes rfl rfl

/-- Where every element gives `c` items, the `k`-th one's start at `c * k`. -/
theorem getElem?_flatMap_of_length {α β : Type} {f : α → List β} {c : Nat} (len : ∀ x, (f x).length = c) {l : List α}
    {k j : Nat} {x : α} (hx : l[k]? = some x) (hj : j < c) : (l.flatMap f)[c * k + j]? = (f x)[j]? := by
  induction l generalizing k with
  | nil => simp at hx
  | cons y l ih =>
    rw [List.flatMap_cons]
    cases k with
    | zero =>
      obtain rfl : y = x := by simpa using hx
      rw [Nat.mul_zero, Nat.zero_add, List.getElem?_append_left (by rw [len]; exact hj)]
    | succ k =>
      rw [List.getElem?_append_right (by rw [len, Nat.mul_succ]; omega), len, ← ih (by simpa using hx)]
      congr 1
      rw [Nat.mul_succ]
      omega

theorem featureListBytes_length (fs : List Feature) : (featureListBytes fs).length = 4 * fs.length + 1 := by
  induction fs with
  | nil => rfl
  | cons g fs ih =>
    rw [featureListBytes_cons, List.length_append, featureBytes_length, ih, List.length_cons]
    omega

/-- The `k`-th feature's four bytes start at `4 * k` (30_encoding.md R94). -/
theorem featureListBytes_getElem? {fs : List Feature} {k j : Nat} {g : Feature} (hg : fs[k]? = some g) (hj : j < 4) :
    (featureListBytes fs)[4 * k + j]? = (featureBytes g)[j]? := by
  obtain ⟨inside, -⟩ := List.getElem?_eq_some_iff.1 hg
  have len : (fs.flatMap featureBytes).length = 4 * fs.length := by
    have := featureListBytes_length fs
    simpa [featureListBytes] using this
  rw [featureListBytes, List.getElem?_append_left (by omega), getElem?_flatMap_of_length featureBytes_length hg hj]

/-- The list ends in the End byte (R94). -/
theorem featureListBytes_getElem?_end (fs : List Feature) : (featureListBytes fs)[4 * fs.length]? = some 0x00 := by
  have len := featureListBytes_length fs
  simp only [featureListBytes, List.length_append, List.length_singleton, Nat.add_right_cancel_iff] at len
  rw [featureListBytes, ← len, List.getElem?_concat_length]

/-- The four bytes of an admitted feature are BCD (00_scope.md R13, 10_state.md R24). -/
theorem featureBytes_of_wf {g : Feature} (h : g.wf = true) :
    featureBytes g = [BitVec.ofNat 8 (16 * (featureOrdinal g.featureType / 10) + featureOrdinal g.featureType % 10),
      BitVec.ofNat 8 (16 * (g.p1.toNat / 10) + g.p1.toNat % 10),
      BitVec.ofNat 8 (16 * (g.p2.toNat / 10) + g.p2.toNat % 10),
      BitVec.ofNat 8 (16 * (g.p3.toNat / 10) + g.p3.toNat % 10)] := by
  simp only [Feature.wf, Bool.and_eq_true, decide_eq_true_eq] at h
  obtain ⟨⟨⟨-, h1⟩, h2⟩, h3⟩ := h
  have ordinal : featureOrdinal g.featureType ≤ 99 := by cases g.featureType <;> decide
  rw [featureBytes, featureCode, bcd_of_le ordinal, bcd_of_le h1, bcd_of_le h2, bcd_of_le h3]

theorem DevConfig.feature_wf {c : DevConfig} (h : c.wf = true) {g : Feature} (hg : g ∈ c.features) : g.wf = true := by
  simp only [DevConfig.wf, Bool.and_eq_true, List.all_eq_true] at h
  exact h.2 g hg

/-- Settles O9: the response is the report and the feature list. -/
theorem featchkReportsFeatures : Obligations.FeatchkReportsFeatures := by
  intro s w d hi wf
  refine ⟨REPORT_NORMAL :: featureListBytes d.cfg.features, by rw [List.length_cons, featureListBytes_length], rfl,
    featureListBytes_getElem?_end _, fun k g hg => ?_, (answers_featchk hi).commit_outcomes rfl rfl⟩
  have bytes := featureBytes_of_wf (DevConfig.feature_wf wf (List.mem_of_getElem? hg))
  have byte (j : Nat) (hj : j < 4) := featureListBytes_getElem? hg hj
  rw [bytes] at byte
  exact ⟨byte 0 (by omega), byte 1 (by omega), byte 2 (by omega), byte 3 (by omega)⟩

/-! ## The checks of a command that uses a buffer (R149) -/

/-- The buffer configured, the request not `beyond` the declared limits, the buffer not `lacking` elements: then Commit of the
response `r` with the board `d'`. -/
def checkedCommit (cfg : BufCfg) (beyond lacking : Prop) [Decidable beyond] [Decidable lacking] (parameterError : Byte)
    (r : List Byte) (n : Nat) (w : Walk) (d d' : Device) : Walk × Device :=
  match cfg with
  | .unconfigured => abortFrame w d
  | .configured _ =>
    if beyond then commit [parameterError] n w d d
    else if lacking then abortFrame w d
    else commit r n w d d'

section
variable {s : State} {i : Instr} {w : Walk} {d d' : Device} {cfg : BufCfg} {beyond lacking : Prop} [Decidable beyond]
  [Decidable lacking] {parameterError : Byte} {r : List Byte} {n size : Nat}
  (h : s.Answers i (checkedCommit cfg beyond lacking parameterError r n w d d'))
include h

theorem State.Answers.of_beyond (configured : cfg = .configured size) (hb : beyond) :
    s.Answers i (commit [parameterError] n w d d) := by
  subst configured
  simpa only [checkedCommit, if_pos hb] using h

theorem State.Answers.of_within (configured : cfg = .configured size) (hb : ¬ beyond) (hl : ¬ lacking) :
    s.Answers i (commit r n w d d') := by
  subst configured
  simpa only [checkedCommit, if_neg hb, if_neg hl] using h

/-- A missing buffer aborts the frame before any limit is checked, and one that is too small only within the limits. -/
theorem State.Answers.of_misconfigured (fault : cfg = .unconfigured ∨ (¬ beyond ∧ lacking)) : s.Answers i (abortFrame w d) := by
  cases cfg with
  | unconfigured => exact h
  | configured size =>
    obtain ⟨hb, hl⟩ := fault.resolve_left nofun
    simpa only [checkedCommit, if_neg hb, if_pos hl] using h

end

/-! ## The switch, coin and output commands (R157 to R161) -/

section
variable {s : State} {w : Walk} {d : Device} (hi : Interpreting s w d)
include hi

theorem answers_readswitch (pl b : Byte) : s.Answers (.readswitch (some (pl, b)))
    (checkedCommit d.cfg.switchCfg (pl.toNat > limit1 d.cfg .switch ∨ b.toNat > limit2 d.cfg .switch)
      (pl.toNat * b.toNat > d.switches.length) s.params.reports.parameterError
      (REPORT_NORMAL :: d.systemSwitches :: switchBytes d.switches pl.toNat b.toNat) 2 w d d) :=
  (runCommand_of hi _ : execReadswitch (some (pl, b)) s = _)

theorem answers_readcoin (count : Byte) : s.Answers (.readcoin (some count))
    (checkedCommit d.cfg.coinCfg (count.toNat > limit1 d.cfg .coin) (count.toNat > d.coinSlots.length)
      s.params.reports.parameterError (REPORT_NORMAL :: coinWords d count.toNat) 1 w d d) :=
  (runCommand_of hi _ : execReadcoin (some count) s = _)

theorem answers_coinincrease (slot : Byte) (amount : U16) : s.Answers (.coinincrease (some (slot, amount)))
    (checkedCommit d.cfg.coinCfg (slot.toNat < 1 ∨ slot.toNat > limit1 d.cfg .coin) (slot.toNat > d.coinSlots.length)
      s.params.reports.parameterError [REPORT_NORMAL] 3 w d
      { d with coinSlots := d.coinSlots.modify (slotIndex slot) (fun v => coinIncrease v amount) }) :=
  (runCommand_of hi _ : execCoinincrease (some (slot, amount)) s = _)

theorem answers_coindecrease (slot : Byte) (amount : U16) : s.Answers (.coindecrease (some (slot, amount)))
    (checkedCommit d.cfg.coinCfg (slot.toNat < 1 ∨ slot.toNat > limit1 d.cfg .coin) (slot.toNat > d.coinSlots.length)
      s.params.reports.parameterError [REPORT_NORMAL] 3 w d
      { d with coinSlots := d.coinSlots.modify (slotIndex slot) (fun v => coinDecrease v amount) }) :=
  (runCommand_of hi _ : execCoindecrease (some (slot, amount)) s = _)

theorem answers_genericout1 (data : List Byte) : s.Answers (.genericout1 (some data))
    (checkedCommit d.cfg.outputCfg (data.length > outputByteLimit d.cfg) (data.length > d.outputSlots.length)
      s.params.reports.parameterError [REPORT_NORMAL] (1 + data.length) w d
      { d with outputSlots := memWrite d.outputSlots 0 data }) :=
  (runCommand_of hi _ : execGenericout1 (some data) s = _)

theorem answers_missing_argument {i : Instr} (h : i ∈ [.readswitch none, .readcoin none, .coindecrease none, .genericout1 none,
    .coinincrease none, .setaddr none]) : s.Answers i (w.short s.params.reports, d) := by
  simp only [List.mem_cons, List.not_mem_nil, or_false] at h
  rcases h with rfl | rfl | rfl | rfl | rfl | rfl
  · exact (runCommand_of hi _ : execReadswitch none s = _)
  · exact (runCommand_of hi _ : execReadcoin none s = _)
  · exact (runCommand_of hi _ : execCoindecrease none s = _)
  · exact (runCommand_of hi _ : execGenericout1 none s = _)
  · exact (runCommand_of hi _ : execCoinincrease none s = _)
  · exact (runCommand_of hi _ : execSetaddr none s = _)

end

/-- Settles O10: the switch bytes player by player are the first ones of the buffer. -/
theorem readswitchReports : Obligations.ReadswitchReports := by
  intro s w d pl b n hi cfg players perPlayer stored
  have answers := (answers_readswitch hi pl b).of_within cfg (by omega) (by omega)
  rw [switchBytes_eq_take stored] at answers
  exact answers.commit_outcomes (by simp [Nat.min_eq_left stored]) rfl

theorem coinWord_length (c : CoinCondition) (v : U32) : (coinWord c v).length = 2 := rfl

theorem coinWords_length {d : Device} {n : Nat} (conditions : n ≤ d.coinCondition.length) (slots : n ≤ d.coinSlots.length) :
    (coinWords d n).length = 2 * n := by
  simp only [coinWords, List.length_flatMap, coinWord_length, List.map_const', List.sum_replicate, List.length_take,
    List.length_zip, smul_eq_mul]
  omega

/-- The `k`-th slot word, its condition and counter (30_encoding.md R93). -/
theorem coinWords_getElem? {d : Device} {n k j : Nat} {c : CoinCondition} {v : U32} (hk : k < n)
    (hc : d.coinCondition[k]? = some c) (hv : d.coinSlots[k]? = some v) (hj : j < 2) :
    (coinWords d n)[2 * k + j]? = (coinWord c v)[j]? := by
  have slot : ((d.coinCondition.zip d.coinSlots).take n)[k]? = some (c, v) := by
    rw [List.getElem?_take_of_lt hk, List.getElem?_zip_eq_some]
    exact ⟨hc, hv⟩
  have words (p : CoinCondition × U32) : (coinWord p.1 p.2).length = 2 := coinWord_length p.1 p.2
  exact getElem?_flatMap_of_length (x := (c, v)) words slot hj

/-- Settles O11: the response is the report and the slot words. -/
theorem readcoinReports : Obligations.ReadcoinReports := by
  intro s w d count n hi wf cfg limit stored
  have conditions : count.toNat ≤ d.coinCondition.length := by
    rw [wf.coinCondition, ← wf.coinSlots]
    exact stored
  refine ⟨REPORT_NORMAL :: coinWords d count.toNat, by rw [List.length_cons, coinWords_length conditions stored], rfl,
    fun k c v hk hc hv => ?_, ((answers_readcoin hi count).of_within cfg (by omega) (by omega)).commit_outcomes rfl rfl⟩
  have word (j : Nat) (hj : j < 2) := coinWords_getElem? hk hc hv hj
  rw [coinWord_eq] at word
  exact ⟨word 0 (by omega), word 1 (by omega)⟩

theorem coinDecrease_eq {v v' : U32} {amount : U16} (h : v'.toNat = v.toNat - amount.toNat) : coinDecrease v amount = v' :=
  BitVec.eq_of_toNat_eq ((coinDecrease_toNat v amount).trans h.symm)

/-- A change of one slot that is there sets its counter to the changed value (20_memory.md R64). -/
theorem modify_slot_eq_set {slots : List U32} {slot : Byte} {v v' : U32} {f : U32 → U32} (hv : slots[slot.toNat - 1]? = some v)
    (changed : f v = v') : slots.modify (slotIndex slot) f = slots.set (slot.toNat - 1) v' := by
  obtain ⟨inside, here⟩ := List.getElem?_eq_some_iff.1 hv
  rw [slotIndex, List.modify_eq_set_get _ inside, List.get_eq_getElem, here, changed]

theorem slot_le_length {slots : List U32} {slot : Byte} {v : U32} (first : 1 ≤ slot.toNat)
    (hv : slots[slot.toNat - 1]? = some v) : slot.toNat ≤ slots.length := by
  obtain ⟨inside, -⟩ := List.getElem?_eq_some_iff.1 hv
  omega

/-- Settles O12: the slot is there, so the checks pass, and Commit sets its counter to the saturated sum. -/
theorem coinincreaseAdds : Obligations.CoinincreaseAdds := by
  intro s w d slot amount n v v' hi cfg first limit hv sum
  have stored := slot_le_length first hv
  have answers := (answers_coinincrease hi slot amount).of_within cfg (by omega) (by omega)
  rw [modify_slot_eq_set hv (coinIncrease_eq sum)] at answers
  exact answers.commit_outcomes rfl rfl

/-- Settles O13: the slot is there, so the checks pass, and Commit sets its counter to the clamped difference. -/
theorem coindecreaseSubtracts : Obligations.CoindecreaseSubtracts := by
  intro s w d slot amount n v v' hi cfg first limit hv difference
  have stored := slot_le_length first hv
  have answers := (answers_coindecrease hi slot amount).of_within cfg (by omega) (by omega)
  rw [modify_slot_eq_set hv (coinDecrease_eq difference)] at answers
  exact answers.commit_outcomes rfl rfl

/-- Settles O14: a write at index 0 puts the data before what it does not reach. -/
theorem genericoutWrites : Obligations.GenericoutWrites := by
  intro s w d data n hi cfg limit stored
  have answers := (answers_genericout1 hi data).of_within cfg (Nat.not_lt.2 limit) (Nat.not_lt.2 stored)
  rw [memWrite_zero] at answers
  exact answers.commit_outcomes rfl (by omega)

/-- Settles O15: each of the five commands that use a buffer finds the request beyond a limit. -/
theorem overLimitReportsParameterError : Obligations.OverLimitReportsParameterError := by
  intro s w d i n size hi request
  rcases request with ⟨pl, b, rfl, rfl, cfg, limit⟩ | ⟨count, rfl, rfl, cfg, limit⟩ |
    ⟨slot, amount, rfl | rfl, rfl, cfg, limit⟩ | ⟨data, rfl, rfl, cfg, limit⟩
  · exact ((answers_readswitch hi pl b).of_beyond cfg limit).commit_outcomes rfl rfl
  · exact ((answers_readcoin hi count).of_beyond cfg limit).commit_outcomes rfl rfl
  · exact ((answers_coinincrease hi slot amount).of_beyond cfg (by omega)).commit_outcomes rfl rfl
  · exact ((answers_coindecrease hi slot amount).of_beyond cfg (by omega)).commit_outcomes rfl rfl
  · exact ((answers_genericout1 hi data).of_beyond cfg limit).commit_outcomes rfl (by omega)

/-- Settles O16: each of the six commands is Short where its operand is missing. -/
theorem missingArgumentsReportDataError : Obligations.MissingArgumentsReportDataError :=
  fun _ _ _ _ hi missing => (answers_missing_argument hi missing).short_outcomes

/-- Settles O17: each of the five commands that use a buffer finds it missing or, within the limits, too small. -/
theorem misconfigurationAborts : Obligations.MisconfigurationAborts := by
  intro s w d i hi request
  rcases request with ⟨pl, b, rfl, fault⟩ | ⟨count, rfl, fault⟩ | ⟨slot, amount, rfl | rfl, fault⟩ | ⟨data, rfl, fault⟩
  · exact (answers_readswitch hi pl b).of_misconfigured (fault.imp_right fun _ => by omega)
  · exact (answers_readcoin hi count).of_misconfigured (fault.imp_right fun _ => by omega)
  · exact (answers_coinincrease hi slot amount).of_misconfigured (fault.imp_right fun _ => by omega)
  · exact (answers_coindecrease hi slot amount).of_misconfigured (fault.imp_right fun _ => by omega)
  · exact (answers_genericout1 hi data).of_misconfigured
      (fault.imp_right fun ⟨limit, lacking⟩ => ⟨Nat.not_lt.2 limit, lacking⟩)

/-! ## The control commands (R150, R151, R162) -/

section
variable {s : State} {w : Walk} {d : Device} (hi : Interpreting s w d)
include hi

theorem answers_reset (literal : Option Byte) :
    s.Answers (.reset literal) (w.quiet, if literal = some RESET_ARG then deviceReset d else d) :=
  (runCommand_of hi _ : execReset literal s = _)

theorem answers_setaddr (a : Byte) : s.Answers (.setaddr (some a))
    (if d.nodeId ≠ ADDR_UNASSIGNED then (w.quiet, d)
      else if d.cfg.senseWired ∧ s.senseIn w.dev then (w.quiet, d)
      else if a.toNat < DEV_ADDR_MIN.toNat ∨ a.toNat > DEV_ADDR_MAX.toNat then commit [s.params.reports.dataError] 1 w d d
      else commit [REPORT_NORMAL] 1 w d { d with nodeId := a, senseOut := true }) :=
  (runCommand_of hi _ : execSetaddr (some a) s = _)

end

/-- Settles O18: the literal alone decides whether the board is reset. -/
theorem resetRestoresDefaults : Obligations.ResetRestoresDefaults := by
  refine fun s w d hi => ⟨answers_reset hi (some 0xD9), fun literal other => ?_⟩
  have answers := answers_reset hi literal
  rwa [if_neg (show literal ≠ some RESET_ARG from other)] at answers

/-- A board's sense input sees an unaddressed board exactly where one is next on the chain (60_exceptions.md R230). -/
theorem senseIn_iff {s : State} {j : Nat} :
    s.senseIn j = true ↔ ∃ next, s.devices[j + 1]? = some next ∧ next.senseOut = false := by
  rw [senseIn_eq, downstreamPending]
  cases s.devices[j + 1]? <;> simp

/-- Settles O19: the board acts, and what it commits depends on the address alone. -/
theorem setaddrClaimsAddress : Obligations.SetaddrClaimsAddress := by
  intro s w d a hi unassigned free
  have ready : ¬ (d.cfg.senseWired = true ∧ s.senseIn w.dev = true) := by
    rintro ⟨wired, sees⟩
    obtain ⟨next, hnext, waits⟩ := senseIn_iff.1 sees
    rcases free with notWired | addressed
    · simp [notWired] at wired
    · simp [addressed next hnext] at waits
  have answers := answers_setaddr hi a
  rw [if_neg (not_not.2 (show d.nodeId = ADDR_UNASSIGNED from unassigned)), if_neg ready] at answers
  by_cases illegal : a.toNat < DEV_ADDR_MIN.toNat ∨ a.toNat > DEV_ADDR_MAX.toNat
  · rw [if_pos illegal] at answers
    obtain ⟨fits, overflows⟩ := answers.commit_outcomes rfl rfl
    refine ⟨fun lo hi _ => ?_, fun _ => fits, overflows⟩
    exact absurd illegal (not_or.2 ⟨Nat.not_lt.2 lo, Nat.not_lt.2 hi⟩)
  · rw [if_neg illegal] at answers
    obtain ⟨fits, overflows⟩ := answers.commit_outcomes rfl rfl
    refine ⟨fun _ _ => fits, fun reserved _ => ?_, overflows⟩
    simp only [List.mem_cons, List.not_mem_nil, or_false] at reserved
    rcases reserved with rfl | rfl | rfl <;> exact absurd illegal (by decide)

/-- Settles O20: SETADDR looks at the board's address first, and then at its sense input. -/
theorem setaddrNotActedOn : Obligations.SetaddrNotActedOn := by
  intro s w d a hi idle
  have answers := answers_setaddr hi a
  by_cases addressed : d.nodeId ≠ ADDR_UNASSIGNED
  · rwa [if_pos addressed] at answers
  · obtain ⟨wired, waits⟩ := idle.resolve_left addressed
    rwa [if_neg addressed, if_pos ⟨wired, senseIn_iff.2 waits⟩] at answers

/-- Settles O21, by whether the board has sent a frame. -/
theorem dataretryAsksForLastFrame : Obligations.DataretryAsksForLastFrame := by
  intro s w d hi
  simp only [exec, execDataretry, runCommand_of hi]
  cases last : d.lastSent with
  | none => exact ⟨fun _ => rfl, nofun⟩
  | some b => exact ⟨nofun, fun _ => rfl⟩

end Sys2Proof.Machine
end

section
/-! The end of a frame and what starts one (41_interpreter.md R140 to R142, R146, R163): what Finish sends, and what a byte that
completes a frame does at a board. Both reply by `sendReply`, whose two outcomes are said once. -/

namespace Sys2Proof.Machine

/-! ## A board's Send and its reply (60_exceptions.md R219, R228) -/

/-- What each board still has to receive after board `i` sent `w`. -/
theorem bytesFor_sent (line : List (Nat × Byte)) (w : List Byte) {boards i j : Nat} (hj : j < boards) :
    bytesFor (line ++ deliveries boards (.device i) w []) j = bytesFor line j ++ (if j = i then [] else w) := by
  rw [bytesFor_append, bytesFor_deliveries]
  by_cases own : j = i
  · simp [own]
  · simp [hj, own, Ne.symm own]

theorem deviceSend_of_noChoice {s : State} (h : s.oracle.sends = []) (i : Nat) (w : List Byte) :
    deviceSend i w s = (true, { s with line := s.line ++ deliveries s.devices.length (.device i) w [],
                                       replies := s.replies ++ [w] }) := by
  rw [deviceSend, transmit_of_noChoice h]

theorem deviceSend_of_writeError {s : State} {rest : List SendChoice} (h : s.oracle.sends = .writeError :: rest) (i : Nat)
    (w : List Byte) : deviceSend i w s = (false, { s with oracle := { s.oracle with sends := rest } }) := by
  rw [deviceSend, transmit_of_writeError h]

theorem sendReply_of_noChoice {s : State} {i : Nat} {d : Device} {f : Frame} {w : List Byte} (hd : s.devices[i]? = some d)
    (encoded : encodeFrame f = some w) (h : s.oracle.sends = []) :
    sendReply i f s = .next { s with line := s.line ++ deliveries s.devices.length (.device i) w [],
                                     replies := s.replies ++ [w],
                                     devices := s.devices.set i { d with lastSent := some w } } := by
  simp only [sendReply, encoded, deviceSend_of_noChoice h, State.modifyDevice, modify_board_eq_set hd]

theorem sendReply_of_writeError {s : State} {i : Nat} {f : Frame} {w : List Byte} {rest : List SendChoice}
    (encoded : encodeFrame f = some w) (h : s.oracle.sends = .writeError :: rest) :
    sendReply i f s = .next { s with oracle := { s.oracle with sends := rest } } := by
  simp only [sendReply, encoded, deviceSend_of_writeError h]

/-- The bytes of a reply: to address 0x00, with the status (30_encoding.md R80). -/
theorem encodeFrame_reply (status : Byte) {resp : List Byte} (h : resp.length ≤ MAX_RESP) :
    encodeFrame (Frame.make ADDR_HOST (some status) resp) =
      some (wireOf (0x00 :: BitVec.ofNat 8 (resp.length + 1) :: status :: resp)) :=
  encodeFrame_of_le (f := Frame.make ADDR_HOST (some status) resp) (Nat.succ_le_succ h)

/-! ## Finish (41_interpreter.md R146) -/

theorem finishFrame_of_resend {s : State} {w : Walk} {d : Device} {b : List Byte} (hi : Interpreting s w d)
    (resend : w.resend = true) (last : d.lastSent = some b) :
    finishFrame w s = .next (deviceSend w.dev b { s with walk := none }).2 := by
  simp only [finishFrame, resend, if_true, hi.board, last]

theorem finishFrame_of_reply {s : State} {w : Walk} (resend : w.resend = false) (suppress : w.suppress = false)
    (warranted : w.warranted = true) :
    finishFrame w s = sendReply w.dev (Frame.make ADDR_HOST (some w.fstatus.code) w.resp) { s with walk := none } := by
  simp only [finishFrame, resend, suppress, warranted, if_true, Bool.false_eq_true, if_false]

theorem finishFrame_of_silent {s : State} {w : Walk} (resend : w.resend = false)
    (silent : w.suppress = true ∨ w.warranted = false) : finishFrame w s = .next { s with walk := none } := by
  simp only [finishFrame, resend, Bool.false_eq_true, if_false]
  rcases silent with suppressed | unwarranted
  · rw [if_pos suppressed]
  · rw [unwarranted, if_neg Bool.false_ne_true, ite_self]

/-- A reply is warranted by a response or by a status other than Normal. -/
theorem warranted_iff {w : Walk} : w.warranted = true ↔ w.resp ≠ [] ∨ w.fstatus ≠ .normal := by
  simp only [Walk.warranted, Bool.not_eq_true', Bool.and_eq_false_iff, beq_eq_false_iff_ne]

/-- Settles O22: Finish of a walk that asks for a resend is the board's Send of the frame it kept. -/
theorem finishResendsLastFrame : Obligations.FinishResendsLastFrame := by
  intro s w d b hi stop resend last
  rw [step_of_ended hi.walk (.inl stop), finishFrame_of_resend hi resend last]
  refine ⟨fun quiet => ⟨_, ?_, fun j hj => bytesFor_sent s.line b hj⟩, fun rest failing => ?_⟩
  · rw [deviceSend_of_noChoice (by exact quiet)]
  · rw [deviceSend_of_writeError (by exact failing)]

/-- Settles O23: Finish is a reply with the status and the response, which Encode accepts. -/
theorem finishSendsReply : Obligations.FinishSendsReply := by
  rintro s w d _ hi ended resend suppress reply fits rfl
  have encoded := encodeFrame_reply w.fstatus.code fits
  rw [step_of_ended hi.walk (ended.imp_right ge_of_eq), finishFrame_of_reply resend suppress (warranted_iff.2 reply)]
  refine ⟨fun quiet => ⟨_, sendReply_of_noChoice hi.board encoded quiet, fun j hj => bytesFor_sent s.line _ hj⟩,
    fun rest failing => sendReply_of_writeError encoded failing⟩

/-- Settles O24: neither reason to send is there. -/
theorem finishStaysSilent : Obligations.FinishStaysSilent := by
  intro s w hw ended resend silent
  rw [step_of_ended hw (ended.imp_right ge_of_eq)]
  refine finishFrame_of_silent resend (silent.imp_right fun empty => ?_)
  rw [Bool.eq_false_iff, Ne, warranted_iff]
  simpa [not_or] using empty

/-! ## An unrecognised code (R163) -/

theorem step_of_unrecognised {s : State} {w : Walk} {c : Byte} {args : List Byte} (hw : s.walk = some w) (going : w.stop = false)
    (cursor : w.payload.drop w.pos = c :: args) (other : c ∉ s.params.codes.toList) :
    step s = .next { s with walk := some w.unknown } := by
  have inside : w.pos < w.payload.length := by
    by_contra past
    rw [List.drop_eq_nil_of_le (by omega)] at cursor
    cases cursor
  simp only [step, hw, walkStep, running_iff.2 ⟨going, inside⟩, if_true, fetch, cursor, decode_of_not_mem_codes other,
    unrecognised]

/-- Settles O6: where the code is the frame's first, the next step is the Finish that reports the status with no response. -/
theorem stepAtUnrecognisedCode : Obligations.StepAtUnrecognisedCode := by
  intro s w c args _ hw going cursor other
  have first := step_of_unrecognised hw going cursor other
  refine ⟨first, fun start onChain quiet => ?_⟩
  have hi : Interpreting { s with walk := some w.unknown } w.unknown s.devices[w.dev] :=
    ⟨rfl, List.getElem?_eq_getElem onChain⟩
  have fresh : w.resp = [] ∧ w.suppress = false ∧ w.resend = false := by rw [start]; exact ⟨rfl, rfl, rfl⟩
  obtain ⟨empty, suppress, resend⟩ := fresh
  obtain ⟨line, second, -⟩ := (finishSendsReply _ w.unknown _ [0xE0, 0x00, 0x01, 0x02, 0x03] hi (.inl rfl) resend suppress
    (.inr nofun) (by simp [empty]) (by simp only [Walk.unknown_resp, Walk.unknown_fstatus, empty]; decide)).1 quiet
  exact ⟨_, stepsTo_two first second, rfl, rfl⟩

/-! ## A board's reception (R140 to R142) -/

/-- The bus `u` once board `j`, which was `d`, has heard the byte `b`. -/
def State.heard (u : State) (j : Nat) (d : Device) (b : Byte) : State :=
  { u with devices := u.devices.set j { d with rx := (d.rx.step b).1 } }

/-- Taking the byte moves neither the boards, the oracle nor the replies. -/
theorem State.Hears.keeps {s u : State} {j : Nat} {b : Byte} (h : s.Hears j b u) :
    u.devices = s.devices ∧ u.oracle = s.oracle ∧ u.replies = s.replies := by
  rw [h.bus.2]
  exact ⟨rfl, rfl, rfl⟩

theorem State.Hears.step_of_event {s u : State} {j : Nat} {b : Byte} {d : Device} {e : RxEvent} (h : s.Hears j b u)
    (hd : s.devices[j]? = some d) (event : (d.rx.step b).2 = some e) : Machine.step s = deviceEvent j d e (u.heard j d b) := by
  simp only [h.step, deviceByte, h.keeps.1, hd, event, State.heard]

theorem State.Hears.step_of_quiet {s u : State} {j : Nat} {b : Byte} {d : Device} (h : s.Hears j b u)
    (hd : s.devices[j]? = some d) (event : (d.rx.step b).2 = none) : Machine.step s = .next (u.heard j d b) := by
  simp only [h.step, deviceByte, h.keeps.1, hd, event, State.heard]

theorem State.Hears.heard_eq {s u : State} {j : Nat} {b : Byte} (h : s.Hears j b u) (d : Device) :
    u.heard j d b = { u with devices := s.devices.set j { d with rx := (d.rx.step b).1 } } := by
  rw [State.heard, h.keeps.1]

/-- Settles O45: the step is the Frame event at the board, which the address filter passes or drops. -/
theorem addressFilter : Obligations.AddressFilter := by
  intro s u j b d f hears hd event
  rw [hears.step_of_event hd event, hears.heard_eq, deviceEvent]
  refine ⟨fun ours => if_pos (accepts_iff.2 ours), fun other notBroadcast => if_neg ?_⟩
  rw [accepts_iff]
  exact not_or.2 ⟨other, notBroadcast⟩

/-- Settles O46: the answer to a mismatch is a reply with status ChecksumError and no payload. -/
theorem badFramesAtABoard : Obligations.BadFramesAtABoard := by
  intro s u j b d hears hd
  obtain ⟨devices, oracle, replies⟩ := hears.keeps
  refine ⟨fun event => ?_, fun unanswered => ?_⟩
  · have encoded : encodeFrame (Frame.make ADDR_HOST (some (Status.code .checksumError)) []) =
      some [0xE0, 0x00, 0x01, 0x03, 0x04] := by decide
    rw [hears.step_of_event hd event, hears.heard_eq, deviceEvent, if_pos rfl]
    refine ⟨fun quiet => ⟨_, ?_, fun k hk => bytesFor_sent u.line _ hk⟩, fun rest failing => ?_⟩
    · have here : (s.devices.set j { d with rx := (d.rx.step b).1 })[j]? = some { d with rx := (d.rx.step b).1 } := by
        rw [getElem?_set_board hd hd, if_pos rfl]
      rw [sendReply_of_noChoice (by exact here) encoded (by rw [← quiet, ← oracle])]
      simp only [List.set_set, List.length_set, replies]
    · rw [sendReply_of_writeError encoded (by rw [← failing, ← oracle])]
      simp only [oracle]
  · rw [← hears.heard_eq]
    rcases unanswered with ⟨a, event, other⟩ | ⟨reason, event⟩ | event
    · rw [hears.step_of_event hd event, deviceEvent, if_neg other]
    · rw [hears.step_of_event hd event, deviceEvent]
    · exact hears.step_of_quiet hd event

end Sys2Proof.Machine
end

section
/-! Query records what a board reports (42_link_manager.md R193 to R195): a board's feature list is read back whole, a malformed
list is found in the group where it breaks, and the record takes the place of the board's entry in the directory. -/

namespace Sys2Proof.Machine

/-! ## Features on the wire and in the host's record (R194) -/

/-- A feature as the host records it: its parameters as they stand on the wire. -/
def Feature.asReported (g : Feature) : Feature := ⟨g.featureType, bcd g.p1.toNat, bcd g.p2.toNat, bcd g.p3.toNat⟩

theorem Feature.type_ne_end_of_wf {g : Feature} (h : g.wf = true) : g.featureType ≠ .end_ := by
  simp only [Feature.wf, Bool.and_eq_true, bne_iff_ne] at h
  exact h.1.1.1

theorem parseFeatures_end (rest : List Byte) : parseFeatures (0x00 :: rest) = some [] := by
  rw [parseFeatures.eq_def]
  exact if_pos rfl

/-- A list whose first group is whole and of a known type. -/
theorem parseFeatures_group {t p1 p2 p3 : Byte} {ft : FeatureType} {more : List Byte} {fs : List Feature} (ht : t ≠ 0x00)
    (known : featureOfCode t = some ft) (hmore : parseFeatures more = some fs) :
    parseFeatures (t :: p1 :: p2 :: p3 :: more) = some (⟨ft, p1, p2, p3⟩ :: fs) := by
  rw [parseFeatures.eq_def]
  simp only [if_neg ht, known, hmore]

/-- What a board with admitted features sends is read back whole, whatever follows its End byte. -/
theorem parseFeatures_featureListBytes {fs : List Feature} (h : ∀ g ∈ fs, g.wf = true) (extra : List Byte) :
    parseFeatures (featureListBytes fs ++ extra) = some (fs.map Feature.asReported) := by
  induction fs with
  | nil => exact parseFeatures_end extra
  | cons g fs ih =>
    obtain ⟨known, code⟩ := featureOfCode_featureCode (Feature.type_ne_end_of_wf (h g List.mem_cons_self))
    rw [featureListBytes_cons, List.append_assoc]
    exact parseFeatures_group code known (ih fun x hx => h x (List.mem_cons_of_mem _ hx))

theorem featureOfCode_eq_none {x : Byte} (unknown : ∀ ty, featureCode ty ≠ x) : featureOfCode x = none := by
  refine List.find?_eq_none.2 fun ty _ => ?_
  simpa using unknown ty

/-- The group at offset `4 * k`, the first `k` types not being End, is missing, cut or of no feature's type. -/
def BreaksAt (l : List Byte) (k : Nat) : Prop :=
  (∀ m, m < k → l[4 * m]? ≠ some 0x00) ∧
    (l.length ≤ 4 * k ∨ ∃ x, l[4 * k]? = some x ∧ x ≠ 0x00 ∧ (l.length ≤ 4 * k + 3 ∨ ∀ ty, featureCode ty ≠ x))

/-- After a whole group, the next one is the first of what remains. -/
theorem BreaksAt.tail {t p1 p2 p3 : Byte} {more : List Byte} {k : Nat} (h : BreaksAt (t :: p1 :: p2 :: p3 :: more) (k + 1)) :
    BreaksAt more k := by
  have shift (m : Nat) : (t :: p1 :: p2 :: p3 :: more)[4 * (m + 1)]? = more[4 * m]? := by
    rw [Nat.mul_succ]
    rfl
  obtain ⟨earlier, last⟩ := h
  refine ⟨fun m hm => shift m ▸ earlier (m + 1) (Nat.succ_lt_succ hm), ?_⟩
  simp only [shift, List.length_cons] at last
  exact last.imp (by omega) fun ⟨x, hx, notEnd, bad⟩ => ⟨x, hx, notEnd, bad.imp_left (by omega)⟩

/-- A list that breaks in some group has no reading. -/
theorem parseFeatures_of_breaksAt {l : List Byte} {k : Nat} (h : BreaksAt l k) : parseFeatures l = none := by
  induction k generalizing l with
  | zero =>
    obtain ⟨-, short | ⟨x, hx, notEnd, bad⟩⟩ := h
    · rw [List.length_eq_zero_iff.1 (Nat.le_zero.1 short)]
      rfl
    · match l, hx with
      | [a], hx | [a, b], hx | [a, b, c], hx =>
        obtain rfl : a = x := by simpa using hx
        rw [parseFeatures.eq_def]
        exact if_neg notEnd
      | a :: b :: c :: d :: more, hx =>
        obtain rfl : a = x := by simpa using hx
        have unknown := featureOfCode_eq_none (bad.resolve_left (by simp))
        rw [parseFeatures.eq_def]
        simp only [if_neg notEnd, unknown]
  | succ k ih =>
    have first : l[0]? ≠ some 0x00 := h.1 0 (Nat.succ_pos k)
    match l with
    | [] => rfl
    | [a] | [a, b] | [a, b, c] =>
      rw [parseFeatures.eq_def]
      exact if_neg (by simpa using first)
    | a :: b :: c :: d :: more =>
      rw [parseFeatures.eq_def]
      simp only [if_neg (show a ≠ 0x00 by simpa using first), ih h.tail]
      cases featureOfCode a <;> rfl

/-! ## The reply to the version request (R193) -/

/-- A reply the host refuses as malformed (R193, R194). -/
def MalformedInfo (f : Frame) : Prop :=
  f.statusCode ≠ some 0x01 ∨ f.payload.length < 8 ∨ f.payload[0]? ≠ some 0x01 ∨ f.payload[2]? ≠ some 0x01 ∨
    f.payload[4]? ≠ some 0x01 ∨ f.payload[6]? ≠ some 0x01 ∨ ∃ k, BreaksAt (f.payload.drop 7) k

theorem parseInfo_of_reported {node a sum : Byte} {identity extra : List Byte} {c : DevConfig} (h : c.wf = true) :
    parseInfo node identity ⟨a, some 0x01, [0x01, c.cmdVersion, 0x01, c.jvsVersion, 0x01, c.commVersion, 0x01] ++
        featureListBytes c.features ++ extra, sum⟩ =
      some ⟨node, identity, c.cmdVersion, c.jvsVersion, c.commVersion, c.features.map Feature.asReported⟩ := by
  have features := parseFeatures_featureListBytes (fun g hg => DevConfig.feature_wf h hg) extra
  simp only [parseInfo, List.cons_append, List.nil_append, features]
  exact if_pos ⟨rfl, rfl, rfl, rfl, rfl⟩

theorem parseInfo_of_malformed {node : Byte} {identity : List Byte} {f : Frame} (h : MalformedInfo f) :
    parseInfo node identity f = none := by
  unfold parseInfo
  split
  · rename_i r0 cmd r2 jvs r4 comm r6 rest payload
    split
    · rename_i normal
      obtain ⟨status, rfl, rfl, rfl, rfl⟩ := normal
      have broken : parseFeatures rest = none := by
        simp only [MalformedInfo, status, payload] at h
        rcases h with h | h | h | h | h | h | ⟨k, h⟩
        · exact absurd rfl h
        · simp only [List.length_cons] at h
          rw [List.length_eq_zero_iff.1 (show rest.length = 0 by omega)]
          rfl
        · exact absurd rfl h
        · exact absurd rfl h
        · exact absurd rfl h
        · exact absurd rfl h
        · exact parseFeatures_of_breaksAt h
      rw [broken]
    · rfl
  · rfl

/-! ## The directory (R195) -/

theorem directoryGet_cons (n m : Byte) (b : BoardInfo) (dir : List (Byte × BoardInfo)) :
    directoryGet n ((m, b) :: dir) = if m = n then some b else directoryGet n dir := by
  by_cases here : m = n
  · simp [directoryGet, here]
  · simp [directoryGet, here]

/-- The record stands under its node, and every other entry stays. -/
theorem directoryGet_directoryInsert (n m : Byte) (b : BoardInfo) (dir : List (Byte × BoardInfo)) :
    directoryGet m (directoryInsert n b dir) = if n = m then some b else directoryGet m dir := by
  induction dir with
  | nil => rw [directoryInsert, directoryGet_cons]
  | cons e rest ih =>
    obtain ⟨k, c⟩ := e
    rw [directoryInsert]
    split
    · rw [directoryGet_cons]
    · split
      · rename_i same
        subst same
        rw [directoryGet_cons, directoryGet_cons]
        split <;> rfl
      · rename_i other
        rw [directoryGet_cons, directoryGet_cons, ih]
        split
        · rename_i here
          rw [if_neg (by rw [← here]; exact other)]
        · rfl

/-! ## Query going on (R193 to R195) -/

theorem resume_queryInfo_of_some {node : Byte} {identity : List Byte} {f : Frame} {b : BoardInfo} {s : State} (ts : List Task)
    (h : parseInfo node identity f = some b) :
    resume (.queryInfo node identity :: ts) (.reply f) s = resume ts (.board b)
      { s with host := { s.host with directory := directoryInsert node b s.host.directory } } := by
  rw [resume]
  simp only [h]

theorem resume_queryInfo_of_none {node : Byte} {identity : List Byte} {f : Frame} {s : State} (ts : List Task)
    (h : parseInfo node identity f = none) :
    resume (.queryInfo node identity :: ts) (.reply f) s = resume ts (.error (.framing .malformedReply)) s := by
  rw [resume]
  simp only [h]

theorem resume_queryInfo_of_error (node : Byte) (identity : List Byte) (e : HostError) (s : State) (ts : List Task) :
    resume (.queryInfo node identity :: ts) (.error e) s = resume ts (.error e) s := by
  rw [resume]

/-- Settles O57: the reply a board builds has a reading, whose record is inserted; a malformed one has none. -/
theorem queryRecordsWhatABoardReports : Obligations.QueryRecordsWhatABoardReports := by
  refine ⟨fun s c node identity extra a sum ts wf => ?_, fun s node identity f ts malformed => ?_,
    fun s node identity e ts => resume_queryInfo_of_error node identity e s ts⟩
  · refine ⟨_, _, resume_queryInfo_of_some ts (parseInfo_of_reported wf), rfl, rfl, rfl, rfl, rfl, rfl, ?_, fun m other => ?_⟩
    · rw [directoryGet_directoryInsert, if_pos rfl]
    · rw [directoryGet_directoryInsert, if_neg (Ne.symm other)]
  · refine resume_queryInfo_of_none ts (parseInfo_of_malformed ?_)
    refine malformed.imp_right (.imp_right (.imp_right (.imp_right (.imp_right (.imp_right ?_)))))
    rintro ⟨k, earlier, last⟩
    refine ⟨k, fun m hm => List.getElem?_drop ▸ earlier m hm, ?_⟩
    rw [List.length_drop, List.getElem?_drop]
    exact last.imp (by omega) fun ⟨x, hx, notEnd, bad⟩ => ⟨x, hx, notEnd, bad.imp_left (by omega)⟩

end Sys2Proof.Machine
end

section
/-! The host's operations step by step (42_link_manager.md R181, R198, R219): which of its steps the bus takes, what a Send of the
host does where the transport takes it or fails, and from these Open, Close and Reset. -/

namespace Sys2Proof.Machine

/-! ## Which step the bus takes -/

/-- With no frame and no input, the step is the agents' own. -/
theorem State.OnlyHost.step {s : State} (h : s.OnlyHost) : Machine.step s = agentStep s := by
  simp only [Machine.step, h.walk, busStep, h.inputs]

theorem State.OnlyHost.step_settle {s : State} (h : s.OnlyHost) (phase : s.host.phase = .settle) :
    Machine.step s = secondReset s := by
  simp only [h.step, agentStep, h.line, phase]

theorem State.OnlyHost.step_resetDrain {s : State} (h : s.OnlyHost) (phase : s.host.phase = .resetDrain) :
    Machine.step s = finishReset s := by
  simp only [h.step, agentStep, h.line, phase]

theorem State.OnlyHost.step_waiting {s : State} (h : s.OnlyHost) (phase : s.host.phase = .waiting) :
    Machine.step s = endWait s := by
  simp only [h.step, agentStep, h.line, phase]

theorem State.OnlyHost.step_resentDrain {s : State} (h : s.OnlyHost) (phase : s.host.phase = .resentDrain) :
    Machine.step s = endResent s := by
  simp only [h.step, agentStep, h.line, phase]

theorem onLink_of_open {s : State} (h : s.host.linkOpen = true) (r : Host.Outcome State Fault Refusal) : onLink s r = r :=
  if_pos h

theorem onLink_of_closed {s : State} (h : s.host.linkOpen = false) (r : Host.Outcome State Fault Refusal) :
    onLink s r = .next (hostReturn (.error .closed) s) := if_neg (by simp [h])

/-- A call that checks the phase and the link runs its operation on an idle host with an open link (R198, R199). -/
theorem State.Takes.step_onLink {s : State} {op : HostOp} {rest : List Input} (h : s.Takes (.call .host op) rest)
    (run : State → Host.Outcome State Fault Refusal) (checks : ∀ u, hostCall op u = whenIdle u (onLink u (run u)))
    (idle : s.host.phase = .idle) (isOpen : s.host.linkOpen = true) : Machine.step s = run { s with inputs := rest } := by
  rw [h.step_call, checks, whenIdle_of_idle (by exact idle), onLink_of_open (by exact isOpen)]

/-! ## Returning to the caller -/

/-- An operation that ends in the step that called it leaves the phase as it was. -/
theorem hostReturn_of_idle {s : State} (idle : s.host.phase = .idle) (r : HostResult) :
    hostReturn r s = { s with host := { s.host with tasks := [], result := some r } } := by
  simp only [hostReturn, idle]

/-- A result that no operation waits for goes to the caller. -/
theorem resume_nil_eq (r : HostResult) (s : State) : resume [] r s = .next (hostReturn r s) := by
  rw [resume]

/-! ## The host's Send (60_exceptions.md R226, R228) -/

/-- Every board still has to receive what the host sent. -/
theorem bytesFor_hostSent (line : List (Nat × Byte)) (w : List Byte) {boards j : Nat} (hj : j < boards) :
    bytesFor (line ++ deliveries boards .host w []) j = bytesFor line j ++ w := by
  rw [bytesFor_append, bytesFor_deliveries, if_pos ⟨hj, nofun⟩]

/-- The bytes of a frame from the host: no status (30_encoding.md R80). -/
theorem encodeFrame_request {f : Frame} (status : f.statusCode = none) (fits : f.payload.length ≤ MAX_LEN) :
    encodeFrame f = some (wireOf (f.nodeAddress :: BitVec.ofNat 8 f.payload.length :: f.payload)) := by
  have counted : f.lengthByte = f.payload.length := by simp [Frame.lengthByte, status]
  rw [encodeFrame_of_le (counted ▸ fits), wireOf, Frame.body, counted, status]
  rfl

/-! ## Open and Close (R198) -/

theorem openLink_of_success {s : State} (closed : s.host.linkOpen = false)
    (succeeds : s.oracle.opens = [] ∨ s.oracle.opens.head? = some true) (mode : SenseMode) :
    openLink mode s = .next (hostReturn .done { s with
      oracle := { s.oracle with opens := s.oracle.opens.tail }
      host := { s.host with senseMode := mode, linkOpen := true, assignedCount := 0, lastSent := none,
                            mismatchPending := false, directory := [] } }) := by
  have opened : s.oracle.opens.head?.getD true = true := by
    rcases succeeds with empty | yes
    · rw [empty]; rfl
    · rw [yes]; rfl
  simp only [openLink, closed, opened, if_true, Bool.false_eq_true, if_false]

theorem openLink_of_failure {s : State} (closed : s.host.linkOpen = false) (fails : s.oracle.opens.head? = some false)
    (mode : SenseMode) :
    openLink mode s = .next (hostReturn (.error .openError)
      { s with oracle := { s.oracle with opens := s.oracle.opens.tail } }) := by
  simp only [openLink, closed, fails, Option.getD_some, Bool.false_eq_true, if_false]

/-- Settles O48: the host is idle, so Open runs, and the transport's answer alone decides which way it ends. -/
theorem openStartsASession : Obligations.OpenStartsASession := by
  intro s rest port baud mode h idle closed
  have run : step s = openLink mode { s with inputs := rest } := h.step_call.trans (whenIdle_of_idle idle _)
  refine ⟨fun succeeds => ?_, fun fails => ?_⟩
  · rw [run, openLink_of_success (by exact closed) (by exact succeeds), hostReturn_of_idle (by exact idle)]
  · rw [run, openLink_of_failure (by exact closed) (by exact fails), hostReturn_of_idle (by exact idle)]

/-- On a closed link an Exchange that is no caller error returns Closed. -/
theorem startExchange_of_closed {f : Frame} {s : State} (closed : s.host.linkOpen = false) (status : f.statusCode = none)
    (fits : f.payload.length ≤ MAX_LEN) (ts : List Task) :
    startExchange f ts s = .next (hostReturn (.error .closed) s) := by
  simp only [startExchange, status, encodeFrame_request status fits, closed, Option.isSome_none, Bool.false_eq_true, if_false]

/-- On a closed link every operation but Open and Close that is no caller error returns Closed (60_exceptions.md R220). -/
theorem hostCall_of_closed {s : State} {op : HostOp} (idle : s.host.phase = .idle) (closed : s.host.linkOpen = false)
    (notClose : op ≠ .close) (notOpen : ∀ port baud mode, op ≠ .open_ port baud mode)
    (legal : ∀ f, op = .exchange f ∨ op = .exchangeRetry f → f.statusCode = none ∧ f.payload.length ≤ MAX_LEN) :
    hostCall op s = .next (hostReturn (.error .closed) s) := by
  cases op with
  | close => exact absurd rfl notClose
  | open_ port baud mode => exact absurd rfl (notOpen port baud mode)
  | exchange f =>
    obtain ⟨status, fits⟩ := legal f (.inl rfl)
    exact (whenIdle_of_idle idle _).trans (startExchange_of_closed closed status fits [])
  | exchangeRetry f =>
    obtain ⟨status, fits⟩ := legal f (.inr rfl)
    exact (whenIdle_of_idle idle _).trans (startExchange_of_closed closed status fits [.retry f])
  | reset | enumerate | query | connect | send =>
    exact (whenIdle_of_idle idle _).trans (onLink_of_closed closed _)

/-- Settles O49: Close looks at the phase alone, and an operation on a closed link fails its check of the link. -/
theorem closeAndClosedLink : Obligations.CloseAndClosedLink := by
  intro s rest
  refine ⟨fun h busy => ?_, fun h idle => ?_, fun op h idle closed notClose notOpen legal => ?_⟩
  · rw [h.step_call, hostCall, closeLink, if_neg (by exact busy)]
    rfl
  · rw [h.step_call, hostCall, closeLink, if_pos (by exact idle), hostReturn_of_idle (by exact idle)]
  · rw [h.step_call, hostCall_of_closed (by exact idle) (by exact closed) notClose notOpen legal,
      hostReturn_of_idle (by exact idle)]

/-! ## Reset (R181) -/

/-- The wire bytes of Reset's frame: E0 FF 02 F0 D9 CA where RESET has its default code. -/
theorem encodeFrame_resetFrame (c : CodeTable) :
    encodeFrame (resetFrame c) = some (wireOf [ADDR_BCAST, 0x02, c.reset, RESET_ARG]) :=
  encodeFrame_request (f := resetFrame c) rfl (show 2 ≤ MAX_LEN by decide)

theorem wireOf_reset_standard : wireOf [ADDR_BCAST, 0x02, CodeTable.standard.reset, RESET_ARG] =
    [0xE0, 0xFF, 0x02, 0xF0, 0xD9, 0xCA] := by decide

/-- Reset's frame reaches every board and the host settles, for the operations that wait for it. -/
theorem startReset_sends {s : State} (noChoice : s.oracle.sends = []) (codes : s.params.codes = .standard) (ts : List Task) :
    ∃ line, startReset ts s = .next { s with line := line, host := { s.host with phase := .settle, tasks := ts } } ∧
      ∀ j, j < s.devices.length → bytesFor line j = bytesFor s.line j ++ [0xE0, 0xFF, 0x02, 0xF0, 0xD9, 0xCA] := by
  simp only [startReset, codes, encodeFrame_resetFrame, wireOf_reset_standard, transmit_of_noChoice noChoice]
  exact ⟨_, rfl, fun j hj => bytesFor_hostSent s.line _ hj⟩

theorem startReset_of_writeError {s : State} {sends : List SendChoice} (failing : s.oracle.sends = .writeError :: sends)
    (ts : List Task) :
    startReset ts s = .next (hostReturn (.error .writeError) { s with oracle := { s.oracle with sends := sends } }) := by
  simp only [startReset, encodeFrame_resetFrame, transmit_of_writeError failing]

theorem secondReset_sends {s : State} (noChoice : s.oracle.sends = []) (codes : s.params.codes = .standard) :
    ∃ line, secondReset s = .next { s with line := line, host := { s.host with phase := .resetDrain } } ∧
      ∀ j, j < s.devices.length → bytesFor line j = bytesFor s.line j ++ [0xE0, 0xFF, 0x02, 0xF0, 0xD9, 0xCA] := by
  simp only [secondReset, codes, encodeFrame_resetFrame, wireOf_reset_standard, transmit_of_noChoice noChoice]
  exact ⟨_, rfl, fun j hj => bytesFor_hostSent s.line _ hj⟩

theorem secondReset_of_writeError {s : State} {sends : List SendChoice} (failing : s.oracle.sends = .writeError :: sends) :
    secondReset s = .next (hostReturn (.error .writeError) { s with oracle := { s.oracle with sends := sends } }) := by
  simp only [secondReset, encodeFrame_resetFrame, transmit_of_writeError failing]

/-- Settles O50: each send is one Send of the reset frame, and what follows the second is `finishReset`. -/
theorem hostResetSendsTwice : Obligations.HostResetSendsTwice := by
  refine ⟨fun s rest h idle isOpen noChoice codes => ?first, fun s only phase noChoice codes => ?second,
    fun s only phase => only.step_resetDrain phase, fun s only phase alone => ?ends,
    fun s rest sends h idle isOpen failing => ?firstFails, fun s sends only phase failing => ?secondFails⟩
  case first =>
    rw [h.step_onLink (startReset []) (fun _ => rfl) idle isOpen]
    exact startReset_sends (s := { s with inputs := rest }) noChoice codes []
  case second =>
    rw [only.step_settle phase]
    simpa only [only.line, bytesFor_nil, List.nil_append] using secondReset_sends noChoice codes
  case ends =>
    rw [only.step_resetDrain phase, finishReset, alone, resume_nil_eq]
    rfl
  case firstFails =>
    rw [h.step_onLink (startReset []) (fun _ => rfl) idle isOpen, startReset_of_writeError (by exact failing),
      hostReturn_of_idle (by exact idle)]
  case secondFails =>
    rw [only.step_settle phase, secondReset_of_writeError failing]
    rfl

end Sys2Proof.Machine
end

section
/-! Exchange (42_link_manager.md R182 to R186): the send, the wait and its bytes, the classification of what they bring, the resend
and the retry. -/

namespace Sys2Proof.Machine

/-! ## The send (R182) -/

theorem startExchange_of_writeError {f : Frame} {s : State} {sends : List SendChoice} (isOpen : s.host.linkOpen = true)
    (status : f.statusCode = none) (fits : f.payload.length ≤ MAX_LEN) (failing : s.oracle.sends = .writeError :: sends)
    (ts : List Task) :
    startExchange f ts s = .next (hostReturn (.error .writeError) { s with
      replies := []
      oracle := { s.oracle with sends := sends }
      host := { s.host with rx := s.host.rx.reset, mismatchPending := false } }) := by
  simp only [startExchange, status, encodeFrame_request status fits, isOpen, if_true, Option.isSome_none, Bool.false_eq_true,
    if_false]
  rw [transmit_of_writeError (by exact failing)]

/-- Settles O51: an idle host with an open link runs the first step of Exchange. -/
theorem exchangeSendsAndWaits : Obligations.ExchangeSendsAndWaits := by
  intro s rest f h idle isOpen status fits
  have run : step s = startExchange f [] { s with inputs := rest } := h.step_call.trans (whenIdle_of_idle idle _)
  refine ⟨fun noChoice => ?_, fun sends failing => ?_⟩
  · obtain ⟨t, next, exchanging⟩ :=
      startExchange_sends (s := { s with inputs := rest }) (ts := []) isOpen status fits noChoice
    exact ⟨t.line, run.trans (next.trans (congrArg _ exchanging.next)), exchanging.sent⟩
  · rw [run, startExchange_of_writeError (by exact isOpen) status fits (by exact failing)]
    rfl

/-! ## The wait (R183) -/

/-- The end of a wait leaves the host alone; it takes an answer from the oracle's waits, none from its sends. -/
theorem WaitEnds.keeps {s t : State} {b : List Byte} (h : WaitEnds s b t) :
    t.host = s.host ∧ t.devices = s.devices ∧ t.line = s.line ∧ t.replies = [] ∧ t.oracle.sends = s.oracle.sends := by
  obtain ⟨now, n, later, -, -, rfl⟩ := h
  exact ⟨rfl, rfl, rfl, rfl, rfl⟩

/-- The step that ends a wait works on the bytes it gave. -/
theorem WaitEnds.step {s t : State} {b : List Byte} (h : WaitEnds s b t) (only : s.OnlyHost) (phase : s.host.phase = .waiting) :
    Machine.step s = hostReceive b t := by
  rw [only.step_waiting phase, endWait, h.receive]

theorem hostReceive_of_short {b : List Byte} (nonempty : 0 < b.length) (short : b.length < MIN_REPLY_BYTES) (s : State) :
    hostReceive b s = endExchange (.error .timeout) s := by
  rw [hostReceive, if_neg (Nat.pos_iff_ne_zero.1 nonempty), if_pos short]

theorem hostReceive_of_quiet {b : List Byte} {s : State} {rx : Receiver} (enough : MIN_REPLY_BYTES ≤ b.length)
    (quiet : s.host.rx.feed b = (rx, none)) :
    hostReceive b s = endExchange (.error .timeout) { s with host := { s.host with rx := rx } } := by
  have nonempty : 0 < b.length := Nat.lt_of_lt_of_le (by decide) enough
  rw [hostReceive, if_neg (Nat.pos_iff_ne_zero.1 nonempty), if_neg (Nat.not_lt.2 enough), quiet]

theorem hostReceive_of_event {b : List Byte} {s : State} {rx : Receiver} {e : RxEvent} (enough : MIN_REPLY_BYTES ≤ b.length)
    (event : s.host.rx.feed b = (rx, some e)) :
    hostReceive b s = classify e { s with host := { s.host with rx := rx } } := by
  have nonempty : 0 < b.length := Nat.lt_of_lt_of_le (by decide) enough
  rw [hostReceive, if_neg (Nat.pos_iff_ne_zero.1 nonempty), if_neg (Nat.not_lt.2 enough), event]

/-- Settles O52: what the wait gave is too short, or brings the Receiver to no event. -/
theorem waitWithoutAReply : Obligations.WaitWithoutAReply := by
  intro s only phase
  refine ⟨⟨_, _, receiveReplies_waitEnds s⟩, fun b t ends => ?_⟩
  have run := ends.step only phase
  have host := ends.keeps.1
  refine ⟨?_, fun nonempty short => ?_, fun enough quiet => ?_⟩
  · rintro rfl
    rw [run, ← host]
    rfl
  · rw [run, hostReceive_of_short nonempty short, endExchange, host]
  · have fed : t.host.rx.feed b = ((s.host.rx.feed b).1, none) := by rw [host, ← quiet]
    rw [run, hostReceive_of_quiet enough fed, endExchange, host]

/-! ## Classification (R184) -/

/-- The events that are a checksum failure, on either side (R185). -/
def RxEvent.checksumFails : RxEvent → Prop
  | .checksumMismatch _ => True
  | .frame r => r.statusCode = some (Status.code .checksumError)
  | .framingError _ => False

/-- The address that the host parsed of a frame whose checksum failed; a board's report tells none (R213). -/
def RxEvent.parsedAddress : RxEvent → Option Byte
  | .checksumMismatch a => some a
  | _ => none

theorem classify_of_checksumFails {e : RxEvent} (h : e.checksumFails) (s : State) :
    classify e s = resendPath e.parsedAddress s := by
  cases e with
  | frame r => exact if_pos h
  | checksumMismatch a => rfl
  | framingError reason => exact h.elim

theorem classify_of_overflow {r : Frame} (h : r.statusCode = some (Status.code .overflow)) (s : State) :
    classify (.frame r) s = endExchange (.error .overflow) s := by
  rw [classify, if_neg (by rw [h]; decide), if_pos h]

theorem classify_of_reply {r : Frame} (noMismatch : r.statusCode ≠ some (Status.code .checksumError))
    (noOverflow : r.statusCode ≠ some (Status.code .overflow)) (s : State) :
    classify (.frame r) s = endExchange (.reply r) s := by
  rw [classify, if_neg noMismatch, if_neg noOverflow]

/-- With enough bytes and a Receiver event, the step that ends the wait classifies the event. -/
theorem WaitEnds.step_classify {s t : State} {b : List Byte} {rx : Receiver} {e : RxEvent} (h : WaitEnds s b t)
    (only : s.OnlyHost) (phase : s.host.phase = .waiting) (enough : MIN_REPLY_BYTES ≤ b.length)
    (event : s.host.rx.feed b = (rx, some e)) :
    Machine.step s = classify e { t with host := { s.host with rx := rx } } := by
  have host := h.keeps.1
  rw [h.step only phase, hostReceive_of_event enough (by rw [host, event]), host]

/-- Settles O53: every event but a checksum failure ends the Exchange. -/
theorem replyClassification : Obligations.ReplyClassification := by
  intro s t b rx e only phase ends enough event
  have run := ends.step_classify only phase enough event
  refine ⟨?_, ?_, ?_⟩
  · rintro f rfl noMismatch noOverflow
    rw [run, classify_of_reply noMismatch noOverflow, endExchange]
  · rintro f rfl overflow
    rw [run, classify_of_overflow overflow, endExchange]
  · rintro reason rfl
    rw [run, classify, endExchange]

/-! ## The resend (R185) -/

/-- The kept frame reaches every board once more, and the mismatch is marked. -/
theorem resendPath_sends {s : State} {f : Frame} (fresh : s.host.mismatchPending = false) (kept : s.host.lastSent = some f)
    (status : f.statusCode = none) (fits : f.payload.length ≤ MAX_LEN) (noChoice : s.oracle.sends = []) (o : Option Byte) :
    ∃ line, resendPath o s = .next { s with
        line := line
        host := { s.host with mismatchPending := true, phase := .resentDrain } } ∧
      ∀ j, j < s.devices.length → bytesFor line j = bytesFor s.line j ++
        wireOf (f.nodeAddress :: BitVec.ofNat 8 f.payload.length :: f.payload) := by
  simp only [resendPath, fresh, kept, encodeFrame_request status fits, transmit_of_noChoice noChoice, Bool.false_eq_true,
    if_false]
  exact ⟨_, rfl, fun j hj => bytesFor_hostSent s.line _ hj⟩

theorem resendPath_of_writeError {s : State} {f : Frame} {sends : List SendChoice} (fresh : s.host.mismatchPending = false)
    (kept : s.host.lastSent = some f) (status : f.statusCode = none) (fits : f.payload.length ≤ MAX_LEN)
    (failing : s.oracle.sends = .writeError :: sends) (o : Option Byte) :
    resendPath o s = .next (hostReturn (.error .writeError) { s with oracle := { s.oracle with sends := sends } }) := by
  simp only [resendPath, fresh, kept, encodeFrame_request status fits, transmit_of_writeError failing, Bool.false_eq_true,
    if_false]

theorem resendPath_of_pending {s : State} (pending : s.host.mismatchPending = true) (o : Option Byte) :
    resendPath o s = raiseMismatch o s := if_pos pending

/-- Settles O54: a checksum failure is the resend path, which the mismatch mark sends one way or the other; the end of a resend
drops the bytes of its wait. -/
theorem checksumFailureResendsOnce : Obligations.ChecksumFailureResendsOnce := by
  refine ⟨fun s t b rx e f only phase ends enough event failure => ?_, fun s only phase => ?_⟩
  · have fails : e.checksumFails := by
      rcases failure with ⟨a, rfl⟩ | ⟨r, rfl, status⟩
      · trivial
      · exact status
    obtain ⟨-, devices, line, -, sends⟩ := ends.keeps
    rw [ends.step_classify only phase enough event, classify_of_checksumFails fails]
    refine ⟨fun fresh kept status fits => ⟨fun noChoice => ?_, fun left failing => ?_⟩, fun pending => ?_⟩
    · have reached := resendPath_sends (s := { t with host := { s.host with rx := rx } }) fresh kept status fits
        (sends.trans noChoice) e.parsedAddress
      simpa only [devices, line, only.line, bytesFor_nil, List.nil_append] using reached
    · rw [resendPath_of_writeError (by exact fresh) (by exact kept) status fits (by exact sends.trans failing)]
      rfl
    · rw [resendPath_of_pending (by exact pending)]
      refine ⟨?_, ?_⟩
      · rintro a rfl
        rfl
      · rintro r rfl
        rfl
  · obtain ⟨b, t, ends⟩ : ∃ b t, WaitEnds s b t := ⟨_, _, receiveReplies_waitEnds s⟩
    obtain ⟨host, -, -, replies, -⟩ := ends.keeps
    refine ⟨b, t, ends, replies, host, ?_⟩
    rw [only.step_resentDrain phase, endResent, ends.receive, ← host]

/-! ## The retry (R186) -/

/-- The state after the first step of an Exchange: the host waits, and nothing else but the line and the replies moved. -/
theorem Exchanging.keeps {s t : State} {f : Frame} {ts : List Task} (h : Exchanging s t f ts) :
    t.host.phase = .waiting ∧ t.host.tasks = ts ∧ t.host.lastSent = some f ∧ t.replies = [] ∧ t.devices = s.devices := by
  rw [h.next]
  exact ⟨rfl, rfl, rfl, rfl, rfl⟩

theorem resume_retry_of_resent (f : Frame) (ts : List Task) (s : State) :
    resume (.retry f :: ts) .resent s = startExchange f ts s := by
  rw [resume, if_pos rfl]

theorem resume_retry_of_other {r : HostResult} (h : r ≠ .resent) (f : Frame) (ts : List Task) (s : State) :
    resume (.retry f :: ts) r s = resume ts r s := by
  rw [resume, if_neg h]

/-- Settles O55: Resent starts the Exchange of the same frame, and every other outcome passes. -/
theorem retryOnceAfterResent : Obligations.RetryOnceAfterResent := by
  refine fun s f ts r => ⟨fun isOpen status fits noChoice => ?_, fun other => resume_retry_of_other other f ts s,
    resume_nil_eq r s⟩
  obtain ⟨t, next, exchanging⟩ := startExchange_sends (ts := ts) isOpen status fits noChoice
  obtain ⟨phase, tasks, kept, replies, devices⟩ := exchanging.keeps
  exact ⟨t, (resume_retry_of_resent f ts s).trans next, phase, tasks, kept, replies, devices, exchanging.sent⟩

end Sys2Proof.Machine
end

section
/-! Enumerate, Query, Connect and the senders (42_link_manager.md R187 to R197): what each starts, and how it goes on with the result
of the operation it called. Every frame they send goes by `startExchange_sends`. -/

namespace Sys2Proof.Machine

/-! ## Enumerate (R187 to R190) -/

/-- The nearest board is present and unaddressed (60_exceptions.md R230). -/
theorem nearestPending_iff {devices : List Device} :
    nearestPending devices = true ↔ ∃ d, devices[0]? = some d ∧ d.senseOut = false := by
  cases nearest : devices[0]? <;> simp [nearestPending, nearest]

theorem not_nearestPending_iff {devices : List Device} :
    nearestPending devices = false ↔ ∀ d, devices[0]? = some d → d.senseOut = true := by
  rw [← Bool.not_eq_true, nearestPending_iff]
  simp

/-- Enumerate returns before an iteration for one of three reasons. -/
theorem enumerateStops_iff {iter : Nat} {s : State} :
    enumerateStops iter s = true ↔ 15 < iter ∨ 15 ≤ s.host.assignedCount.toNat ∨
      (s.host.senseMode ≠ .off ∧ 2 ≤ iter ∧ nearestPending s.devices = false) := by
  simp only [enumerateStops, hostSense_eq, Bool.or_eq_true, Bool.and_eq_true, decide_eq_true_eq, bne_iff_ne, Bool.not_eq_true',
    MAX_BOARDS, ge_iff_le, gt_iff_lt, and_assoc, or_assoc]

theorem enumerateStops_eq_false {iter : Nat} {s : State} (inLoop : iter ≤ 15) (left : s.host.assignedCount.toNat < 15)
    (wanted : s.host.senseMode = .off ∨ iter < 2 ∨ nearestPending s.devices = true) : enumerateStops iter s = false := by
  rw [← Bool.not_eq_true, enumerateStops_iff]
  rintro (past | full | ⟨wired, later, settled⟩)
  · omega
  · omega
  · rcases wanted with off | first | pending
    · exact wired off
    · omega
    · rw [settled] at pending
      cases pending

/-- An iteration sends SETADDR with the count plus 1 to every board. -/
theorem startIteration_sends {s : State} (isOpen : s.host.linkOpen = true) (noChoice : s.oracle.sends = []) (iter err : Nat)
    (ts : List Task) :
    ∃ t, startIteration iter err ts s = .next t ∧
      Exchanging s t (Frame.make 0xFF none [s.params.codes.setaddr, s.host.assignedCount + 1]) (.enumerate iter err :: ts) :=
  startExchange_sends (f := setaddrFrame s.params.codes (candidate s)) isOpen rfl (show 2 ≤ MAX_LEN by decide) noChoice

theorem replySuccess_iff {f : Frame} : replySuccess f = true ↔ f.statusCode = some 0x01 ∧ f.payload.head? = some 0x01 := by
  simp only [replySuccess, STATUS_NORMAL, REPORT_NORMAL, Bool.and_eq_true, beq_iff_eq]

theorem replySuccess_eq_false {f : Frame} (h : f.statusCode ≠ some 0x01 ∨ f.payload.head? ≠ some 0x01) :
    replySuccess f = false := by
  rw [← Bool.not_eq_true, replySuccess_iff, not_and_or]
  exact h

/-- The bus once Enumerate has counted a board. -/
def State.counted (s : State) : State := { s with host := { s.host with assignedCount := s.host.assignedCount + 1 } }

theorem resume_enumerate_of_success {r : HostResult} (success : enumerateSucceeds r = true) (iter err : Nat) (ts : List Task)
    (s : State) :
    resume (.enumerate iter err :: ts) r s =
      if s.host.senseMode = .off ∨ enumerateStops (iter + 1) s.counted = true then
        resume ts (.count (s.host.assignedCount + 1)) s.counted
      else startIteration (iter + 1) 0 ts s.counted := by
  rw [resume, if_pos success, ite_or]
  rfl

theorem resume_enumerate_of_failure {r : HostResult} (failure : enumerateSucceeds r = false) (caught : enumerateCatches r = true)
    (iter err : Nat) (ts : List Task) (s : State) :
    resume (.enumerate iter err :: ts) r s =
      if err + 1 = MAX_CONSEC_ERR then resume ts (.count (s.host.assignedCount + ENUM_FAIL_OFFSET)) s
      else if enumerateStops (iter + 1) s = true then resume ts (.count s.host.assignedCount) s
      else startIteration (iter + 1) (err + 1) ts s := by
  rw [resume, if_neg (by simp [failure]), if_pos caught]

theorem resume_enumerate_of_uncaught {r : HostResult} (failure : enumerateSucceeds r = false)
    (uncaught : enumerateCatches r = false) (iter err : Nat) (ts : List Task) (s : State) :
    resume (.enumerate iter err :: ts) r s = resume ts r s := by
  rw [resume, if_neg (by simp [failure]), if_neg (by simp [uncaught])]

/-- The outcomes of an iteration's Exchange that count as a failure (R187, R188). -/
def IterationFailure (r : HostResult) : Prop :=
  r = .resent ∨ r = .error .timeout ∨ r = .error .noBytes ∨ (∃ a, r = .error (.checksumMismatch a)) ∨ r = .error .overflow ∨
    (∃ reason, r = .error (.framing reason)) ∨
    ∃ f, r = .reply f ∧ (f.statusCode ≠ some 0x01 ∨ f.payload.head? ≠ some 0x01)

theorem IterationFailure.caught {r : HostResult} (h : IterationFailure r) :
    enumerateSucceeds r = false ∧ enumerateCatches r = true := by
  rcases h with rfl | rfl | rfl | ⟨a, rfl⟩ | rfl | ⟨reason, rfl⟩ | ⟨f, rfl, bad⟩
  on_goal 7 => exact ⟨replySuccess_eq_false bad, rfl⟩
  all_goals exact ⟨rfl, rfl⟩

/-- The first iteration runs whatever the sense signal (R187). -/
theorem startEnumerate_sends {s : State} (isOpen : s.host.linkOpen = true) (left : s.host.assignedCount.toNat < 15)
    (noChoice : s.oracle.sends = []) :
    ∃ t, startEnumerate s = .next t ∧
      Exchanging s t (Frame.make 0xFF none [s.params.codes.setaddr, s.host.assignedCount + 1]) [.enumerate 1 0] := by
  have goes : enumerateStops 1 s = false := enumerateStops_eq_false (by decide) left (.inr (.inl (by decide)))
  rw [startEnumerate, goes]
  exact startIteration_sends isOpen noChoice 1 0 []

theorem startEnumerate_of_full {s : State} (full : 15 ≤ s.host.assignedCount.toNat) :
    startEnumerate s = .next (hostReturn (.count s.host.assignedCount) s) :=
  if_pos (enumerateStops_iff.2 (.inr (.inl full)))

theorem counted_toNat {s : State} (left : s.host.assignedCount.toNat < 15) :
    s.counted.host.assignedCount.toNat = s.host.assignedCount.toNat + 1 := by
  have room : s.host.assignedCount.toNat + 1 < 256 := by omega
  exact BitVec.toNat_add_of_lt (y := 1#8) room

/-- The success that ends the loop returns the count with the new board (R188, R189). -/
theorem resume_enumerate_of_last {s : State} {r : HostResult} {iter : Nat} (success : enumerateSucceeds r = true)
    (first : 1 ≤ iter) (left : s.host.assignedCount.toNat < 15)
    (last : s.host.senseMode = .off ∨ iter = 15 ∨ s.host.assignedCount = 14 ∨ nearestPending s.devices = false) (err : Nat)
    (ts : List Task) :
    resume (.enumerate iter err :: ts) r s = resume ts (.count (s.host.assignedCount + 1)) s.counted := by
  rw [resume_enumerate_of_success success, if_pos]
  by_cases off : s.host.senseMode = .off
  · exact .inl off
  · refine .inr (enumerateStops_iff.2 ?_)
    rw [counted_toNat left]
    rcases last with wireless | ended | full | settled
    · exact absurd wireless off
    · exact .inl (by omega)
    · exact .inr (.inl (by rw [full]; decide))
    · exact .inr (.inr ⟨off, by omega, settled⟩)

/-- After any other success the next address goes out (R187). -/
theorem resume_enumerate_sends_next {s : State} {r : HostResult} {iter : Nat} (success : enumerateSucceeds r = true)
    (wired : s.host.senseMode ≠ .off) (inLoop : iter < 15) (left : s.host.assignedCount.toNat < 14)
    (pending : nearestPending s.devices = true) (isOpen : s.host.linkOpen = true) (noChoice : s.oracle.sends = []) (err : Nat)
    (ts : List Task) :
    ∃ t, resume (.enumerate iter err :: ts) r s = .next t ∧
      Exchanging s.counted t (Frame.make 0xFF none [s.params.codes.setaddr, s.host.assignedCount + 2])
        (.enumerate (iter + 1) 0 :: ts) := by
  have goes : enumerateStops (iter + 1) s.counted = false :=
    enumerateStops_eq_false inLoop (by rw [counted_toNat (by omega)]; omega) (.inr (.inr pending))
  have second : s.counted.host.assignedCount + 1 = s.host.assignedCount + 2 := BitVec.add_assoc _ _ _
  rw [resume_enumerate_of_success success, if_neg (by simp [wired, goes]), ← second]
  exact startIteration_sends (s := s.counted) isOpen noChoice (iter + 1) 0 ts

/-- The third failure in a row returns the sentinel (R190). -/
theorem resume_enumerate_of_third_failure {r : HostResult} (failed : IterationFailure r) (iter : Nat) (ts : List Task) (s : State) :
    resume (.enumerate iter 2 :: ts) r s = resume ts (.count (s.host.assignedCount + ENUM_FAIL_OFFSET)) s := by
  obtain ⟨failure, caught⟩ := failed.caught
  rw [resume_enumerate_of_failure failure caught, if_pos (by decide)]

/-- An earlier failure that ends the loop returns the count (R187, R190). -/
theorem resume_enumerate_of_last_failure {s : State} {r : HostResult} {iter err : Nat} (failed : IterationFailure r)
    (first : 1 ≤ iter) (early : err < 2)
    (last : iter = 15 ∨ (s.host.senseMode ≠ .off ∧ nearestPending s.devices = false)) (ts : List Task) :
    resume (.enumerate iter err :: ts) r s = resume ts (.count s.host.assignedCount) s := by
  obtain ⟨failure, caught⟩ := failed.caught
  have notThird : err + 1 ≠ MAX_CONSEC_ERR := by simp only [MAX_CONSEC_ERR]; omega
  have stops : enumerateStops (iter + 1) s = true := enumerateStops_iff.2 <| by
    rcases last with ended | ⟨wired, settled⟩
    · exact .inl (by omega)
    · exact .inr (.inr ⟨wired, by omega, settled⟩)
  rw [resume_enumerate_of_failure failure caught, if_neg notThird, if_pos stops]

/-- After any other failure the same address goes out again (R187, R190). -/
theorem resume_enumerate_sends_again {s : State} {r : HostResult} {iter err : Nat} (failed : IterationFailure r) (early : err < 2)
    (inLoop : iter < 15) (left : s.host.assignedCount.toNat < 15)
    (wanted : s.host.senseMode = .off ∨ nearestPending s.devices = true) (isOpen : s.host.linkOpen = true)
    (noChoice : s.oracle.sends = []) (ts : List Task) :
    ∃ t, resume (.enumerate iter err :: ts) r s = .next t ∧
      Exchanging s t (Frame.make 0xFF none [s.params.codes.setaddr, s.host.assignedCount + 1])
        (.enumerate (iter + 1) (err + 1) :: ts) := by
  obtain ⟨failure, caught⟩ := failed.caught
  have notThird : err + 1 ≠ MAX_CONSEC_ERR := by simp only [MAX_CONSEC_ERR]; omega
  have goes : enumerateStops (iter + 1) s = false := enumerateStops_eq_false inLoop left (wanted.imp_right .inr)
  rw [resume_enumerate_of_failure failure caught, if_neg notThird, if_neg (by simp [goes])]
  exact startIteration_sends isOpen noChoice (iter + 1) (err + 1) ts

/-- Settles O56: each outcome decides how Enumerate goes on, and `enumerateStops` whether another iteration runs. -/
theorem enumerateGoesOn : Obligations.EnumerateGoesOn := by
  intro s iter err ts r first inLoop
  refine ⟨fun rest h idle isOpen => ?start, ?success, fun failed left => ?failure, ?ended⟩
  case start =>
    rw [h.step_onLink startEnumerate (fun _ => rfl) idle isOpen]
    refine ⟨fun left noChoice => startEnumerate_sends (s := { s with inputs := rest }) isOpen left noChoice, fun full => ?_⟩
    rw [startEnumerate_of_full (by exact full), hostReturn_of_idle (by exact idle)]
  case success =>
    rintro f rfl status report left
    have success : enumerateSucceeds (.reply f) = true := replySuccess_iff.2 ⟨status, report⟩
    rw [← not_nearestPending_iff, ← nearestPending_iff]
    exact ⟨fun last => resume_enumerate_of_last success first left last err ts,
      fun wired more room pending isOpen noChoice =>
        resume_enumerate_sends_next success wired more room pending isOpen noChoice err ts⟩
  case failure =>
    rw [← not_nearestPending_iff, ← nearestPending_iff]
    refine ⟨?_, fun early last => resume_enumerate_of_last_failure failed first early last ts,
      fun early more wanted isOpen noChoice => resume_enumerate_sends_again failed early more left wanted isOpen noChoice ts⟩
    rintro rfl
    exact resume_enumerate_of_third_failure failed iter ts s
  case ended =>
    rintro (rfl | rfl) <;> exact resume_enumerate_of_uncaught rfl rfl iter err ts s

/-! ## Query (R192, R193) -/

theorem startQuery_sends {s : State} (isOpen : s.host.linkOpen = true) (noChoice : s.oracle.sends = []) (n : Byte)
    (ts : List Task) :
    ∃ t, startQuery n ts s = .next t ∧ Exchanging s t (Frame.make n none [s.params.codes.ioident])
      (.retry (Frame.make n none [s.params.codes.ioident]) :: .queryIdent n :: ts) :=
  startExchange_sends (f := identFrame s.params.codes n) isOpen rfl (show 1 ≤ MAX_LEN by decide) noChoice

/-- The identity is what stands before the first zero byte, or all of it. -/
theorem replyIdentity_of_ending {name ending : List Byte} (report : Byte) (noZero : (0x00 : Byte) ∉ name)
    (closed : ending = [] ∨ ending.head? = some 0x00) : replyIdentity (report :: (name ++ ending)) = name := by
  have letters : ∀ b ∈ name, (b != 0x00) = true := by
    intro b hb
    rw [bne_iff_ne]
    rintro rfl
    exact noZero hb
  have stops : ending.takeWhile (fun b => b != 0x00) = [] := by
    rcases closed with rfl | zero
    · rfl
    · obtain ⟨rest, rfl⟩ := List.head?_eq_some_iff.1 zero
      rfl
  rw [replyIdentity, List.drop_one, List.tail_cons, List.takeWhile_append_of_pos letters, stops, List.append_nil]

theorem resume_queryIdent_of_success {f : Frame} (success : replySuccess f = true) (n : Byte) (ts : List Task) (s : State) :
    resume (.queryIdent n :: ts) (.reply f) s =
      startRetry (infoFrame s.params.codes n) (.queryInfo n (replyIdentity f.payload) :: ts) s := by
  rw [resume, if_pos success]

theorem resume_queryIdent_of_malformed {f : Frame} (failure : replySuccess f = false) (n : Byte) (ts : List Task) (s : State) :
    resume (.queryIdent n :: ts) (.reply f) s = resume ts (.error (.framing .malformedReply)) s := by
  rw [resume, if_neg (by simp [failure])]

theorem resume_queryIdent_of_error (n : Byte) (e : HostError) (ts : List Task) (s : State) :
    resume (.queryIdent n :: ts) (.error e) s = resume ts (.error e) s := by
  rw [resume]

/-- Settles O58: both requests are Exchanges, and the identity of the reply goes with the second. -/
theorem queryIdentity : Obligations.QueryIdentity := by
  intro s node a sum name ending ts
  refine ⟨fun rest h idle isOpen noChoice => ?_, fun isOpen noChoice noZero closed => ?_,
    fun f bad => resume_queryIdent_of_malformed (replySuccess_eq_false bad) node ts s,
    fun e => resume_queryIdent_of_error node e ts s⟩
  · rw [h.step_onLink (startQuery node []) (fun _ => rfl) idle isOpen]
    exact startQuery_sends (s := { s with inputs := rest }) isOpen noChoice node []
  · rw [resume_queryIdent_of_success (replySuccess_iff.2 ⟨rfl, rfl⟩), replyIdentity_of_ending 0x01 noZero closed]
    obtain ⟨t, next, exchanging⟩ := startExchange_sends (f := infoFrame s.params.codes node)
      (ts := .retry (infoFrame s.params.codes node) :: .queryInfo node name :: ts) isOpen rfl (show 4 ≤ MAX_LEN by decide)
      noChoice
    exact ⟨t, _, next, rfl, exchanging⟩

/-! ## Connect (R196) -/

theorem resume_connectEnum_of_sentinel {c : Byte} (h : ENUM_FAIL_OFFSET.toNat ≤ c.toNat) (s : State) :
    resume [.connectEnum] (.count c) s = .next (hostReturn (.error (.enumeration c)) s) := by
  rw [resume, if_pos h, resume_nil_eq]

theorem resume_connectEnum_of_zero (s : State) : resume [.connectEnum] (.count 0) s = .next (hostReturn (.count 0) s) := by
  rw [resume, if_neg (by decide), if_pos rfl, resume_nil_eq]

theorem resume_connectEnum_of_boards {c : Byte} (counted : 1 ≤ c.toNat) (good : c.toNat < ENUM_FAIL_OFFSET.toNat) (s : State) :
    resume [.connectEnum] (.count c) s = startQuery 1 [.connectQuery 1 c] s := by
  have nonzero : c ≠ 0 := by
    rintro rfl
    exact absurd counted (by decide)
  rw [resume, if_neg (Nat.not_le.2 good), if_neg nonzero]

theorem resume_connectQuery_of_more {m c : Byte} (more : m.toNat < c.toNat) (b : BoardInfo) (s : State) :
    resume [.connectQuery m c] (.board b) s = startQuery (m + 1) [.connectQuery (m + 1) c] s := by
  rw [resume, if_pos more]

theorem resume_connectQuery_of_last {m c : Byte} (last : c.toNat ≤ m.toNat) (b : BoardInfo) (s : State) :
    resume [.connectQuery m c] (.board b) s = .next (hostReturn (.count c) s) := by
  rw [resume, if_neg (Nat.not_lt.2 last), resume_nil_eq]

/-- Settles O59: each result is the start of the next operation or the end of Connect. -/
theorem connectGoesOn : Obligations.ConnectGoesOn := by
  intro s c m
  refine ⟨fun sentinel => resume_connectEnum_of_sentinel sentinel s, ?zero, fun counted good isOpen noChoice => ?boards,
    fun b more isOpen noChoice => ?more, fun b last => resume_connectQuery_of_last last b s,
    fun rest h idle isOpen noChoice codes => ?reset, fun isOpen noChoice => ?enumerate, ?error⟩
  case zero =>
    rintro rfl
    exact resume_connectEnum_of_zero s
  case boards =>
    rw [resume_connectEnum_of_boards counted good]
    obtain ⟨t, next, exchanging⟩ := startQuery_sends isOpen noChoice 1 [.connectQuery 1 c]
    exact ⟨t, _, next, rfl, exchanging⟩
  case more =>
    rw [resume_connectQuery_of_more more]
    obtain ⟨t, next, exchanging⟩ := startQuery_sends isOpen noChoice (m + 1) [.connectQuery (m + 1) c]
    exact ⟨t, _, next, rfl, exchanging⟩
  case reset =>
    rw [h.step_onLink (startReset [.connectReset]) (fun _ => rfl) idle isOpen]
    exact startReset_sends (s := { s with inputs := rest }) noChoice codes [.connectReset]
  case enumerate =>
    rw [resume]
    exact startIteration_sends isOpen noChoice 1 0 [.connectEnum]
  case error =>
    intro e x waiting
    simp only [List.mem_cons, List.not_mem_nil, or_false] at waiting
    rcases waiting with rfl | rfl | rfl <;> rfl

/-! ## The senders (R197) -/

theorem senderIdOk_iff {id : Byte} : senderIdOk id = true ↔ 1 ≤ id.toNat ∧ id.toNat ≤ 0xFD := by
  simp only [senderIdOk, Bool.and_eq_true, decide_eq_true_eq]
  rfl

/-- An amount given by its two bytes is the amount they give on the wire (30_encoding.md R87). -/
theorem append_eq_amountOf (h l : Byte) : (h ++ l : U16) = amountOf h l := by
  apply BitVec.eq_of_toNat_eq
  rw [BitVec.toNat_append, ← Nat.shiftLeft_add_eq_or_of_lt l.isLt, Nat.shiftLeft_eq, amountOf_toNat, Nat.mul_comm]

theorem amountHi_append (h l : Byte) : amountHi (h ++ l) = h := by
  rw [append_eq_amountOf, amountHi_amountOf]

theorem amountLo_append (h l : Byte) : amountLo (h ++ l) = l := by
  rw [append_eq_amountOf, amountLo_amountOf]

/-- The rows of R197's table but WriteAnalog: a sender to `id`, the payload of its frame, and whether its counts are valid. -/
def SenderRow (p : Params) (id : Byte) (x : Sender) (payload : List Byte) (valid : Bool) : Prop :=
  (∃ pl b, x = .readSwitches id pl b ∧ payload = [0x20, pl, b] ∧ valid = (pl != 0 && b != 0)) ∨
  (∃ n, x = .readCoins id n ∧ payload = [0x21, n] ∧ valid = (n != 0)) ∨
  (∃ slot h l, x = .increaseCoin id slot (h ++ l) ∧ payload = [0x35, slot, h, l] ∧
    valid = (slot != 0 && (h != 0 || l != 0))) ∨
  (∃ slot h l, x = .decreaseCoin id slot (h ++ l) ∧ payload = [0x30, slot, h, l] ∧
    valid = (slot != 0 && (h != 0 || l != 0))) ∨
  (∃ data, x = .writeOutputs id data ∧ payload = 0x32 :: BitVec.ofNat 8 data.length :: data ∧
    valid = (decide (0 < data.length) && decide (data.length ≤ 252))) ∨
  (∃ n, x = .readAnalog id n ∧ payload = [p.analogReadCode, n] ∧ valid = (n != 0))

theorem bne_zero_iff_toNat_pos {n : Nat} {x : BitVec n} : (x != 0) = true ↔ 0 < x.toNat := by
  rw [bne_iff_ne, Ne, ← BitVec.toNat_inj]
  simp [Nat.pos_iff_ne_zero]

theorem coinArguments_valid_iff {slot h l : Byte} :
    0 < slot.toNat ∧ 0 < (h ++ l : U16).toNat ↔ (slot != 0 && (h != 0 || l != 0)) = true := by
  rw [Bool.and_eq_true, Bool.or_eq_true, bne_zero_iff_toNat_pos, bne_zero_iff_toNat_pos, bne_zero_iff_toNat_pos,
    append_eq_amountOf, amountOf_toNat]
  omega

/-- A sender builds the frame of its row exactly where its id and its counts are valid. -/
theorem senderFrame_of_row {p : Params} {id : Byte} {x : Sender} {payload : List Byte} {valid : Bool}
    (codes : p.codes = .standard) (row : SenderRow p id x payload valid) :
    senderFrame p x = if senderIdOk id = true ∧ valid = true then some (Frame.make id none payload) else none := by
  rcases row with ⟨pl, b, rfl, rfl, rfl⟩ | ⟨n, rfl, rfl, rfl⟩ | ⟨slot, h, l, rfl, rfl, rfl⟩ | ⟨slot, h, l, rfl, rfl, rfl⟩ |
    ⟨data, rfl, rfl, rfl⟩ | ⟨n, rfl, rfl, rfl⟩
  · simp only [senderFrame, codes, Bool.and_eq_true, bne_zero_iff_toNat_pos, gt_iff_lt]
    rfl
  · simp only [senderFrame, codes, bne_zero_iff_toNat_pos, gt_iff_lt]
    rfl
  · simp only [senderFrame, codes, amountHi_append, amountLo_append, gt_iff_lt, coinArguments_valid_iff]
    rfl
  · simp only [senderFrame, codes, amountHi_append, amountLo_append, gt_iff_lt, coinArguments_valid_iff]
    rfl
  · simp only [senderFrame, codes, Bool.and_eq_true, decide_eq_true_eq]
    rfl
  · simp only [senderFrame, bne_zero_iff_toNat_pos, gt_iff_lt]

/-- The frame of a valid row can be encoded. -/
theorem SenderRow.fits {p : Params} {id : Byte} {x : Sender} {payload : List Byte} (row : SenderRow p id x payload true) :
    payload.length ≤ MAX_LEN := by
  rcases row with ⟨pl, b, -, rfl, -⟩ | ⟨n, -, rfl, -⟩ | ⟨slot, h, l, -, rfl, -⟩ | ⟨slot, h, l, -, rfl, -⟩ |
    ⟨data, -, rfl, counted⟩ | ⟨n, -, rfl, -⟩
  on_goal 5 =>
    have bound := (Bool.and_eq_true_iff.1 counted.symm).2
    simp only [decide_eq_true_eq] at bound
    simp only [List.length_cons, MAX_LEN]
    omega
  all_goals simp [MAX_LEN]

/-- Settles O60: the row's frame goes out by ExchangeRetry, or there is none. -/
theorem sendersSendOneFrame : Obligations.SendersSendOneFrame := by
  intro s rest x id valid payload h idle isOpen noChoice codes row
  have frame := senderFrame_of_row codes row
  refine ⟨fun low high isValid => ?_, fun invalid => ?_⟩
  · subst isValid
    rw [if_pos ⟨senderIdOk_iff.2 ⟨low, high⟩, rfl⟩] at frame
    obtain ⟨t, next, exchanging⟩ := startExchange_sends (s := { s with inputs := rest }) (f := Frame.make id none payload)
      (ts := [.retry (Frame.make id none payload)]) isOpen rfl (SenderRow.fits row) noChoice
    obtain ⟨phase, tasks, kept, -, -⟩ := exchanging.keeps
    refine ⟨t, _, ?_, phase, kept, tasks, rfl, rfl, rfl, exchanging.sent⟩
    simp only [h.step_onLink (startSender x) (fun _ => rfl) idle isOpen, startSender, frame]
    exact next
  · have refused : ¬ (senderIdOk id = true ∧ valid = true) := by
      rw [senderIdOk_iff]
      rintro ⟨⟨low, high⟩, isValid⟩
      rcases invalid with bad | zero | beyond
      · rw [bad] at isValid
        cases isValid
      · omega
      · omega
    rw [if_neg refused] at frame
    rw [h.step_onLink (startSender x) (fun _ => rfl) idle isOpen, ← hostReturn_of_idle (s := { s with inputs := rest }) idle]
    simp only [startSender, frame]

end Sys2Proof.Machine
end

section
/-! What the outside world's events at a board leave behind, and what the sense inputs read
(60_exceptions.md R223, R227, R230). -/

namespace Sys2Proof.Machine

/-! ## The sense inputs -/

/-- Settles O47: both inputs read the next board outward, since writing and reading a level use the same polarity. -/
theorem senseFollowsTheChain : Obligations.SenseFollowsTheChain := by
  intro s j
  refine ⟨senseIn_iff, ?_⟩
  rw [hostSense_eq, nearestPending_iff]

/-! ## Address loss -/

theorem addressLossInput_of_board {s : State} {i : Nat} {d : Device} (hd : s.devices[i]? = some d) :
    addressLossInput i s = .next { s with devices := s.devices.set i (deviceReset d) } := by
  simp only [addressLossInput, hd]

/-- Settles O37: the event is DeviceReset of its board (70_reset_and_hazards.md R240, R241). -/
theorem addressLossResets : Obligations.AddressLossResets := by
  intro s rest j d h hd
  exact h.step.trans (addressLossInput_of_board hd)

/-! ## Poll writes -/

/-- What MemWrite leaves inside the range it writes (00_scope.md R12). -/
theorem memWrite_getElem?_inside {buf : List Byte} {i m : Nat} {v : List Byte} (h : i + v.length ≤ buf.length)
    (hm : m < v.length) : (memWrite buf i v)[i + m]? = v[m]? := by
  calc (memWrite buf i v)[i + m]?
      = (memRead (memWrite buf i v) i v.length)[m]? := by
        rw [memRead, List.getElem?_take_of_lt hm, List.getElem?_drop]
    _ = v[m]? := by rw [memRead_memWrite_self h]

/-- Under the lock, a write inside its buffer is taken and changes its own board only (20_memory.md R70). -/
theorem State.Takes.step_poll {s : State} {rest : List Input} {j : Nat} {p : PollWrite} {d d' : Device}
    (h : s.Takes (.poll j true p) rest) (hd : s.devices[j]? = some d) (written : pollDevice d p = some d') :
    Machine.step s = .next { s with inputs := rest, devices := s.devices.set j d' } := by
  rw [h.step]
  simp only [takeInput, pollInput, hd, written, if_true]

/-- Settles O38: the step takes the write, and the write inside its buffer is one `set`, or one MemWrite of switch bytes. -/
theorem pollWritesOnePlace : Obligations.PollWritesOnePlace := by
  intro s rest j d hd
  refine ⟨fun k data h inside => ?switches, fun v h => ?systemSwitches, fun k v h inside => ?coinSlot,
    fun k c h inside => ?coinCondition, fun k v h inside => ?analog⟩
  case switches =>
    exact ⟨memWrite d.switches k data, h.step_poll hd (if_pos inside), memWrite_length inside,
      fun _ hm => memWrite_getElem?_inside inside hm, fun _ hm => memWrite_getElem?_outside inside hm⟩
  case systemSwitches => exact h.step_poll hd rfl
  case coinSlot => exact h.step_poll hd (if_pos inside)
  case coinCondition => exact h.step_poll hd (if_pos inside)
  case analog => exact h.step_poll hd (if_pos inside)

end Sys2Proof.Machine
end

section
/-! How a board comes to lose its address (70_reset_and_hazards.md R241): RESET with its literal, the address-loss event, or its
own power-up. -/

namespace Sys2Proof.Machine

/-! ## What keeps a held address -/

theorem pollDevice_nodeId {d d' : Device} {p : PollWrite} (h : pollDevice d p = some d') : d'.nodeId = d.nodeId := by
  obtain ⟨-, nodeId, -⟩ := pollDevice_keeps h
  exact nodeId

/-- Of the commands, only RESET with its literal unaddresses a board: SETADDR, the one other command that writes the address,
acts on an unaddressed board only (41_interpreter.md R150, R151). -/
theorem BoardEffect.reset_of_addressLost {i : Instr} {d d' : Device} (e : BoardEffect i d d')
    (held : d.nodeId ≠ ADDR_UNASSIGNED) (lost : d'.nodeId = ADDR_UNASSIGNED) : i = .reset (some RESET_ARG) := by
  cases e with
  | reset code => exact code
  | addressed _ _ _ unaddressed => exact absurd unaddressed held
  | same | misconfigured | coins | outputs => exact absurd lost held

/-! ## The three triggers (R241) -/

/-- Of all that a step can do to a board, only the three triggers take its address; the reply it keeps, the bytes it hears and
the polling task leave the address alone. -/
theorem BoardStep.trigger_of_addressLost {s : State} {j : Nat} {d d' : Device} (h : BoardStep s j d d')
    (held : d.nodeId ≠ ADDR_UNASSIGNED) (lost : d'.nodeId = ADDR_UNASSIGNED) :
    (∃ w, s.walk = some w ∧ w.dev = j ∧ w.stop = false ∧
      decode s.params.codes (w.payload.drop w.pos) = .ok (.reset (some RESET_ARG))) ∨
    (s.walk = none ∧ (s.inputs.head? = some (.addressLoss j) ∨ ∃ cfg, s.inputs.head? = some (.powerUp j cfg))) := by
  cases h with
  | command w i walk going here code _ effect =>
    obtain rfl := effect.reset_of_addressLost held lost
    exact .inl ⟨w, walk, here, going, code⟩
  | sent | byte => exact absurd lost held
  | poll _ _ write => exact absurd ((pollDevice_nodeId write).symm.trans lost) held
  | addressLoss walk input => exact .inr ⟨walk, .inl input⟩
  | powerUp walk cfg input => exact .inr ⟨walk, .inr ⟨cfg, input⟩⟩

/-- Settles O34, from what one step can do to a board. -/
theorem resetHasThreeTriggers : Obligations.ResetHasThreeTriggers := by
  intro s t j d d' hstep hd hd' held lost
  obtain ⟨-, boards⟩ := step_boards hstep
  obtain ⟨x, hx, change⟩ := boards j d hd
  obtain rfl : d' = x := Option.some.inj (hd'.symm.trans hx)
  exact change.trigger_of_addressLost held lost

end Sys2Proof.Machine
end
